-- ==== Sys2Proof/Word.lean ====
section
/-! DEFINITION. The word, byte and matrix types of the CORE (00_scope.md R8, R10, R11). -/

namespace Sys2Proof

/-- A word: a 32-bit unsigned value, arithmetic modulo 2^32 (R8). -/
abbrev Word := BitVec 32

/-- A byte of memory (R60). -/
abbrev Byte := BitVec 8

/-- A byte address; address arithmetic wraps modulo 2^32 (R61). -/
abbrev Addr := BitVec 32

/-- A command word as the host hands it over (R90). -/
abbrev Cmd := BitVec 64

/-- An `r` by `c` matrix of words, row-major (R11). A file of wide registers is one too: row `n` is
register `n`, column `l` its lane `l` (R24). -/
structure Mat (r c : Nat) where
  rows : Vector (Vector Word c) r
  deriving DecidableEq, Repr

/-- `X[i][j]` (R11); on wide registers `V[i].j` (R13). -/
def Mat.word {r c : Nat} (X : Mat r c) (i : Fin r) (j : Fin c) : Word :=
  (X.rows[i.val])[j.val]

/-- The matrix whose element `(i, j)` is `f i j`. -/
@[irreducible] def Mat.ofFn {r c : Nat} (f : Fin r → Fin c → Word) : Mat r c :=
  ⟨Vector.ofFn fun i => Vector.ofFn fun j => f i j⟩

/-- The all-zero matrix, the reset and cleared value of every matrix register (R330). -/
def Mat.zero {r c : Nat} : Mat r c := ⟨Vector.replicate r (Vector.replicate c 0)⟩

/-- A 4x4 matrix: a block, a subkey, the scalar state (R11, R21). -/
abbrev Block := Mat 4 4

/-- A subkey schedule: 24 subkeys, numbered 0..23 (R22). -/
abbrev Schedule := Vector Block 24

/-- A wide register as the list of its 8 lanes (R24). -/
abbrev Wide := Vector Word 8

/-- Sixteen wide registers (R24). -/
abbrev WideFile := Mat 16 8

/-- Four words in the roles `a, b, c, d` of a mixer (R121). -/
structure Quad where
  a : Word
  b : Word
  c : Word
  d : Word
  deriving DecidableEq, Repr

end Sys2Proof
end

