-- ==== Sys2Proof/Syntax.lean ====
section
/-! DEFINITION. The 51 commands of the opcode map (30_encoding.md R94), one constructor a row. -/

namespace Sys2Proof

/-- A command with its operands. The small operands are the 8-bit fields `a` and `b` of the command
word (R90), named as R93 names them: `r` a round, `k` a subkey, `c` a column, `w` the relabel flag,
`j` an internal round, `i` a squeeze step, `t` a ROM table. Their legal ranges are
`Instr.wellFormed`'s. -/
inductive Instr where
  /-- R270 -/
  | nop
  /-- R271 -/
  | setsrc (imm : Word)
  /-- R272 -/
  | setdst (imm : Word)
  /-- R273 -/
  | setcnt (imm : Word)
  /-- R274 -/
  | romrd (t : BitVec 8) (imm : Word)
  /-- R124 -/
  | mixg (c w : BitVec 8)
  /-- R125 -/
  | mixh (c w : BitVec 8)
  /-- R126 -/
  | mixk (c w : BitVec 8)
  /-- R127 -/
  | imixg (c w : BitVec 8)
  /-- R128 -/
  | imixh (c w : BitVec 8)
  /-- R129 -/
  | imixk (c w : BitVec 8)
  /-- R146 -/
  | subc (r : BitVec 8)
  /-- R151 -/
  | colmix
  /-- R152 -/
  | icolmix
  /-- R153 -/
  | shrows
  /-- R154 -/
  | ishrows
  /-- R155 -/
  | ark (k : BitVec 8)
  /-- R156 -/
  | fround (r : BitVec 8)
  /-- R157 -/
  | iround (r : BitVec 8)
  /-- R158 -/
  | ldblk
  /-- R159 -/
  | stblk
  /-- R160 -/
  | enc
  /-- R161 -/
  | dec
  /-- R181 -/
  | ksinit
  /-- R182 -/
  | ksprnd (j : BitVec 8)
  /-- R183 -/
  | ksperm
  /-- R184 -/
  | kssqz (i : BitVec 8)
  /-- R186 -/
  | keysched
  /-- R187 -/
  | kwipe
  /-- R188 -/
  | ldsk
  /-- R189 -/
  | stsk
  /-- R211 -/
  | ctxinit
  /-- R212 -/
  | ctxclr
  /-- R213 -/
  | vldraw
  /-- R216 -/
  | vxpose
  /-- R217 -/
  | vixpose
  /-- R219 -/
  | vstraw
  /-- R220 -/
  | vload
  /-- R221 -/
  | vstore
  /-- R222 -/
  | vsubc (r : BitVec 8)
  /-- R223 -/
  | vcolmix
  /-- R224 -/
  | vicolmix
  /-- R225 -/
  | vshrows
  /-- R226 -/
  | vishrows
  /-- R227 -/
  | vark (k : BitVec 8)
  /-- R228 -/
  | vfround (r : BitVec 8)
  /-- R229 -/
  | viround (r : BitVec 8)
  /-- R230 -/
  | venc8
  /-- R231 -/
  | vdec8
  /-- R232 -/
  | benc
  /-- R234 -/
  | bdec
  deriving DecidableEq, Repr

end Sys2Proof
end

