-- ==== Sys2Proof/WellFormed.lean ====
section
/-! DEFINITION. The legal operand ranges of the commands (30_encoding.md R93). -/

namespace Sys2Proof

/-- A round number: 1..22 (R93). -/
def legalRound (r : BitVec 8) : Bool := decide (1 ≤ r.toNat ∧ r.toNat ≤ 22)

/-- A subkey number: 0..23 (R93). -/
def legalSubkey (k : BitVec 8) : Bool := decide (k.toNat ≤ 23)

/-- A column: 0..3 (R93). -/
def legalColumn (c : BitVec 8) : Bool := decide (c.toNat ≤ 3)

/-- The relabel flag: 0..1 (R93). -/
def legalRelabel (w : BitVec 8) : Bool := decide (w.toNat ≤ 1)

/-- An internal round of the key-schedule permutation: 0..15 (R93). -/
def legalInternalRound (j : BitVec 8) : Bool := decide (j.toNat ≤ 15)

/-- A squeeze step: 0..23 (R93). -/
def legalSqueezeStep (i : BitVec 8) : Bool := decide (i.toNat ≤ 23)

/-- The lengths of the four ROM tables (R30); a table number above 3 names no table. -/
def romLength (t : BitVec 8) : Nat :=
  match t.toNat with
  | 0 => 352
  | 1 => 24
  | 2 => 64
  | 3 => 736
  | _ => 0

/-- A ROM word: table 0..3 and index below the table's length (R93). -/
def legalRomIndex (t : BitVec 8) (imm : Word) : Bool := decide (imm.toNat < romLength t)

/-- Every operand of the command is inside its range (R93). A command that is not is illegal (R96). -/
def Instr.wellFormed : Instr → Bool
  | .nop => true
  | .setsrc _ => true
  | .setdst _ => true
  | .setcnt _ => true
  | .romrd t imm => legalRomIndex t imm
  | .mixg c w => legalColumn c && legalRelabel w
  | .mixh c w => legalColumn c && legalRelabel w
  | .mixk c w => legalColumn c && legalRelabel w
  | .imixg c w => legalColumn c && legalRelabel w
  | .imixh c w => legalColumn c && legalRelabel w
  | .imixk c w => legalColumn c && legalRelabel w
  | .subc r => legalRound r
  | .colmix => true
  | .icolmix => true
  | .shrows => true
  | .ishrows => true
  | .ark k => legalSubkey k
  | .fround r => legalRound r
  | .iround r => legalRound r
  | .ldblk => true
  | .stblk => true
  | .enc => true
  | .dec => true
  | .ksinit => true
  | .ksprnd j => legalInternalRound j
  | .ksperm => true
  | .kssqz i => legalSqueezeStep i
  | .keysched => true
  | .kwipe => true
  | .ldsk => true
  | .stsk => true
  | .ctxinit => true
  | .ctxclr => true
  | .vldraw => true
  | .vxpose => true
  | .vixpose => true
  | .vstraw => true
  | .vload => true
  | .vstore => true
  | .vsubc r => legalRound r
  | .vcolmix => true
  | .vicolmix => true
  | .vshrows => true
  | .vishrows => true
  | .vark k => legalSubkey k
  | .vfround r => legalRound r
  | .viround r => legalRound r
  | .venc8 => true
  | .vdec8 => true
  | .benc => true
  | .bdec => true

end Sys2Proof
end

