-- ==== Sys2Proof/Decode.lean ====
section
/-! DEFINITION. The command word: its fields (30_encoding.md R90), formats (R91), the opcode map
(R94), decoding (R95, R96) and encoding. -/

namespace Sys2Proof

/-- Bits 63:56, the opcode (R90). -/
def fieldOp (w : Cmd) : BitVec 8 := w.extractLsb' 56 8

/-- Bits 55:48, the first small operand (R90). -/
def fieldA (w : Cmd) : BitVec 8 := w.extractLsb' 48 8

/-- Bits 47:40, the second small operand (R90). -/
def fieldB (w : Cmd) : BitVec 8 := w.extractLsb' 40 8

/-- Bits 39:32, 0 in every command (R90). -/
def fieldZ (w : Cmd) : BitVec 8 := w.extractLsb' 32 8

/-- Bits 31:0, the immediate, used as it stands (R90, R92). -/
def fieldImm (w : Cmd) : Word := w.extractLsb' 0 32

/-- The five formats: which fields carry an operand (R91). -/
inductive Format where
  /-- no operand -/
  | n
  /-- `a` -/
  | a
  /-- `a`, `b` -/
  | ab
  /-- `imm` -/
  | i
  /-- `a`, `imm` -/
  | ai
  deriving DecidableEq, Repr

/-- Every field the format does not use is 0 (R91). -/
def unusedFieldsZero (f : Format) (w : Cmd) : Bool :=
  decide (fieldZ w = 0) &&
  match f with
  | .n => decide (fieldA w = 0 ∧ fieldB w = 0 ∧ fieldImm w = 0)
  | .a => decide (fieldB w = 0 ∧ fieldImm w = 0)
  | .ab => decide (fieldImm w = 0)
  | .i => decide (fieldA w = 0 ∧ fieldB w = 0)
  | .ai => decide (fieldB w = 0)

/-- The row of the opcode map that `op` selects, with the operands the row names taken from the fields
`a`, `b`, `imm` (R94). -/
def rowOf (op a b : BitVec 8) (imm : Word) : Option (Format × Instr) :=
  match op.toNat with
  | 0x01 => some (.n, .nop)
  | 0x02 => some (.i, .setsrc imm)
  | 0x03 => some (.i, .setdst imm)
  | 0x04 => some (.i, .setcnt imm)
  | 0x05 => some (.ai, .romrd a imm)
  | 0x10 => some (.ab, .mixg a b)
  | 0x11 => some (.ab, .mixh a b)
  | 0x12 => some (.ab, .mixk a b)
  | 0x14 => some (.ab, .imixg a b)
  | 0x15 => some (.ab, .imixh a b)
  | 0x16 => some (.ab, .imixk a b)
  | 0x20 => some (.a, .subc a)
  | 0x21 => some (.n, .colmix)
  | 0x22 => some (.n, .icolmix)
  | 0x23 => some (.n, .shrows)
  | 0x24 => some (.n, .ishrows)
  | 0x25 => some (.a, .ark a)
  | 0x26 => some (.a, .fround a)
  | 0x27 => some (.a, .iround a)
  | 0x28 => some (.n, .ldblk)
  | 0x29 => some (.n, .stblk)
  | 0x2A => some (.n, .enc)
  | 0x2B => some (.n, .dec)
  | 0x30 => some (.n, .ksinit)
  | 0x31 => some (.a, .ksprnd a)
  | 0x32 => some (.n, .ksperm)
  | 0x33 => some (.a, .kssqz a)
  | 0x34 => some (.n, .keysched)
  | 0x35 => some (.n, .kwipe)
  | 0x36 => some (.n, .ldsk)
  | 0x37 => some (.n, .stsk)
  | 0x40 => some (.n, .ctxinit)
  | 0x41 => some (.n, .ctxclr)
  | 0x42 => some (.n, .vldraw)
  | 0x43 => some (.n, .vxpose)
  | 0x44 => some (.n, .vixpose)
  | 0x45 => some (.n, .vstraw)
  | 0x46 => some (.n, .vload)
  | 0x47 => some (.n, .vstore)
  | 0x48 => some (.a, .vsubc a)
  | 0x49 => some (.n, .vcolmix)
  | 0x4A => some (.n, .vicolmix)
  | 0x4B => some (.n, .vshrows)
  | 0x4C => some (.n, .vishrows)
  | 0x4D => some (.a, .vark a)
  | 0x4E => some (.a, .vfround a)
  | 0x4F => some (.a, .viround a)
  | 0x50 => some (.n, .venc8)
  | 0x51 => some (.n, .vdec8)
  | 0x52 => some (.n, .benc)
  | 0x53 => some (.n, .bdec)
  | _ => none

/-- The row a word selects, with its operands (R90, R94). -/
def selectRow (w : Cmd) : Option (Format × Instr) := rowOf (fieldOp w) (fieldA w) (fieldB w) (fieldImm w)

/-- Why a word is illegal (R96). The machine reports all three as E_ILLEGAL and records none (R299). -/
inductive Illegal where
  /-- `op` is not in the opcode map -/
  | unknownOpcode
  /-- a must-be-zero field of the format is not 0 -/
  | unusedFieldSet
  /-- an operand is outside its range -/
  | operandOutOfRange
  deriving DecidableEq, Repr

/-- Decoding, total on the 64-bit words: the three checks in the order R95 gives them. -/
def decode (w : Cmd) : Except Illegal Instr :=
  match selectRow w with
  | none => .error .unknownOpcode
  | some (f, i) =>
    if unusedFieldsZero f w then
      if i.wellFormed then .ok i else .error .operandOutOfRange
    else .error .unusedFieldSet

/-- The command word with these fields, `z` being 0 (R90). -/
def cmdWord (op a b : BitVec 8) (imm : Word) : Cmd := (op ++ a ++ b ++ (0 : BitVec 8)) ++ imm

/-- The word of a command, from the opcode map (R94) and the formats (R91). -/
def encode : Instr → Cmd
  | .nop => cmdWord 0x01 0 0 0
  | .setsrc imm => cmdWord 0x02 0 0 imm
  | .setdst imm => cmdWord 0x03 0 0 imm
  | .setcnt imm => cmdWord 0x04 0 0 imm
  | .romrd t imm => cmdWord 0x05 t 0 imm
  | .mixg c w => cmdWord 0x10 c w 0
  | .mixh c w => cmdWord 0x11 c w 0
  | .mixk c w => cmdWord 0x12 c w 0
  | .imixg c w => cmdWord 0x14 c w 0
  | .imixh c w => cmdWord 0x15 c w 0
  | .imixk c w => cmdWord 0x16 c w 0
  | .subc r => cmdWord 0x20 r 0 0
  | .colmix => cmdWord 0x21 0 0 0
  | .icolmix => cmdWord 0x22 0 0 0
  | .shrows => cmdWord 0x23 0 0 0
  | .ishrows => cmdWord 0x24 0 0 0
  | .ark k => cmdWord 0x25 k 0 0
  | .fround r => cmdWord 0x26 r 0 0
  | .iround r => cmdWord 0x27 r 0 0
  | .ldblk => cmdWord 0x28 0 0 0
  | .stblk => cmdWord 0x29 0 0 0
  | .enc => cmdWord 0x2A 0 0 0
  | .dec => cmdWord 0x2B 0 0 0
  | .ksinit => cmdWord 0x30 0 0 0
  | .ksprnd j => cmdWord 0x31 j 0 0
  | .ksperm => cmdWord 0x32 0 0 0
  | .kssqz i => cmdWord 0x33 i 0 0
  | .keysched => cmdWord 0x34 0 0 0
  | .kwipe => cmdWord 0x35 0 0 0
  | .ldsk => cmdWord 0x36 0 0 0
  | .stsk => cmdWord 0x37 0 0 0
  | .ctxinit => cmdWord 0x40 0 0 0
  | .ctxclr => cmdWord 0x41 0 0 0
  | .vldraw => cmdWord 0x42 0 0 0
  | .vxpose => cmdWord 0x43 0 0 0
  | .vixpose => cmdWord 0x44 0 0 0
  | .vstraw => cmdWord 0x45 0 0 0
  | .vload => cmdWord 0x46 0 0 0
  | .vstore => cmdWord 0x47 0 0 0
  | .vsubc r => cmdWord 0x48 r 0 0
  | .vcolmix => cmdWord 0x49 0 0 0
  | .vicolmix => cmdWord 0x4A 0 0 0
  | .vshrows => cmdWord 0x4B 0 0 0
  | .vishrows => cmdWord 0x4C 0 0 0
  | .vark k => cmdWord 0x4D k 0 0
  | .vfround r => cmdWord 0x4E r 0 0
  | .viround r => cmdWord 0x4F r 0 0
  | .venc8 => cmdWord 0x50 0 0 0
  | .vdec8 => cmdWord 0x51 0 0 0
  | .benc => cmdWord 0x52 0 0 0
  | .bdec => cmdWord 0x53 0 0 0

/-- The 64-bit command word that the low `nbits` bits of `w` stand for, every bit above them 0: a
command is handed over as one number, bit 0 its least significant bit (R64, R90). -/
def wordOfBits (nbits w : Nat) : Cmd := BitVec.ofNat 64 (w % 2 ^ nbits)

/-- What the decoder reads from a table word of `nbits` bits; a number wider than a command word is no
command (R97). -/
def decodeTableWord (nbits w : Nat) : Option Instr :=
  if w % 2 ^ nbits < 2 ^ 64 then
    match decode (wordOfBits nbits w) with
    | .ok i => some i
    | .error _ => none
  else none

/-- The mnemonic of a command (R94). -/
def Instr.mnemonic : Instr → String
  | .nop => "NOP"
  | .setsrc _ => "SETSRC"
  | .setdst _ => "SETDST"
  | .setcnt _ => "SETCNT"
  | .romrd _ _ => "ROMRD"
  | .mixg _ _ => "MIXG"
  | .mixh _ _ => "MIXH"
  | .mixk _ _ => "MIXK"
  | .imixg _ _ => "IMIXG"
  | .imixh _ _ => "IMIXH"
  | .imixk _ _ => "IMIXK"
  | .subc _ => "SUBC"
  | .colmix => "COLMIX"
  | .icolmix => "ICOLMIX"
  | .shrows => "SHROWS"
  | .ishrows => "ISHROWS"
  | .ark _ => "ARK"
  | .fround _ => "FROUND"
  | .iround _ => "IROUND"
  | .ldblk => "LDBLK"
  | .stblk => "STBLK"
  | .enc => "ENC"
  | .dec => "DEC"
  | .ksinit => "KSINIT"
  | .ksprnd _ => "KSPRND"
  | .ksperm => "KSPERM"
  | .kssqz _ => "KSSQZ"
  | .keysched => "KEYSCHED"
  | .kwipe => "KWIPE"
  | .ldsk => "LDSK"
  | .stsk => "STSK"
  | .ctxinit => "CTXINIT"
  | .ctxclr => "CTXCLR"
  | .vldraw => "VLDRAW"
  | .vxpose => "VXPOSE"
  | .vixpose => "VIXPOSE"
  | .vstraw => "VSTRAW"
  | .vload => "VLOAD"
  | .vstore => "VSTORE"
  | .vsubc _ => "VSUBC"
  | .vcolmix => "VCOLMIX"
  | .vicolmix => "VICOLMIX"
  | .vshrows => "VSHROWS"
  | .vishrows => "VISHROWS"
  | .vark _ => "VARK"
  | .vfround _ => "VFROUND"
  | .viround _ => "VIROUND"
  | .venc8 => "VENC8"
  | .vdec8 => "VDEC8"
  | .benc => "BENC"
  | .bdec => "BDEC"

/-- The last column of the opcode map: the range condition a row adds to its mask (R94). -/
inductive RangeCondition where
  /-- no further condition -/
  | none
  /-- `imm < length(t)` -/
  | romIndex
  /-- `1 <= r <= 22` -/
  | round
  /-- `k <= 23`, `i <= 23` -/
  | upTo23
  deriving DecidableEq, Repr

/-- A row of the opcode map: mnemonic, match, mask, condition (R94). -/
structure OpcodeRow where
  mnemonic : String
  pattern : Cmd
  mask : Cmd
  condition : RangeCondition
  deriving DecidableEq, Repr

/-- The opcode map as the spec prints it (R94). The decoder does not use it: that the two agree is a
statement. -/
def opcodeMap : List OpcodeRow :=
  [⟨"NOP", 0x0100000000000000, 0xFFFFFFFFFFFFFFFF, .none⟩,
   ⟨"SETSRC", 0x0200000000000000, 0xFFFFFFFF00000000, .none⟩,
   ⟨"SETDST", 0x0300000000000000, 0xFFFFFFFF00000000, .none⟩,
   ⟨"SETCNT", 0x0400000000000000, 0xFFFFFFFF00000000, .none⟩,
   ⟨"ROMRD", 0x0500000000000000, 0xFFFCFFFF00000000, .romIndex⟩,
   ⟨"MIXG", 0x1000000000000000, 0xFFFCFEFFFFFFFFFF, .none⟩,
   ⟨"MIXH", 0x1100000000000000, 0xFFFCFEFFFFFFFFFF, .none⟩,
   ⟨"MIXK", 0x1200000000000000, 0xFFFCFEFFFFFFFFFF, .none⟩,
   ⟨"IMIXG", 0x1400000000000000, 0xFFFCFEFFFFFFFFFF, .none⟩,
   ⟨"IMIXH", 0x1500000000000000, 0xFFFCFEFFFFFFFFFF, .none⟩,
   ⟨"IMIXK", 0x1600000000000000, 0xFFFCFEFFFFFFFFFF, .none⟩,
   ⟨"SUBC", 0x2000000000000000, 0xFFE0FFFFFFFFFFFF, .round⟩,
   ⟨"COLMIX", 0x2100000000000000, 0xFFFFFFFFFFFFFFFF, .none⟩,
   ⟨"ICOLMIX", 0x2200000000000000, 0xFFFFFFFFFFFFFFFF, .none⟩,
   ⟨"SHROWS", 0x2300000000000000, 0xFFFFFFFFFFFFFFFF, .none⟩,
   ⟨"ISHROWS", 0x2400000000000000, 0xFFFFFFFFFFFFFFFF, .none⟩,
   ⟨"ARK", 0x2500000000000000, 0xFFE0FFFFFFFFFFFF, .upTo23⟩,
   ⟨"FROUND", 0x2600000000000000, 0xFFE0FFFFFFFFFFFF, .round⟩,
   ⟨"IROUND", 0x2700000000000000, 0xFFE0FFFFFFFFFFFF, .round⟩,
   ⟨"LDBLK", 0x2800000000000000, 0xFFFFFFFFFFFFFFFF, .none⟩,
   ⟨"STBLK", 0x2900000000000000, 0xFFFFFFFFFFFFFFFF, .none⟩,
   ⟨"ENC", 0x2A00000000000000, 0xFFFFFFFFFFFFFFFF, .none⟩,
   ⟨"DEC", 0x2B00000000000000, 0xFFFFFFFFFFFFFFFF, .none⟩,
   ⟨"KSINIT", 0x3000000000000000, 0xFFFFFFFFFFFFFFFF, .none⟩,
   ⟨"KSPRND", 0x3100000000000000, 0xFFF0FFFFFFFFFFFF, .none⟩,
   ⟨"KSPERM", 0x3200000000000000, 0xFFFFFFFFFFFFFFFF, .none⟩,
   ⟨"KSSQZ", 0x3300000000000000, 0xFFE0FFFFFFFFFFFF, .upTo23⟩,
   ⟨"KEYSCHED", 0x3400000000000000, 0xFFFFFFFFFFFFFFFF, .none⟩,
   ⟨"KWIPE", 0x3500000000000000, 0xFFFFFFFFFFFFFFFF, .none⟩,
   ⟨"LDSK", 0x3600000000000000, 0xFFFFFFFFFFFFFFFF, .none⟩,
   ⟨"STSK", 0x3700000000000000, 0xFFFFFFFFFFFFFFFF, .none⟩,
   ⟨"CTXINIT", 0x4000000000000000, 0xFFFFFFFFFFFFFFFF, .none⟩,
   ⟨"CTXCLR", 0x4100000000000000, 0xFFFFFFFFFFFFFFFF, .none⟩,
   ⟨"VLDRAW", 0x4200000000000000, 0xFFFFFFFFFFFFFFFF, .none⟩,
   ⟨"VXPOSE", 0x4300000000000000, 0xFFFFFFFFFFFFFFFF, .none⟩,
   ⟨"VIXPOSE", 0x4400000000000000, 0xFFFFFFFFFFFFFFFF, .none⟩,
   ⟨"VSTRAW", 0x4500000000000000, 0xFFFFFFFFFFFFFFFF, .none⟩,
   ⟨"VLOAD", 0x4600000000000000, 0xFFFFFFFFFFFFFFFF, .none⟩,
   ⟨"VSTORE", 0x4700000000000000, 0xFFFFFFFFFFFFFFFF, .none⟩,
   ⟨"VSUBC", 0x4800000000000000, 0xFFE0FFFFFFFFFFFF, .round⟩,
   ⟨"VCOLMIX", 0x4900000000000000, 0xFFFFFFFFFFFFFFFF, .none⟩,
   ⟨"VICOLMIX", 0x4A00000000000000, 0xFFFFFFFFFFFFFFFF, .none⟩,
   ⟨"VSHROWS", 0x4B00000000000000, 0xFFFFFFFFFFFFFFFF, .none⟩,
   ⟨"VISHROWS", 0x4C00000000000000, 0xFFFFFFFFFFFFFFFF, .none⟩,
   ⟨"VARK", 0x4D00000000000000, 0xFFE0FFFFFFFFFFFF, .upTo23⟩,
   ⟨"VFROUND", 0x4E00000000000000, 0xFFE0FFFFFFFFFFFF, .round⟩,
   ⟨"VIROUND", 0x4F00000000000000, 0xFFE0FFFFFFFFFFFF, .round⟩,
   ⟨"VENC8", 0x5000000000000000, 0xFFFFFFFFFFFFFFFF, .none⟩,
   ⟨"VDEC8", 0x5100000000000000, 0xFFFFFFFFFFFFFFFF, .none⟩,
   ⟨"BENC", 0x5200000000000000, 0xFFFFFFFFFFFFFFFF, .none⟩,
   ⟨"BDEC", 0x5300000000000000, 0xFFFFFFFFFFFFFFFF, .none⟩]

/-- A word meets a row's range condition (R94). -/
def meetsCondition (c : RangeCondition) (w : Cmd) : Bool :=
  match c with
  | .none => true
  | .romIndex => legalRomIndex (fieldA w) (fieldImm w)
  | .round => legalRound (fieldA w)
  | .upTo23 => decide ((fieldA w).toNat ≤ 23)

/-- A word selects a row: `w & mask = match` and the range condition holds (R94). -/
def rowSelects (row : OpcodeRow) (w : Cmd) : Bool :=
  decide (w &&& row.mask = row.pattern) && meetsCondition row.condition w

end Sys2Proof
end

