-- ==== Sys2Proof/Machine/Matrix.lean ====
section
/-! DEFINITION. Matrices of words: XOR, word numbers, columns (00_scope.md R11). -/

namespace Sys2Proof.Machine

/-- `X ^ Y`, element-wise (R11). -/
def matXor {r c : Nat} (X Y : Mat r c) : Mat r c := Mat.ofFn fun i j => X.word i j ^^^ Y.word i j

/-- Word number `n` of a block, row-major: element `(n div 4, n mod 4)` (R11). -/
def blockWord (X : Block) (n : Fin 16) : Word := X.word ⟨n.val / 4, by omega⟩ ⟨n.val % 4, by omega⟩

/-- The number of the word `(i, j)` of a block: `4*i + j` (R11). -/
def wordNo (i j : Fin 4) : Fin 16 := ⟨4 * i.val + j.val, by omega⟩

/-- Position `0..3` of a quad: the roles `a, b, c, d`. -/
def quadAt (q : Quad) (n : Fin 4) : Word :=
  match n with
  | 0 => q.a
  | 1 => q.b
  | 2 => q.c
  | 3 => q.d

/-- The roles rotated by two positions: `(c, d, a, b)` (R130, R141). -/
def relabel (q : Quad) : Quad := ⟨q.c, q.d, q.a, q.b⟩

/-- Column `j`, row 0 playing `a` to row 3 playing `d` (R130, R141, R182). -/
def column {c : Nat} (X : Mat 4 c) (j : Fin c) : Quad := ⟨X.word 0 j, X.word 1 j, X.word 2 j, X.word 3 j⟩

/-- `X` with column `j` replaced by `q`. -/
def setColumn {c : Nat} (X : Mat 4 c) (j : Fin c) (q : Quad) : Mat 4 c :=
  Mat.ofFn fun i j' => if j' = j then quadAt q i else X.word i j'

/-- `f` applied to every column; the columns do not interact (R141, R182). -/
def mapColumns {c : Nat} (f : Quad → Quad) (X : Mat 4 c) : Mat 4 c :=
  let columns := Vector.ofFn fun j => f (column X j)
  Mat.ofFn fun i j => quadAt columns[j.val] i

/-- `X` with `x` added modulo 2^32 into the word `(i, j)`. -/
def addWord {r c : Nat} (X : Mat r c) (i : Fin r) (j : Fin c) (x : Word) : Mat r c :=
  Mat.ofFn fun i' j' => if i' = i ∧ j' = j then X.word i' j' + x else X.word i' j'

end Sys2Proof.Machine
end

