-- ==== Sys2Proof/Machine/Mixers.lean ====
section
/-! DEFINITION. The units `arx_mixer` and `arx_mixer_inverse`: rotations (00_scope.md R9), the three
rotation sets (40_arx_mixers.md R120), the forward and inverse mix (R121, R122). -/

namespace Sys2Proof.Machine

/-- `rotate_right`; every amount the CORE uses is in 1..31 (R9). -/
def ror (x : Word) (r : Nat) : Word := (x >>> r) ||| (x <<< (32 - r))

/-- Rotation left (R9). -/
def rol (x : Word) (r : Nat) : Word := (x <<< r) ||| (x >>> (32 - r))

/-- The rotation sets: G primary, H secondary, K key-schedule primary mix (R120). -/
inductive MixSet where
  | g
  | h
  | k
  deriving DecidableEq, Repr

/-- The four amounts of a set, `n = 0` being r1 (R120). -/
def rotation (x : MixSet) (n : Fin 4) : Nat :=
  match x, n with
  | .g, 0 => 13
  | .g, 1 => 19
  | .g, 2 => 23
  | .g, 3 => 29
  | .h, 0 => 9
  | .h, 1 => 17
  | .h, 2 => 21
  | .h, 3 => 27
  | .k, 0 => 11
  | .k, 1 => 19
  | .k, 2 => 23
  | .k, 3 => 29

/-- Stages 1 and 3: `a <- a + b ; d <- d ^ a ; d <- ror(d, r)` (R121). -/
def stageA (r : Nat) (q : Quad) : Quad :=
  ⟨q.a + q.b, q.b, q.c, ror (q.d ^^^ (q.a + q.b)) r⟩

/-- Stages 2 and 4: `c <- c + d ; b <- b ^ c ; b <- ror(b, r)` (R121). -/
def stageC (r : Nat) (q : Quad) : Quad :=
  ⟨q.a, ror (q.b ^^^ (q.c + q.d)) r, q.c + q.d, q.d⟩

/-- The forward mix of a set (R121). -/
def mix (x : MixSet) (q : Quad) : Quad :=
  stageC (rotation x 3) (stageA (rotation x 2) (stageC (rotation x 1) (stageA (rotation x 0) q)))

/-- Undoing stages 1 and 3: `d <- rol(d, r) ; d <- d ^ a ; a <- a - b` (R122). -/
def unstageA (r : Nat) (q : Quad) : Quad := ⟨q.a - q.b, q.b, q.c, rol q.d r ^^^ q.a⟩

/-- Undoing stages 2 and 4: `b <- rol(b, r) ; b <- b ^ c ; c <- c - d` (R122). -/
def unstageC (r : Nat) (q : Quad) : Quad := ⟨q.a, rol q.b r ^^^ q.c, q.c - q.d, q.d⟩

/-- The inverse mix of a set (R122). -/
def imix (x : MixSet) (q : Quad) : Quad :=
  unstageA (rotation x 0) (unstageC (rotation x 1) (unstageA (rotation x 2) (unstageC (rotation x 3) q)))

/-- A function of four words with its roles relabelled when `w` is set; each result goes back to the
row it came from (R130). -/
def relabelled (w : Bool) (f : Quad → Quad) (q : Quad) : Quad :=
  if w then relabel (f (relabel q)) else f q

/-- The common template of the six mixer commands: `f` on column `c` of `S` (R130). -/
def mixColumn (f : Quad → Quad) (c : Fin 4) (w : Bool) (X : Block) : Block :=
  setColumn X c (relabelled w f (column X c))

end Sys2Proof.Machine
end

