-- ==== Sys2Proof/Config.lean ====
section
/-! DEFINITION. The open parameters of the CORE (00_scope.md R6, 92_eei_decisions.md D15, D18, D25,
D27). The spec fixes none of them, so each is a constant without a body: nothing in Lean can
evaluate one, and whatever is proved holds for every value the spec allows. -/

namespace Sys2Proof

/-- The parameters with the constraints R6 puts on them. The functions of the machine take them as an
argument, so that a test may use a parameter set of its own (TP0, TP1 of 95_test_vectors.md). -/
structure Params where
  /-- Round constants, 352 words (R30, R31). -/
  romRc : Fin 352 → Word
  /-- Key-schedule initialization constants, 24 words (R30, R32). -/
  romKsi : Fin 24 → Word
  /-- Permutation round constants, 64 words (R30, R33). -/
  romKsp : Fin 64 → Word
  /-- Domain-separation constants, 736 words (R30, R34). -/
  romKsd : Fin 736 → Word
  /-- `KS_CTR_POS`: the four words of KSS that take the counter, as (row, column) (R6, R184). -/
  ctrPos : Fin 4 → Fin 4 × Fin 8
  /-- The four positions are pairwise distinct (R6). -/
  ctrPos_distinct : ∀ m n, ctrPos m = ctrPos n → m = n
  /-- `CTX_TAG`, the validity tag (R6, R25). -/
  ctxTag : Word
  /-- `CTX_TAG` is not zero (R6). -/
  ctxTag_ne_zero : ctxTag ≠ 0

/-- The words of `ROM_RC` (R6: values absent). -/
opaque Config.romRc : Fin 352 → Word

/-- The words of `ROM_KSI` (R6: values absent). -/
opaque Config.romKsi : Fin 24 → Word

/-- The words of `ROM_KSP` (R6: values absent). -/
opaque Config.romKsp : Fin 64 → Word

/-- The words of `ROM_KSD` (R6: values absent). -/
opaque Config.romKsd : Fin 736 → Word

/-- An open choice of four positions of KSS; `Config.ctrPos` is it where it meets R6's constraint. -/
opaque Config.ctrPosOpen : Fin 4 → Fin 4 × Fin 8

/-- An open word; `Config.ctxTag` is it where it meets R6's constraint. -/
opaque Config.ctxTagOpen : Word

/-- The level of the input `cap_usable` when the CORE leaves reset (R37: an input, open). -/
opaque Config.capUsable : Bool

/-- `KS_CTR_POS`: any four pairwise distinct positions. Where the open choice repeats a position, which
R6 excludes, the test vectors' stand-in (0,0), (1,1), (2,2), (3,3) takes its place; so this ranges
over exactly the choices R6 allows. -/
def Config.ctrPos : Fin 4 → Fin 4 × Fin 8 :=
  if ∀ m n, Config.ctrPosOpen m = Config.ctrPosOpen n → m = n then Config.ctrPosOpen
  else fun n => (n, ⟨n.val, by omega⟩)

theorem Config.ctrPos_distinct (m n : Fin 4) (h : Config.ctrPos m = Config.ctrPos n) : m = n := by
  unfold Config.ctrPos at h
  split at h
  · next hd => exact hd m n h
  · exact congrArg Prod.fst h

/-- `CTX_TAG`: any non-zero word. Where the open word is 0, which R6 excludes, the reference model's
value (D25) takes its place; so this ranges over exactly the non-zero words. -/
def Config.ctxTag : Word := if Config.ctxTagOpen = 0 then 0x43485242 else Config.ctxTagOpen

theorem Config.ctxTag_ne_zero : Config.ctxTag ≠ 0 := by
  unfold Config.ctxTag
  split
  · decide
  · assumption

/-- The parameters of this CORE. -/
def Config.params : Params where
  romRc := Config.romRc
  romKsi := Config.romKsi
  romKsp := Config.romKsp
  romKsd := Config.romKsd
  ctrPos := Config.ctrPos
  ctrPos_distinct := Config.ctrPos_distinct
  ctxTag := Config.ctxTag
  ctxTag_ne_zero := Config.ctxTag_ne_zero

end Sys2Proof
end

