-- ==== Sys2Proof/Machine/State.lean ====
section
/-! DEFINITION. The state of the CORE (10_state.md R20), with memory and the host's side of the
interface, the reasons a step can stop, and the state after reset (70_reset_and_hazards.md R330). -/

namespace Sys2Proof.Machine

/-- The reasons a step can fault. There is none: the CORE raises no exception (60_exceptions.md R290)
and no access faults (20_memory.md R61, R62); a failure is a value in STATUS and a next state. -/
inductive Fault where
  deriving DecidableEq, Repr

/-- The reasons a step has no meaning. -/
inductive Refusal where
  /-- Raised by exec's arm of an instruction that has no meaning yet. Safe: nothing is claimed of it. -/
  | notModelled (mnemonic : String)
  /-- Raised by BENC and BDEC when every check has passed and the input and output ranges overlap
  partially: the spec asks the model to give such a launch no meaning (20_memory.md R70,
  93_implementation_defined.md U4). Safe: nothing is claimed of it. -/
  | partialOverlap
  deriving DecidableEq, Repr

/-- Memory: the bytes that differ from `Memory.unlisted`, by rising address (R60). -/
abbrev Memory := List Host.Cell

/-- What an address that is not listed reads as. DESIGN CHOICE, unsafe: the spec says that no read
faults (R61) and leaves the host's memory open; see log entry 3. -/
def Memory.unlisted : Byte := 0

/-- The one canonical form: addresses strictly rising and below 2^32 (R60), no entry equal to what an
unlisted address reads as. -/
abbrev Memory.wf (m : Memory) : Prop :=
  List.Pairwise (fun x y => x.1 < y.1) m ∧ ∀ c ∈ m, c.1 < 2 ^ 32 ∧ c.2 ≠ Memory.unlisted

/-- Everything the spec gives the CORE (R20), then memory (R60), then the host's side: the commands it
has issued and the level of the input `cap_usable`. -/
structure State where
  /-- `S`, the scalar state register (R21). -/
  sReg : Block
  /-- `SK`, the subkey schedule (R22). -/
  sk : Schedule
  /-- `KSS`, the key-schedule state (R23). -/
  kss : Mat 4 8
  /-- `V`, the wide register file (R24). -/
  v : WideFile
  /-- `BK`, the broadcast subkeys of the context (R25). -/
  bk : Vector WideFile 24
  /-- `BRC`, the broadcast round constants of the context; round r stands at r - 1 (R25). -/
  brc : Vector WideFile 22
  /-- `CK`, the context's copy of the subkey schedule (R25). -/
  ck : Schedule
  /-- `TAG`, the context's validity tag (R25). -/
  tag : Word
  /-- `SRC`, the input address (R26). -/
  src : Addr
  /-- `DST`, the output address (R26). -/
  dst : Addr
  /-- `CNT`, the block count (R26). -/
  cnt : Word
  /-- `STATUS.RES`, the result code (R28). -/
  res : BitVec 3
  /-- `STATUS.ERRSEEN` (R28). -/
  errSeen : Bool
  /-- `CAPS.CAPQ`, the cached capability answer (R29). -/
  capQ : Bool
  /-- `CAPS.CAPV`, the answer has been sampled (R29). -/
  capV : Bool
  /-- The number of commands executed since reset (R27). -/
  pc : Nat
  /-- The host's memory (R60). -/
  mem : Memory
  /-- The command words the host has issued and the CORE has not executed, the next one first: the rest
  of the host's command list (R27). DESIGN CHOICE, see log entry 1. -/
  pending : List Cmd
  /-- The present level of the input `cap_usable` (R37), which the host drives. See log entry 7. -/
  capUsable : Bool
  deriving DecidableEq, Repr

/-- The state after reset: every piece of state of R20 is zero (R330). Memory lists nothing (log entry
3), the host has issued nothing (log entry 1), and `cap_usable` is open (log entry 7). -/
def State.reset : State where
  sReg := Mat.zero
  sk := Vector.replicate 24 Mat.zero
  kss := Mat.zero
  v := Mat.zero
  bk := Vector.replicate 24 Mat.zero
  brc := Vector.replicate 22 Mat.zero
  ck := Vector.replicate 24 Mat.zero
  tag := 0
  src := 0
  dst := 0
  cnt := 0
  res := 0
  errSeen := false
  capQ := false
  capV := false
  pc := 0
  mem := []
  pending := []
  capUsable := Config.capUsable

end Sys2Proof.Machine
end

