-- ==== Sys2Proof/Machine/Ops.lean ====
section
/-! DEFINITION. The operations the commands share: memory (20_memory.md R60 to R63, R67), the two ways
a command ends (60_exceptions.md R291, R292), handing over the next command word, and the host's own
moves between commands (10_state.md R36, R37; 70_reset_and_hazards.md R330, R331). -/

namespace Sys2Proof.Machine

/-! ### Memory -/

/-- The byte at an address given as a number; the search ends where the listed addresses pass it. -/
def Memory.read : Memory → Nat → Byte
  | [], _ => Memory.unlisted
  | (a', b') :: m, a => if a < a' then Memory.unlisted else if a = a' then b' else Memory.read m a

/-- Memory with the byte at an address replaced; an entry that would equal what an unlisted address
reads as is left out, so the form stays canonical. (What follows a removed entry is cut down to the
addresses above it, which changes nothing in the canonical form and makes reading after writing right
on every list.) -/
def Memory.write : Memory → Nat → Byte → Memory
  | [], a, b => if b = Memory.unlisted then [] else [(a, b)]
  | (a', b') :: m, a, b =>
    if a < a' then (if b = Memory.unlisted then (a', b') :: m else (a, b) :: (a', b') :: m)
    else if a = a' then (if b = Memory.unlisted then m.dropWhile (fun c => c.1 ≤ a) else (a, b) :: m)
    else (a', b') :: Memory.write m a b

/-- `mem[a]` (R60, R61). -/
def Memory.byteAt (m : Memory) (a : Addr) : Byte := m.read a.toNat

/-- `MemRead(a, n)`: n bytes from `a` up, addresses modulo 2^32 (R61). -/
def Memory.readBytes (m : Memory) (a : Addr) (n : Nat) : List Byte :=
  (List.range n).map fun k => m.byteAt (a + BitVec.ofNat 32 k)

/-- `MemWrite(a, n, bytes)`: in increasing address order, addresses modulo 2^32 (R62). -/
def Memory.writeBytes (m : Memory) (a : Addr) : List Byte → Memory
  | [] => m
  | b :: bs => Memory.writeBytes (m.write a.toNat b) (a + 1) bs

/-- `LE32`: the byte at the lowest address is bits 7:0 (R12, R63). -/
def le32 (b0 b1 b2 b3 : Byte) : Word := b3 ++ (b2 ++ (b1 ++ b0))

/-- Byte `k` of a word, byte 0 being bits 7:0 (R12). -/
def wordByte (w : Word) (k : Nat) : Byte := w.extractLsb' (8 * k) 8

/-- `BYTES4` (R12). -/
def bytes4 (w : Word) : List Byte := [wordByte w 0, wordByte w 1, wordByte w 2, wordByte w 3]

/-- `MemRead32(a)` (R13). -/
def Memory.readWord (m : Memory) (a : Addr) : Word :=
  le32 (m.byteAt a) (m.byteAt (a + 1)) (m.byteAt (a + 2)) (m.byteAt (a + 3))

/-- `MemWrite32(a, w)` (R13). -/
def Memory.writeWord (m : Memory) (a : Addr) (w : Word) : Memory := m.writeBytes a (bytes4 w)

/-! ### Memory images (R67) -/

/-- The matrix whose words stand at `a`, row-major and consecutive: a block (`LoadBlock`), a master key
(one row of 8) or the raw wide registers of 8 blocks (R13, R67, R213). -/
def loadMat (r c : Nat) (m : Memory) (a : Addr) : Mat r c :=
  Mat.ofFn fun i j => m.readWord (a + BitVec.ofNat 32 (4 * (c * i.val + j.val)))

/-- The image of a matrix: byte `n` is byte `n mod 4` of word number `n div 4`, row-major (R67). -/
@[irreducible] def matBytes {r c : Nat} (X : Mat r c) : List Byte :=
  List.ofFn (n := 4 * (r * c)) fun n =>
    have hc : 0 < c := Nat.pos_of_ne_zero fun h => by subst h; exact absurd n.isLt (by simp)
    wordByte (X.word
      ⟨n.val / 4 / c, (Nat.div_lt_iff_lt_mul hc).2 (Nat.div_lt_of_lt_mul n.isLt)⟩
      ⟨n.val / 4 % c, Nat.mod_lt _ hc⟩) (n.val % 4)

/-- `LoadBlock(a)` (R13). -/
def loadBlock (m : Memory) (a : Addr) : Block := loadMat 4 4 m a

/-- `StoreBlock(a, X)` (R13); on the wide registers the 512-byte store of R219. -/
def storeMat {r c : Nat} (m : Memory) (a : Addr) (X : Mat r c) : Memory := m.writeBytes a (matBytes X)

/-- The subkey image at `a`: subkey k is the block at `a + 64*k` (R67, R188). -/
@[irreducible] def loadSchedule (m : Memory) (a : Addr) : Schedule :=
  Vector.ofFn fun k => loadBlock m (a + BitVec.ofNat 32 (64 * k.val))

/-- The subkey image written at `a`, subkey 0 first (R67, R189). -/
def storeSchedule (m : Memory) (a : Addr) (ks : Schedule) : Memory :=
  (List.finRange 24).foldl (fun m' k => storeMat m' (a + BitVec.ofNat 32 (64 * k.val)) ks[k.val]) m

/-! ### How a command ends -/

/-- The failures other than OK (R293). -/
inductive Failure where
  /-- class (a): null address or zero count -/
  | precond
  /-- class (b): the capability answer is "unusable" -/
  | nocap
  /-- class (c): the context's tag is not `CTX_TAG` -/
  | ctx
  /-- the word is not a legal encoding -/
  | illegal
  deriving DecidableEq, Repr

/-- The code a failure puts into STATUS.RES (R28, R293). -/
def failureCode (f : Failure) : BitVec 3 :=
  match f with
  | .precond => 1
  | .nocap => 2
  | .ctx => 3
  | .illegal => 4

/-- Success: RES is OK, ERRSEEN keeps its value, pc advances (R291). -/
def State.succeed (s : State) : State := { s with res := 0, pc := s.pc + 1 }

/-- Failure: the CORE's only exception. RES takes the code, ERRSEEN is set, pc advances, and nothing
else changes; nothing is saved, so there is no return from it (R292, R301, R302). -/
def State.fail (s : State) (f : Failure) : State :=
  { s with res := failureCode f, errSeen := true, pc := s.pc + 1 }

/-- A command's effect when its checks pass, and its failure when one does not: every check is made
before the first effect (R238, R292). -/
def State.unlessFails (s : State) (check : Option Failure) (effect : State) : State :=
  match check with
  | some f => s.fail f
  | none => effect.succeed

/-! ### The next command word -/

/-- The next word the host has issued, and the state that has taken it over (R7, R27, R64); none when
the host's list is exhausted. -/
def fetch (s : State) : Option (Cmd × State) :=
  match s.pending with
  | [] => none
  | w :: ws => some (w, { s with pending := ws })

/-! ### The host's moves between commands (log entry 10) -/

/-- The host issues a further command word (R7). -/
def State.hostIssue (s : State) (w : Cmd) : State := { s with pending := s.pending ++ [w] }

/-- The host writes its memory (R60, R74). -/
def State.hostWrite (s : State) (a : Addr) (bs : List Byte) : State := { s with mem := s.mem.writeBytes a bs }

/-- The host reads its memory (R60, R74). -/
def State.hostRead (s : State) (a : Addr) (n : Nat) : List Byte := s.mem.readBytes a n

/-- The input `cap_usable` takes a level (R37). -/
def State.hostSetCap (s : State) (b : Bool) : State := { s with capUsable := b }

/-- Reset of a running CORE: every piece of its state is zero, memory and the input are untouched
(R330, R331), and the host starts a new list. -/
def State.resetCore (s : State) : State := { State.reset with mem := s.mem, capUsable := s.capUsable }

end Sys2Proof.Machine
end

