-- ==== Sys2Proof/Machine/Operands.lean ====
section
/-! DEFINITION. Operand forms: the small operands with their ranges (30_encoding.md R93), the ROM word
ROMRD names (44_operands_and_housekeeping.md R274), the checks of the vector family
(43_vector_batch.md R238), and the overlap of a batch's ranges (20_memory.md R70). -/

namespace Sys2Proof.Machine

/-- A round number 1..22, as r - 1; none outside the range (R93). -/
def roundOf (r : BitVec 8) : Option (Fin 22) :=
  if h : 1 ≤ r.toNat ∧ r.toNat ≤ 22 then some ⟨r.toNat - 1, by omega⟩ else none

/-- A subkey number 0..23 (R93). -/
def subkeyOf (k : BitVec 8) : Option (Fin 24) :=
  if h : k.toNat < 24 then some ⟨k.toNat, h⟩ else none

/-- A column 0..3 (R93). -/
def columnOf (c : BitVec 8) : Option (Fin 4) :=
  if h : c.toNat < 4 then some ⟨c.toNat, h⟩ else none

/-- The relabel flag 0..1 (R93). -/
def relabelOf (w : BitVec 8) : Option Bool :=
  if w.toNat = 0 then some false else if w.toNat = 1 then some true else none

/-- An internal round 0..15 (R93). -/
def internalRoundOf (j : BitVec 8) : Option (Fin 16) :=
  if h : j.toNat < 16 then some ⟨j.toNat, h⟩ else none

/-- A squeeze step 0..23 (R93). -/
def squeezeStepOf (i : BitVec 8) : Option (Fin 24) :=
  if h : i.toNat < 24 then some ⟨i.toNat, h⟩ else none

/-- Word `imm` of ROM table `t`: 0 `ROM_RC`, 1 `ROM_KSI`, 2 `ROM_KSP`, 3 `ROM_KSD`; none when the table
or the index does not exist (R30, R93, R274). -/
def romWord (P : Params) (t : BitVec 8) (imm : Word) : Option Word :=
  match t.toNat with
  | 0 => if h : imm.toNat < 352 then some (P.romRc ⟨imm.toNat, h⟩) else none
  | 1 => if h : imm.toNat < 24 then some (P.romKsi ⟨imm.toNat, h⟩) else none
  | 2 => if h : imm.toNat < 64 then some (P.romKsp ⟨imm.toNat, h⟩) else none
  | 3 => if h : imm.toNat < 736 then some (P.romKsd ⟨imm.toNat, h⟩) else none
  | _ => none

/-- A command whose operand is `o`: the effect for its value, or E_ILLEGAL when it has none (R96). -/
def State.withOperand {α : Type} (s : State) (o : Option α) (effect : α → State) : State :=
  match o with
  | none => s.fail .illegal
  | some x => (effect x).succeed

/-- What a vector command uses of the operand registers (R238). -/
structure Uses where
  src : Bool := false
  dst : Bool := false
  cnt : Bool := false
  deriving DecidableEq, Repr

/-- The null-address and zero-count checks (R238 step 2, R294, R295). -/
def nullOperand (u : Uses) (s : State) : Bool :=
  (u.src && decide (s.src = 0)) || (u.dst && decide (s.dst = 0)) || (u.cnt && decide (s.cnt = 0))

/-- The common checks of the eighteen commands 0x42 to 0x53 after decoding, in their order (R238,
R300): the context's tag is looked at last and compared with the build's (R298). -/
def vectorCheck (tag : Word) (u : Uses) (s : State) : Option Failure :=
  if nullOperand u s then some .precond
  else if s.tag ≠ tag then some .ctx
  else none

/-- A vector command without a small operand: checks, then effect (R238). -/
def State.vectorOp (s : State) (u : Uses) (effect : State) : State :=
  s.unlessFails (vectorCheck Config.params.ctxTag u s) effect

/-- A vector command with a small operand, whose range is checked first (R238, R300). -/
def State.vectorOpWith {α : Type} (s : State) (o : Option α) (effect : α → State) : State :=
  match o with
  | none => s.fail .illegal
  | some x => s.vectorOp {} (effect x)

/-- The ranges of `n` bytes from `src` and from `dst` up, modulo 2^32, share a byte without starting at
the same address (R70). Going up from `src` the first byte of `dst` is met after `dst - src` bytes,
going up from `dst` the first byte of `src` after `src - dst`. -/
def partialOverlap (src dst : Addr) (n : Nat) : Bool :=
  decide (src ≠ dst ∧ ((dst - src).toNat < n ∨ (src - dst).toNat < n))

end Sys2Proof.Machine
end

