-- ==== Sys2Proof/Machine/ArxMixers.lean ====
section
/-! DEFINITION. The six mixer commands (40_arx_mixers.md R124 to R130). -/

namespace Sys2Proof.Machine

/-- Both operands of a mixer command, column and relabel flag, when both are legal (R130). -/
def mixOperands (c w : BitVec 8) : Option (Fin 4 × Bool) :=
  match columnOf c, relabelOf w with
  | some j, some b => some (j, b)
  | _, _ => none

/-- The template of the six mixer commands (R130). -/
def mixCommand (f : Quad → Quad) (c w : BitVec 8) (s : State) : State :=
  s.withOperand (mixOperands c w) fun p => { s with sReg := mixColumn f p.1 p.2 s.sReg }

/-- MIXG c, w (R124). -/
def execMixg (c w : BitVec 8) (s : State) : Host.Outcome State Fault Refusal :=
  .next (mixCommand (mix .g) c w s)

/-- MIXH c, w (R125). -/
def execMixh (c w : BitVec 8) (s : State) : Host.Outcome State Fault Refusal :=
  .next (mixCommand (mix .h) c w s)

/-- MIXK c, w (R126). -/
def execMixk (c w : BitVec 8) (s : State) : Host.Outcome State Fault Refusal :=
  .next (mixCommand (mix .k) c w s)

/-- IMIXG c, w (R127). -/
def execImixg (c w : BitVec 8) (s : State) : Host.Outcome State Fault Refusal :=
  .next (mixCommand (imix .g) c w s)

/-- IMIXH c, w (R128). -/
def execImixh (c w : BitVec 8) (s : State) : Host.Outcome State Fault Refusal :=
  .next (mixCommand (imix .h) c w s)

/-- IMIXK c, w (R129). -/
def execImixk (c w : BitVec 8) (s : State) : Host.Outcome State Fault Refusal :=
  .next (mixCommand (imix .k) c w s)

end Sys2Proof.Machine
end

