-- ==== Sys2Proof/Machine/Rounds.lean ====
section
/-! DEFINITION. The scalar round functions: units `sbox_lut`, `column_mixer`, `row_rotator`,
`round_key_injector`, `scalar_block_cipher_engine` (41_scalar_round.md R140 to R150). A round number
r in 1..22 is held as r - 1. -/

namespace Sys2Proof.Machine

/-- Column mix of one column: primary, secondary, then secondary and primary relabelled (R141). -/
def colMix1 (q : Quad) : Quad :=
  relabelled true (mix .g) (relabelled true (mix .h) (mix .h (mix .g q)))

/-- Inverse column mix of one column (R142). -/
def iColMix1 (q : Quad) : Quad :=
  imix .g (imix .h (relabelled true (imix .h) (relabelled true (imix .g) q)))

/-- Column mix (R141). -/
def columnMix (X : Block) : Block := mapColumns colMix1 X

/-- Inverse column mix (R142). -/
def invColumnMix (X : Block) : Block := mapColumns iColMix1 X

/-- Row `i` rotated left by `i` (R143). -/
def shiftRows (X : Block) : Block := Mat.ofFn fun i j => X.word i ⟨(j.val + i.val) % 4, by omega⟩

/-- Row `i` rotated right by `i` (R144). -/
def invShiftRows (X : Block) : Block := Mat.ofFn fun i j => X.word i ⟨(j.val + 4 - i.val) % 4, by omega⟩

/-- `RCM(r)`: the chunk of `ROM_RC` for round r, held as r - 1 (R31). -/
def roundChunk (P : Params) (r : Fin 22) : Block :=
  Mat.ofFn fun i j => P.romRc ⟨16 * r.val + 4 * i.val + j.val, by omega⟩

/-- Sub constants: XOR with the round's chunk (R145). -/
def subConstants (P : Params) (r : Fin 22) (X : Block) : Block := matXor X (roundChunk P r)

/-- The number of round r's subkey: r itself (R147). -/
def roundSubkey (r : Fin 22) : Fin 24 := ⟨r.val + 1, by omega⟩

/-- Add round key: XOR with subkey `k` of a schedule (R147, R155). -/
def addRoundKey (ks : Schedule) (k : Fin 24) (X : Block) : Block := matXor X ks[k.val]

/-- Forward round (R147). -/
def fwdRound (P : Params) (ks : Schedule) (r : Fin 22) (X : Block) : Block :=
  addRoundKey ks (roundSubkey r) (shiftRows (columnMix (subConstants P r X)))

/-- Inverse round (R148). -/
def invRound (P : Params) (ks : Schedule) (r : Fin 22) (X : Block) : Block :=
  subConstants P r (invColumnMix (invShiftRows (addRoundKey ks (roundSubkey r) X)))

/-- The 22 rounds in increasing order. -/
def roundsUp {α : Type} (f : Fin 22 → α → α) (x : α) : α := (List.finRange 22).foldl (fun y r => f r y) x

/-- The 22 rounds in decreasing order. -/
def roundsDown {α : Type} (f : Fin 22 → α → α) (x : α) : α := (List.finRange 22).foldr f x

/-- Encrypt one block (R149). -/
def encrypt (P : Params) (ks : Schedule) (X : Block) : Block :=
  addRoundKey ks 23 (roundsUp (fwdRound P ks) (addRoundKey ks 0 X))

/-- Decrypt one block (R150). -/
def decrypt (P : Params) (ks : Schedule) (X : Block) : Block :=
  addRoundKey ks 0 (roundsDown (invRound P ks) (addRoundKey ks 23 X))

end Sys2Proof.Machine
end

