-- ==== Sys2Proof/Machine/Wide.lean ====
section
/-! DEFINITION. The units `in_register_transpose_unit` and `vectorized_batch_engine_8way`: lane
matrices (43_vector_batch.md R210), the interleave network (R214, R215), the transposes (R216, R217)
and the round functions on the wide register file (R222 to R231). -/

namespace Sys2Proof.Machine

/-- A wide register as its 256 bits: lane `l` is bits `32*l+31 : 32*l` (R24). -/
def wideBits (x : Wide) : BitVec 256 :=
  x[7] ++ (x[6] ++ (x[5] ++ (x[4] ++ (x[3] ++ (x[2] ++ (x[1] ++ x[0]))))))

/-- `LaneM(l)`, and likewise `BKM`, `BRCM`: the 4x4 matrix lane `l` holds (R210). -/
def laneM (V : WideFile) (l : Fin 8) : Block := Mat.ofFn fun i j => V.word (wordNo i j) l

/-- `for every lane l, LaneM(l) <- f l (LaneM(l))` (R210). -/
def mapLanes (f : Fin 8 → Block → Block) (V : WideFile) : WideFile :=
  let lanes := Vector.ofFn fun l => f l (laneM V l)
  Mat.ofFn fun n l => blockWord lanes[l.val] n

/-- A block in every lane: each word replicated across the 8 lanes (R25, R211). -/
def broadcast (X : Block) : WideFile := Mat.ofFn fun n _ => blockWord X n

/-- `ILV32LO` (R214). -/
def ilv32lo (x y : Wide) : Wide := #v[x[0], y[0], x[1], y[1], x[4], y[4], x[5], y[5]]

/-- `ILV32HI` (R214). -/
def ilv32hi (x y : Wide) : Wide := #v[x[2], y[2], x[3], y[3], x[6], y[6], x[7], y[7]]

/-- `ILV64LO` (R214). -/
def ilv64lo (x y : Wide) : Wide := #v[x[0], x[1], y[0], y[1], x[4], x[5], y[4], y[5]]

/-- `ILV64HI` (R214). -/
def ilv64hi (x y : Wide) : Wide := #v[x[2], x[3], y[2], y[3], x[6], x[7], y[6], y[7]]

/-- `ILV128LO` (R214). -/
def ilv128lo (x y : Wide) : Wide := #v[x[0], x[1], x[2], x[3], y[0], y[1], y[2], y[3]]

/-- `ILV128HI` (R214). -/
def ilv128hi (x y : Wide) : Wide := #v[x[4], x[5], x[6], x[7], y[4], y[5], y[6], y[7]]

/-- Level 1 of the network: 32-bit lanes (R215). -/
def network1 (A : Vector Wide 8) : Vector Wide 8 :=
  #v[ilv32lo A[0] A[1], ilv32hi A[0] A[1], ilv32lo A[2] A[3], ilv32hi A[2] A[3],
     ilv32lo A[4] A[5], ilv32hi A[4] A[5], ilv32lo A[6] A[7], ilv32hi A[6] A[7]]

/-- Level 2 of the network: 64-bit pairs (R215). -/
def network2 (t : Vector Wide 8) : Vector Wide 8 :=
  #v[ilv64lo t[0] t[2], ilv64hi t[0] t[2], ilv64lo t[1] t[3], ilv64hi t[1] t[3],
     ilv64lo t[4] t[6], ilv64hi t[4] t[6], ilv64lo t[5] t[7], ilv64hi t[5] t[7]]

/-- Level 3 of the network: 128-bit halves (R215). -/
def network3 (u : Vector Wide 8) : Vector Wide 8 :=
  #v[ilv128lo u[0] u[4], ilv128lo u[1] u[5], ilv128lo u[2] u[6], ilv128lo u[3] u[7],
     ilv128hi u[0] u[4], ilv128hi u[1] u[5], ilv128hi u[2] u[6], ilv128hi u[3] u[7]]

/-- The 8x8 network `XP8` (R215). -/
def xp8 (A : Vector Wide 8) : Vector Wide 8 := network3 (network2 (network1 A))

/-- Raw layout to transposed layout: the network once on the first-half registers and once on the
second-half registers, all old registers read first (R216). -/
def transpose (V : WideFile) : WideFile :=
  let t0 := xp8 #v[V.rows[0], V.rows[2], V.rows[4], V.rows[6], V.rows[8], V.rows[10], V.rows[12], V.rows[14]]
  let t1 := xp8 #v[V.rows[1], V.rows[3], V.rows[5], V.rows[7], V.rows[9], V.rows[11], V.rows[13], V.rows[15]]
  ⟨#v[t0[0], t0[1], t0[2], t0[3], t0[4], t0[5], t0[6], t0[7],
      t1[0], t1[1], t1[2], t1[3], t1[4], t1[5], t1[6], t1[7]]⟩

/-- Transposed layout to raw layout (R217). -/
def untranspose (V : WideFile) : WideFile :=
  let a0 := xp8 #v[V.rows[0], V.rows[1], V.rows[2], V.rows[3], V.rows[4], V.rows[5], V.rows[6], V.rows[7]]
  let a1 := xp8 #v[V.rows[8], V.rows[9], V.rows[10], V.rows[11], V.rows[12], V.rows[13], V.rows[14], V.rows[15]]
  ⟨#v[a0[0], a1[0], a0[1], a1[1], a0[2], a1[2], a0[3], a1[3],
      a0[4], a1[4], a0[5], a1[5], a0[6], a1[6], a0[7], a1[7]]⟩

/-- The wide sub constants of round r, held as r - 1: `V[n] <- V[n] ^ BRC[r][n]` (R222). -/
def wideSubConstants (brc : Vector WideFile 22) (r : Fin 22) (V : WideFile) : WideFile := matXor V brc[r.val]

/-- The wide add round key: `V[n] <- V[n] ^ BK[k][n]` (R227). -/
def wideAddRoundKey (bk : Vector WideFile 24) (k : Fin 24) (V : WideFile) : WideFile := matXor V bk[k.val]

/-- Column mix in every lane (R223). -/
def wideColumnMix (V : WideFile) : WideFile := mapLanes (fun _ => columnMix) V

/-- Inverse column mix in every lane (R224). -/
def wideInvColumnMix (V : WideFile) : WideFile := mapLanes (fun _ => invColumnMix) V

/-- Shift rows in every lane: a reassignment of registers (R225). -/
def wideShiftRows (V : WideFile) : WideFile := mapLanes (fun _ => shiftRows) V

/-- Inverse shift rows in every lane (R226). -/
def wideInvShiftRows (V : WideFile) : WideFile := mapLanes (fun _ => invShiftRows) V

/-- The wide forward round: `ShiftRows(ColumnMix(LaneM(l) ^ BRCM(r, l))) ^ BKM(r, l)` (R228). -/
def wideFwdRound (bk : Vector WideFile 24) (brc : Vector WideFile 22) (r : Fin 22) (V : WideFile) : WideFile :=
  mapLanes (fun l X => matXor (shiftRows (columnMix (matXor X (laneM brc[r.val] l))))
    (laneM bk[(roundSubkey r).val] l)) V

/-- The wide inverse round: `InvColumnMix(InvShiftRows(LaneM(l) ^ BKM(r, l))) ^ BRCM(r, l)` (R229). -/
def wideInvRound (bk : Vector WideFile 24) (brc : Vector WideFile 22) (r : Fin 22) (V : WideFile) : WideFile :=
  mapLanes (fun l X => matXor (invColumnMix (invShiftRows (matXor X (laneM bk[(roundSubkey r).val] l))))
    (laneM brc[r.val] l)) V

/-- Encryption of the eight lanes (R230). -/
def wideEncrypt (bk : Vector WideFile 24) (brc : Vector WideFile 22) (V : WideFile) : WideFile :=
  wideAddRoundKey bk 23 (roundsUp (wideFwdRound bk brc) (wideAddRoundKey bk 0 V))

/-- Decryption of the eight lanes (R231). -/
def wideDecrypt (bk : Vector WideFile 24) (brc : Vector WideFile 22) (V : WideFile) : WideFile :=
  wideAddRoundKey bk 0 (roundsDown (wideInvRound bk brc) (wideAddRoundKey bk 23 V))

end Sys2Proof.Machine
end

