-- ==== Sys2Proof/Machine/Batch.lean ====
section
/-! DEFINITION. The batch commands (43_vector_batch.md R232 to R234). -/

namespace Sys2Proof.Machine

/-- `dir` of the batch procedure (R233). -/
inductive Direction where
  | encrypt
  | decrypt
  deriving DecidableEq, Repr

/-- The cipher on the eight lanes, with the broadcast copies of the context (R233). -/
def wideCipher (d : Direction) (bk : Vector WideFile 24) (brc : Vector WideFile 22) (V : WideFile) : WideFile :=
  match d with
  | .encrypt => wideEncrypt bk brc V
  | .decrypt => wideDecrypt bk brc V

/-- The cipher on one block (R233). -/
def blockCipher (P : Params) (d : Direction) (ks : Schedule) (X : Block) : Block :=
  match d with
  | .encrypt => encrypt P ks X
  | .decrypt => decrypt P ks X

/-- Full group `g`: load, transpose, cipher, transpose back, store (R233). -/
def batchGroup (d : Direction) (g : Nat) (s : State) : State :=
  let raw := loadMat 16 8 s.mem (s.src + BitVec.ofNat 32 (512 * g))
  let out := untranspose (wideCipher d s.bk s.brc (transpose raw))
  { s with v := out, mem := storeMat s.mem (s.dst + BitVec.ofNat 32 (512 * g)) out }

/-- The first `n` full groups, in increasing address order (R69, R233). -/
def batchGroups (d : Direction) : Nat → State → State
  | 0, s => s
  | n + 1, s => batchGroup d n (batchGroups d n s)

/-- Tail block `t` after `g` full groups: the scalar engine with the cached schedule CK, through S
(R233). -/
def batchTailBlock (P : Params) (d : Direction) (g t : Nat) (s : State) : State :=
  let x := blockCipher P d s.ck (loadBlock s.mem (s.src + BitVec.ofNat 32 (512 * g + 64 * t)))
  { s with sReg := x, mem := storeMat s.mem (s.dst + BitVec.ofNat 32 (512 * g + 64 * t)) x }

/-- The first `n` tail blocks, one at a time (R69, R233). -/
def batchTail (P : Params) (d : Direction) (g : Nat) : Nat → State → State
  | 0, s => s
  | n + 1, s => batchTailBlock P d g n (batchTail P d g n s)

/-- The batch procedure: `CNT div 8` groups, then `CNT mod 8` tail blocks (R233). DEDUCED: it stands as it is
for batches longer than memory too, where R235 could not hold (log entry 16). -/
def batch (P : Params) (d : Direction) (s : State) : State :=
  batchTail P d (s.cnt.toNat / 8) (s.cnt.toNat % 8) (batchGroups d (s.cnt.toNat / 8) s)

/-- A batch command: the checks of R238, then no meaning when the ranges overlap partially (R70, log
entry 8), then the procedure. -/
def batchCommand (d : Direction) (s : State) : Host.Outcome State Fault Refusal :=
  match vectorCheck Config.params.ctxTag { src := true, dst := true, cnt := true } s with
  | some f => .next (s.fail f)
  | none =>
    if partialOverlap s.src s.dst (64 * s.cnt.toNat) then .refused .partialOverlap
    else .next (batch Config.params d s).succeed

/-- BENC (R232). -/
def execBenc (s : State) : Host.Outcome State Fault Refusal :=
  batchCommand .encrypt s

/-- BDEC (R234). -/
def execBdec (s : State) : Host.Outcome State Fault Refusal :=
  batchCommand .decrypt s

end Sys2Proof.Machine
end

