-- ==== Sys2Proof/Machine/Context.lean ====
section
/-! DEFINITION. The context life cycle: CTXINIT and CTXCLR (43_vector_batch.md R211, R212). -/

namespace Sys2Proof.Machine

/-- The capability answer: sampled from `cap_usable` when none is cached (R29, R211). -/
def latchCapability (s : State) : State :=
  if s.capV then s else { s with capQ := s.capUsable, capV := true }

/-- BK: every subkey of a schedule in every lane (R25, R211). -/
@[irreducible] def broadcastKeys (ks : Schedule) : Vector WideFile 24 := Vector.ofFn fun k => broadcast ks[k.val]

/-- BRC: the round constants in every lane, those of round r at r - 1 (R25, R211). -/
@[irreducible] def broadcastConstants (P : Params) : Vector WideFile 22 :=
  Vector.ofFn fun r => broadcast (roundChunk P r)

/-- The context built from SK and `ROM_RC`, with the tag of this build (R211). -/
def buildContext (P : Params) (s : State) : State :=
  { s with
    bk := broadcastKeys s.sk
    brc := broadcastConstants P
    ck := s.sk
    tag := P.ctxTag }

/-- The wide registers, the context and its tag set to zero (R212). -/
def clearContext (s : State) : State :=
  { s with
    v := Mat.zero
    bk := Vector.replicate 24 Mat.zero
    brc := Vector.replicate 22 Mat.zero
    ck := Vector.replicate 24 Mat.zero
    tag := 0 }

/-- CTXINIT: the capability answer is sampled by the first one after reset and latched even when the
command fails with it (R211, R292, R297). -/
def execCtxinit (s : State) : Host.Outcome State Fault Refusal :=
  .next (
    let latched := latchCapability s
    latched.unlessFails (if latched.capQ then none else some .nocap) (buildContext Config.params latched))

/-- CTXCLR: the wide registers, the context and its tag are zero; it never fails (R212). -/
def execCtxclr (s : State) : Host.Outcome State Fault Refusal :=
  .next (clearContext s).succeed

end Sys2Proof.Machine
end

