-- ==== Sys2Proof/Machine/Housekeeping.lean ====
section
/-! DEFINITION. NOP, the operand registers and the ROM read-out (44_operands_and_housekeeping.md R270
to R274). -/

namespace Sys2Proof.Machine

/-- NOP (R270). -/
def execNop (s : State) : Host.Outcome State Fault Refusal := .next s.succeed

/-- SETSRC imm: every value is legal, 0 included (R271). -/
def execSetsrc (imm : Word) (s : State) : Host.Outcome State Fault Refusal :=
  .next ({ s with src := imm } : State).succeed

/-- SETDST imm (R272). -/
def execSetdst (imm : Word) (s : State) : Host.Outcome State Fault Refusal :=
  .next ({ s with dst := imm } : State).succeed

/-- SETCNT imm (R273). -/
def execSetcnt (imm : Word) (s : State) : Host.Outcome State Fault Refusal :=
  .next ({ s with cnt := imm } : State).succeed

/-- ROMRD t, imm: the ROM word into the 4 bytes at DST, where 0 is an ordinary address (R274). -/
def execRomrd (t : BitVec 8) (imm : Word) (s : State) : Host.Outcome State Fault Refusal :=
  .next (s.withOperand (romWord Config.params t imm) fun x => { s with mem := s.mem.writeWord s.dst x })

end Sys2Proof.Machine
end

