-- ==== Sys2Proof/Machine/Sponge.lean ====
section
/-! DEFINITION. The unit `key_schedule_sponge`: the steps of the key schedule as functions of the
key-schedule state KSS (42_key_schedule.md R180 to R185). -/

namespace Sys2Proof.Machine

/-- Column `(i + n) mod 8` (R182). -/
def wrap8 (i n : Nat) : Fin 8 := ⟨(i + n) % 8, Nat.mod_lt _ (by decide)⟩

/-- Init: row 0 is the master key, rows 1 to 3 are `ROM_KSI`, row-major (R181, R32). -/
def sponge0 (P : Params) (key : Mat 1 8) : Mat 4 8 :=
  Mat.ofFn fun i j =>
    if h : i.val = 0 then key.word 0 j else P.romKsi ⟨8 * (i.val - 1) + j.val, by omega⟩

/-- Step (1) of internal round `n`: its four constants into the diagonal elements (R182, R33). -/
def injectConstants (P : Params) (n : Fin 16) (X : Mat 4 8) : Mat 4 8 :=
  Mat.ofFn fun i j =>
    if j.val = i.val then X.word i j + P.romKsp ⟨4 * n.val + i.val, by omega⟩ else X.word i j

/-- Step (2): K on each of the eight columns (R182). -/
def mixColumnsK (X : Mat 4 8) : Mat 4 8 := mapColumns (mix .k) X

/-- The words of row `i` at columns `i + g, i + g + 1, i + g + 2, i + g + 3` modulo 8 (R182). -/
def rowGroup (X : Mat 4 8) (i : Fin 4) (g : Nat) : Quad :=
  ⟨X.word i (wrap8 i g), X.word i (wrap8 i (g + 1)), X.word i (wrap8 i (g + 2)), X.word i (wrap8 i (g + 3))⟩

/-- Step (3): K on the two groups of each row, `g = 0` and `g = 4`. Column `j` of row `i` stands at
place `(j - i) mod 8`, in the group `4 * (place div 4)` at `place mod 4`. The groups of a row
partition it, so no order among the eight mixes is observable (R182). -/
def mixRowsK (X : Mat 4 8) : Mat 4 8 :=
  Mat.ofFn fun i j =>
    let place := (j.val + 8 - i.val) % 8
    quadAt (mix .k (rowGroup X i (4 * (place / 4)))) ⟨place % 4, Nat.mod_lt _ (by decide)⟩

/-- One internal round of the permutation: steps (1), (2), (3) in this order (R182). -/
def internalRound (P : Params) (n : Fin 16) (X : Mat 4 8) : Mat 4 8 :=
  mixRowsK (mixColumnsK (injectConstants P n X))

/-- Absorb: the 16 internal rounds (R183). -/
def permute (P : Params) (X : Mat 4 8) : Mat 4 8 :=
  (List.finRange 16).foldl (fun Y n => internalRound P n Y) X

/-- Squeeze: the first four columns of all four rows (R184). -/
def squeezed (X : Mat 4 8) : Block := Mat.ofFn fun i j => X.word i ⟨j.val, by omega⟩

/-- The counter added into the four words of `KS_CTR_POS` (R184). -/
def addCounter (P : Params) (x : Word) (X : Mat 4 8) : Mat 4 8 :=
  (List.finRange 4).foldl (fun Y n => addWord Y (P.ctrPos n).1 (P.ctrPos n).2 x) X

/-- The domain-separation chunk of squeeze step `n`, 0..22 (R34). -/
def domainChunk (P : Params) (n : Fin 23) : Mat 4 8 :=
  Mat.ofFn fun i j => P.romKsd ⟨32 * n.val + 8 * i.val + j.val, by omega⟩

/-- What squeeze step `n` does to KSS after the copy: nothing after the last subkey, else counter
`n + 1`, then domain separation, then the permutation (R184). -/
def squeezeNext (P : Params) (n : Fin 24) (X : Mat 4 8) : Mat 4 8 :=
  if h : n.val < 23 then
    permute P (matXor (addCounter P (BitVec.ofNat 32 (n.val + 1)) X) (domainChunk P ⟨n.val, h⟩))
  else X

/-- Squeeze step `n` on the pair of schedule and KSS (R184). -/
def squeezeStep (P : Params) (n : Fin 24) (p : Schedule × Mat 4 8) : Schedule × Mat 4 8 :=
  (p.1.set n.val (squeezed p.2), squeezeNext P n p.2)

/-- The key schedule as a function of the master key (R185). Every subkey is written, so the schedule
it starts from does not matter. -/
def keySchedule (P : Params) (key : Mat 1 8) : Schedule :=
  ((List.finRange 24).foldl (fun p n => squeezeStep P n p)
    (Vector.replicate 24 Mat.zero, permute P (sponge0 P key))).1

end Sys2Proof.Machine
end

