-- ==== Sys2Proof/Machine/KeySchedule.lean ====
section
/-! DEFINITION. The commands of the key schedule (42_key_schedule.md R181 to R189). None but an illegal operand
fails (R296). -/

namespace Sys2Proof.Machine

/-- KSINIT (R181). -/
def execKsinit (s : State) : Host.Outcome State Fault Refusal :=
  .next ({ s with kss := sponge0 Config.params (loadMat 1 8 s.mem s.src) } : State).succeed

/-- KSPRND j (R182). -/
def execKsprnd (j : BitVec 8) (s : State) : Host.Outcome State Fault Refusal :=
  .next (s.withOperand (internalRoundOf j) fun n => { s with kss := internalRound Config.params n s.kss })

/-- KSPERM (R183). -/
def execKsperm (s : State) : Host.Outcome State Fault Refusal :=
  .next ({ s with kss := permute Config.params s.kss } : State).succeed

/-- KSSQZ i: only subkey i is written (R184). -/
def execKssqz (i : BitVec 8) (s : State) : Host.Outcome State Fault Refusal :=
  .next (s.withOperand (squeezeStepOf i) fun n =>
    { s with sk := s.sk.set n.val (squeezed s.kss), kss := squeezeNext Config.params n s.kss })

/-- KEYSCHED: the schedule of the 32 bytes at SRC, and KSS is destroyed (R186). -/
def execKeysched (s : State) : Host.Outcome State Fault Refusal :=
  .next ({ s with
    sk := keySchedule Config.params (loadMat 1 8 s.mem s.src), kss := Mat.zero } : State).succeed

/-- KWIPE: SK is zero; the context keeps its copies (R187). -/
def execKwipe (s : State) : Host.Outcome State Fault Refusal :=
  .next ({ s with sk := Vector.replicate 24 Mat.zero } : State).succeed

/-- LDSK (R188). -/
def execLdsk (s : State) : Host.Outcome State Fault Refusal :=
  .next ({ s with sk := loadSchedule s.mem s.src } : State).succeed

/-- STSK (R189). -/
def execStsk (s : State) : Host.Outcome State Fault Refusal :=
  .next ({ s with mem := storeSchedule s.mem s.dst s.sk } : State).succeed

end Sys2Proof.Machine
end

