-- ==== Sys2Proof/Machine/Scalar.lean ====
section
/-! DEFINITION. The commands of the scalar round engine (41_scalar_round.md R146, R151 to R161). None but an
illegal operand fails, and none checks SRC or DST against 0 (R296). -/

namespace Sys2Proof.Machine

/-- One block from SRC through `f` into S and to DST (R160, R161). -/
def cipherCommand (f : Block → Block) (s : State) : State :=
  let x := f (loadBlock s.mem s.src)
  { s with sReg := x, mem := storeMat s.mem s.dst x }

/-- SUBC r (R146). -/
def execSubc (r : BitVec 8) (s : State) : Host.Outcome State Fault Refusal :=
  .next (s.withOperand (roundOf r) fun n => { s with sReg := subConstants Config.params n s.sReg })

/-- COLMIX (R151). -/
def execColmix (s : State) : Host.Outcome State Fault Refusal :=
  .next ({ s with sReg := columnMix s.sReg } : State).succeed

/-- ICOLMIX (R152). -/
def execIcolmix (s : State) : Host.Outcome State Fault Refusal :=
  .next ({ s with sReg := invColumnMix s.sReg } : State).succeed

/-- SHROWS (R153). -/
def execShrows (s : State) : Host.Outcome State Fault Refusal :=
  .next ({ s with sReg := shiftRows s.sReg } : State).succeed

/-- ISHROWS (R154). -/
def execIshrows (s : State) : Host.Outcome State Fault Refusal :=
  .next ({ s with sReg := invShiftRows s.sReg } : State).succeed

/-- ARK k: reads SK, never CK (R155). -/
def execArk (k : BitVec 8) (s : State) : Host.Outcome State Fault Refusal :=
  .next (s.withOperand (subkeyOf k) fun n => { s with sReg := addRoundKey s.sk n s.sReg })

/-- FROUND r (R156). -/
def execFround (r : BitVec 8) (s : State) : Host.Outcome State Fault Refusal :=
  .next (s.withOperand (roundOf r) fun n => { s with sReg := fwdRound Config.params s.sk n s.sReg })

/-- IROUND r (R157). -/
def execIround (r : BitVec 8) (s : State) : Host.Outcome State Fault Refusal :=
  .next (s.withOperand (roundOf r) fun n => { s with sReg := invRound Config.params s.sk n s.sReg })

/-- LDBLK (R158). -/
def execLdblk (s : State) : Host.Outcome State Fault Refusal :=
  .next ({ s with sReg := loadBlock s.mem s.src } : State).succeed

/-- STBLK (R159). -/
def execStblk (s : State) : Host.Outcome State Fault Refusal :=
  .next ({ s with mem := storeMat s.mem s.dst s.sReg } : State).succeed

/-- ENC: all 64 bytes are read before any is written; S keeps the output block (R160, R69). -/
def execEnc (s : State) : Host.Outcome State Fault Refusal :=
  .next (cipherCommand (encrypt Config.params s.sk) s).succeed

/-- DEC (R161). -/
def execDec (s : State) : Host.Outcome State Fault Refusal :=
  .next (cipherCommand (decrypt Config.params s.sk) s).succeed

end Sys2Proof.Machine
end

