-- ==== Sys2Proof/Machine/Transpose.lean ====
section
/-! DEFINITION. The commands of the transpose unit (43_vector_batch.md R213 to R221). -/

namespace Sys2Proof.Machine

/-- VLDRAW (R213). -/
def execVldraw (s : State) : Host.Outcome State Fault Refusal :=
  .next (s.vectorOp { src := true } { s with v := loadMat 16 8 s.mem s.src })

/-- VXPOSE (R216). -/
def execVxpose (s : State) : Host.Outcome State Fault Refusal :=
  .next (s.vectorOp {} { s with v := transpose s.v })

/-- VIXPOSE (R217). -/
def execVixpose (s : State) : Host.Outcome State Fault Refusal :=
  .next (s.vectorOp {} { s with v := untranspose s.v })

/-- VSTRAW (R219). -/
def execVstraw (s : State) : Host.Outcome State Fault Refusal :=
  .next (s.vectorOp { dst := true } { s with mem := storeMat s.mem s.dst s.v })

/-- VLOAD: VLDRAW then VXPOSE as one command (R220). -/
def execVload (s : State) : Host.Outcome State Fault Refusal :=
  .next (s.vectorOp { src := true } { s with v := transpose (loadMat 16 8 s.mem s.src) })

/-- VSTORE: VIXPOSE then VSTRAW as one command; V is left in the raw layout (R221). -/
def execVstore (s : State) : Host.Outcome State Fault Refusal :=
  .next (s.vectorOp { dst := true }
    { s with v := untranspose s.v, mem := storeMat s.mem s.dst (untranspose s.v) })

end Sys2Proof.Machine
end

