-- ==== Sys2Proof/Machine/VectorRounds.lean ====
section
/-! DEFINITION. The round commands of the vector engine (43_vector_batch.md R222 to R231): they read the context,
never SK or the ROM, and write V. -/

namespace Sys2Proof.Machine

/-- VSUBC r (R222). -/
def execVsubc (r : BitVec 8) (s : State) : Host.Outcome State Fault Refusal :=
  .next (s.vectorOpWith (roundOf r) fun n => { s with v := wideSubConstants s.brc n s.v })

/-- VCOLMIX (R223). -/
def execVcolmix (s : State) : Host.Outcome State Fault Refusal :=
  .next (s.vectorOp {} { s with v := wideColumnMix s.v })

/-- VICOLMIX (R224). -/
def execVicolmix (s : State) : Host.Outcome State Fault Refusal :=
  .next (s.vectorOp {} { s with v := wideInvColumnMix s.v })

/-- VSHROWS (R225). -/
def execVshrows (s : State) : Host.Outcome State Fault Refusal :=
  .next (s.vectorOp {} { s with v := wideShiftRows s.v })

/-- VISHROWS (R226). -/
def execVishrows (s : State) : Host.Outcome State Fault Refusal :=
  .next (s.vectorOp {} { s with v := wideInvShiftRows s.v })

/-- VARK k (R227). -/
def execVark (k : BitVec 8) (s : State) : Host.Outcome State Fault Refusal :=
  .next (s.vectorOpWith (subkeyOf k) fun n => { s with v := wideAddRoundKey s.bk n s.v })

/-- VFROUND r (R228). -/
def execVfround (r : BitVec 8) (s : State) : Host.Outcome State Fault Refusal :=
  .next (s.vectorOpWith (roundOf r) fun n => { s with v := wideFwdRound s.bk s.brc n s.v })

/-- VIROUND r (R229). -/
def execViround (r : BitVec 8) (s : State) : Host.Outcome State Fault Refusal :=
  .next (s.vectorOpWith (roundOf r) fun n => { s with v := wideInvRound s.bk s.brc n s.v })

/-- VENC8 (R230). -/
def execVenc8 (s : State) : Host.Outcome State Fault Refusal :=
  .next (s.vectorOp {} { s with v := wideEncrypt s.bk s.brc s.v })

/-- VDEC8 (R231). -/
def execVdec8 (s : State) : Host.Outcome State Fault Refusal :=
  .next (s.vectorOp {} { s with v := wideDecrypt s.bk s.brc s.v })

end Sys2Proof.Machine
end

