-- ==== Sys2Proof/Machine/Dispatch.lean ====
section
/-! DEFINITION. exec: one arm per command of the opcode map (30_encoding.md R94). -/

namespace Sys2Proof.Machine

def exec (i : Instr) (s : State) : Host.Outcome State Fault Refusal :=
  match i with
  | .nop => Sys2Proof.Machine.execNop s
  | .setsrc imm => Sys2Proof.Machine.execSetsrc imm s
  | .setdst imm => Sys2Proof.Machine.execSetdst imm s
  | .setcnt imm => Sys2Proof.Machine.execSetcnt imm s
  | .romrd t imm => Sys2Proof.Machine.execRomrd t imm s
  | .mixg c w => Sys2Proof.Machine.execMixg c w s
  | .mixh c w => Sys2Proof.Machine.execMixh c w s
  | .mixk c w => Sys2Proof.Machine.execMixk c w s
  | .imixg c w => Sys2Proof.Machine.execImixg c w s
  | .imixh c w => Sys2Proof.Machine.execImixh c w s
  | .imixk c w => Sys2Proof.Machine.execImixk c w s
  | .subc r => Sys2Proof.Machine.execSubc r s
  | .colmix => Sys2Proof.Machine.execColmix s
  | .icolmix => Sys2Proof.Machine.execIcolmix s
  | .shrows => Sys2Proof.Machine.execShrows s
  | .ishrows => Sys2Proof.Machine.execIshrows s
  | .ark k => Sys2Proof.Machine.execArk k s
  | .fround r => Sys2Proof.Machine.execFround r s
  | .iround r => Sys2Proof.Machine.execIround r s
  | .ldblk => Sys2Proof.Machine.execLdblk s
  | .stblk => Sys2Proof.Machine.execStblk s
  | .enc => Sys2Proof.Machine.execEnc s
  | .dec => Sys2Proof.Machine.execDec s
  | .ksinit => Sys2Proof.Machine.execKsinit s
  | .ksprnd j => Sys2Proof.Machine.execKsprnd j s
  | .ksperm => Sys2Proof.Machine.execKsperm s
  | .kssqz n => Sys2Proof.Machine.execKssqz n s
  | .keysched => Sys2Proof.Machine.execKeysched s
  | .kwipe => Sys2Proof.Machine.execKwipe s
  | .ldsk => Sys2Proof.Machine.execLdsk s
  | .stsk => Sys2Proof.Machine.execStsk s
  | .ctxinit => Sys2Proof.Machine.execCtxinit s
  | .ctxclr => Sys2Proof.Machine.execCtxclr s
  | .vldraw => Sys2Proof.Machine.execVldraw s
  | .vxpose => Sys2Proof.Machine.execVxpose s
  | .vixpose => Sys2Proof.Machine.execVixpose s
  | .vstraw => Sys2Proof.Machine.execVstraw s
  | .vload => Sys2Proof.Machine.execVload s
  | .vstore => Sys2Proof.Machine.execVstore s
  | .vsubc r => Sys2Proof.Machine.execVsubc r s
  | .vcolmix => Sys2Proof.Machine.execVcolmix s
  | .vicolmix => Sys2Proof.Machine.execVicolmix s
  | .vshrows => Sys2Proof.Machine.execVshrows s
  | .vishrows => Sys2Proof.Machine.execVishrows s
  | .vark k => Sys2Proof.Machine.execVark k s
  | .vfround r => Sys2Proof.Machine.execVfround r s
  | .viround r => Sys2Proof.Machine.execViround r s
  | .venc8 => Sys2Proof.Machine.execVenc8 s
  | .vdec8 => Sys2Proof.Machine.execVdec8 s
  | .benc => Sys2Proof.Machine.execBenc s
  | .bdec => Sys2Proof.Machine.execBdec s

end Sys2Proof.Machine
end

