-- ==== Sys2Proof/Machine/Step.lean ====
section
/-! DEFINITION. One step: the next command word the host has issued is decoded and executed, or fails
E_ILLEGAL (00_scope.md R7, 30_encoding.md R95, R96). -/

namespace Sys2Proof.Machine

/-- One step. While the host has issued nothing the CORE waits (R332): nothing changes (log entry 2). -/
def step (s : State) : Host.Outcome State Fault Refusal :=
  match fetch s with
  | none => .next s
  | some (w, s') =>
    match decode w with
    | .ok i => exec i s'
    | .error _ => .next (s'.fail .illegal)

/-- The state in which the next word the host has issued is the one these bits stand for: it takes the
place of the word that was next (log entry 1). -/
def State.withFetchWord (s : State) (nbits w : Nat) : State :=
  { s with pending := wordOfBits nbits w :: s.pending.tail }

end Sys2Proof.Machine
end

