-- ==== Sys2Proof/Machine/Assembly.lean ====
section
/-! DEFINITION. The written form of a command (30_encoding.md R98) and the pseudo-instructions with
their expansions (R99). -/

namespace Sys2Proof.Machine

/-- The mnemonic, then the operands separated by commas, as numbers in decimal. -/
def asmText (mnemonic : String) (operands : List Nat) : String :=
  match operands with
  | [] => mnemonic
  | n :: ns => mnemonic ++ " " ++ ns.foldl (fun t x => t ++ ", " ++ Nat.repr x) (Nat.repr n)

/-- The operands of a command in the order of the opcode map's "operands" column (R94, R98). -/
def operandList : Instr → List Nat
  | .setsrc imm | .setdst imm | .setcnt imm => [imm.toNat]
  | .romrd t imm => [t.toNat, imm.toNat]
  | .mixg c w | .mixh c w | .mixk c w | .imixg c w | .imixh c w | .imixk c w => [c.toNat, w.toNat]
  | .subc r | .fround r | .iround r | .vsubc r | .vfround r | .viround r => [r.toNat]
  | .ark k | .vark k => [k.toNat]
  | .ksprnd j => [j.toNat]
  | .kssqz i => [i.toNat]
  | .nop | .colmix | .icolmix | .shrows | .ishrows | .ldblk | .stblk | .enc | .dec | .ksinit | .ksperm
  | .keysched | .kwipe | .ldsk | .stsk | .ctxinit | .ctxclr | .vldraw | .vxpose | .vixpose | .vstraw
  | .vload | .vstore | .vcolmix | .vicolmix | .vshrows | .vishrows | .venc8 | .vdec8 | .benc | .bdec => []

/-- A command as R98 writes it, numbers in decimal. -/
def asmLine (i : Instr) : String := asmText i.mnemonic (operandList i)

/-- The pseudo-instructions, one for each primitive of §6 that takes operands (R99). -/
inductive Pseudo where
  /-- `key_schedule(master_key)`, the result left in SK -/
  | keyexp (key : Addr)
  /-- the subkeys of `key_schedule` written to memory -/
  | getsk (out : Addr)
  /-- passing subkeys as an argument -/
  | putsk (inp : Addr)
  /-- `encrypt_block` -/
  | encb (inp out : Addr)
  /-- `decrypt_block` -/
  | decb (inp out : Addr)
  /-- `batch_encrypt` -/
  | batchenc (inp out : Addr) (n : Word)
  /-- `batch_decrypt` -/
  | batchdec (inp out : Addr) (n : Word)
  deriving DecidableEq, Repr

/-- The commands a pseudo-instruction stands for, in their order (R99). -/
def expand : Pseudo → List Instr
  | .keyexp key => [.setsrc key, .keysched]
  | .getsk out => [.setdst out, .stsk]
  | .putsk inp => [.setsrc inp, .ldsk]
  | .encb inp out => [.setsrc inp, .setdst out, .enc]
  | .decb inp out => [.setsrc inp, .setdst out, .dec]
  | .batchenc inp out n => [.setsrc inp, .setdst out, .setcnt n, .benc]
  | .batchdec inp out n => [.setsrc inp, .setdst out, .setcnt n, .bdec]

end Sys2Proof.Machine
end

