-- ==== Sys2Proof/Machine/Flags.lean ====
section
/-! DEFINITION. STATUS and CAPS as words, and the host read port (10_state.md R28, R29, R36). RES and
ERRSEEN are the only flag-like state (R38). -/

namespace Sys2Proof.Machine

/-- `STATUS`: RES in bits 2:0, ERRSEEN in bit 4, the other bits 0 (R28). -/
def statusWord (s : State) : Word :=
  (0 : BitVec 27) ++ (BitVec.ofBool s.errSeen ++ ((0 : BitVec 1) ++ s.res))

/-- `CAPS`: CAPQ in bit 0, CAPV in bit 1, the other bits 0 (R29). -/
def capsWord (s : State) : Word :=
  (0 : BitVec 30) ++ (BitVec.ofBool s.capV ++ BitVec.ofBool s.capQ)

/-- The host read port; a number that names no register reads 0, and a read changes nothing (R36). -/
def readPort (s : State) (n : Nat) : Word :=
  match n with
  | 0 => statusWord s
  | 1 => s.src
  | 2 => s.dst
  | 3 => s.cnt
  | 4 => capsWord s
  | _ => 0

end Sys2Proof.Machine
end

