-- ==== Sys2Proof/Safety.lean ====
section
/-! DEFINITION. What counts as a good state and a good run of the CORE, in the terms the statements
use. -/

namespace Sys2Proof.Machine

/-- The context is valid: `TAG = CTX_TAG` (10_state.md R25). -/
def ContextValid (s : State) : Prop := s.tag = Config.params.ctxTag

/-- The context holds what CTXINIT builds from the schedule `ks`: every lane of BK is the subkey's
word, every lane of BRC the round constant, CK the schedule itself (R25). -/
structure ContextOf (ks : Schedule) (s : State) : Prop where
  bk : ∀ (k : Fin 24) (n : Fin 16) (l : Fin 8), (s.bk[k.val]).word n l = blockWord ks[k.val] n
  brc : ∀ (r : Fin 22) (n : Fin 16) (l : Fin 8), (s.brc[r.val]).word n l =
    Config.params.romRc ⟨16 * r.val + n.val, by omega⟩
  ck : s.ck = ks

/-- The context holds nothing: the reset and cleared content (R212, R330). -/
structure ContextClear (s : State) : Prop where
  bk : ∀ (k : Fin 24) (n : Fin 16) (l : Fin 8), (s.bk[k.val]).word n l = 0
  brc : ∀ (r : Fin 22) (n : Fin 16) (l : Fin 8), (s.brc[r.val]).word n l = 0
  ck : ∀ (k : Fin 24) (i j : Fin 4), (s.ck[k.val]).word i j = 0

/-- What every state reached from reset satisfies. -/
structure Inv (s : State) : Prop where
  /-- memory is in its canonical form -/
  mem_wf : s.mem.wf
  /-- codes 5, 6, 7 never occur (R28) -/
  res_le : s.res.toNat ≤ 4
  /-- a recorded failure code has set ERRSEEN (R28, R292) -/
  res_errSeen : s.res ≠ 0 → s.errSeen = true
  /-- an answer "usable" has been sampled (R29) -/
  capQ_capV : s.capQ = true → s.capV = true
  /-- TAG only ever holds 0 or CTX_TAG (R298) -/
  tag_cases : s.tag = 0 ∨ s.tag = Config.params.ctxTag
  /-- without the capability no context is valid (R297) -/
  valid_capQ : s.tag = Config.params.ctxTag → s.capQ = true
  /-- a valid context is the one CTXINIT built from the schedule it caches (R25) -/
  valid_context : s.tag = Config.params.ctxTag → ContextOf s.ck s
  /-- an invalid context leaves no residue (R212) -/
  clear_context : s.tag = 0 → ContextClear s

/-- A run of commands, one after the other, ending at the first that has no next state. -/
def runAll : List Instr → State → Host.Outcome State Fault Refusal
  | [], s => .next s
  | i :: is, s =>
    match exec i s with
    | .next t => runAll is t
    | .fault f => .fault f
    | .refused r => .refused r

/-! ### The laws of 41_scalar_round.md R162

R162 (3), avalanche, is a statistic of the real ROM contents and, by R162 itself and 93_implementation_defined.md
U13, no rule of the model. -/

/-- R162 (1) at one state: DEC of the output of ENC, SK unchanged in between, reproduces at `out` the 64 bytes
that stood at SRC. -/
def RoundTripsBlock (s : State) (out : Addr) : Prop :=
  ∃ t, runAll [.enc, .setsrc s.dst, .setdst out, .dec] s = .next t ∧ t.res = 0 ∧
    ∀ k, k < 64 → t.mem.byteAt (out + BitVec.ofNat 32 k) = s.mem.byteAt (s.src + BitVec.ofNat 32 k)

/-- R162 (2) of one command: run twice it completes and is the identity on S. -/
def SelfInverseOnS (i : Instr) : Prop :=
  ∀ s : State, ∃ t, runAll [i, i] s = .next t ∧ t.sReg = s.sReg

/-- A safe run: no failure is recorded (R28: ERRSEEN exists so that a claim can take "no failure
recorded" as a premise over a whole run). -/
def NoFailureRecorded (s : State) : Prop := s.errSeen = false

end Sys2Proof.Machine
end

