-- ==== Sys2Proof/Certificates/Slice0/Obligations.lean ====
section
/-! DEFINITION. The statements about the CORE, from the numbered rules of spec/. Each says which rule it
states. The helpers first: operand words for the legal numbers, the byte layouts of R12 and R67, and the
tables of R20, R68, R91, R93, R96 and R293 written out by mnemonic or opcode.

A state equation `t = (s with the fields f, g taken from t)` is a frame: every field but those named is as
in `s`. -/

namespace Sys2Proof.Claims

open Sys2Proof.Machine

/-! ### Operands -/

/-- The operand word of round `r + 1`; `r` ranges over 0..21, so this ranges over the legal 1..22 (R93). -/
def roundNo (r : Fin 22) : BitVec 8 := BitVec.ofNat 8 (r.val + 1)

/-- The operand word of a subkey number or squeeze step 0..23 (R93). -/
def keyNo (k : Fin 24) : BitVec 8 := BitVec.ofNat 8 k.val

/-- The operand word of an internal round 0..15 (R93). -/
def innerNo (j : Fin 16) : BitVec 8 := BitVec.ofNat 8 j.val

/-- The operand word of a column 0..3 (R93). -/
def columnNo (c : Fin 4) : BitVec 8 := BitVec.ofNat 8 c.val

/-- The six mixer commands, each with its function (R124 to R129). -/
def mixerCommands : List ((BitVec 8 → BitVec 8 → Instr) × (Quad → Quad)) :=
  [(.mixg, mix .g), (.mixh, mix .h), (.mixk, mix .k), (.imixg, imix .g), (.imixh, imix .h), (.imixk, imix .k)]

/-- The forward mix as R121 lists it, each statement using the values left by those before it. -/
def mixListing (r1 r2 r3 r4 : Nat) (a b c d : Word) : Quad :=
  let a := a + b; let d := d ^^^ a; let d := ror d r1
  let c := c + d; let b := b ^^^ c; let b := ror b r2
  let a := a + b; let d := d ^^^ a; let d := ror d r3
  let c := c + d; let b := b ^^^ c; let b := ror b r4
  ⟨a, b, c, d⟩

/-- The inverse mix as R122 lists it. -/
def imixListing (r1 r2 r3 r4 : Nat) (a b c d : Word) : Quad :=
  let b := rol b r4; let b := b ^^^ c; let c := c - d
  let d := rol d r3; let d := d ^^^ a; let a := a - b
  let b := rol b r2; let b := b ^^^ c; let c := c - d
  let d := rol d r1; let d := d ^^^ a; let a := a - b
  ⟨a, b, c, d⟩

/-- The four words of row `i` at columns `i + g` to `i + g + 3` modulo 8, in their roles (R182). -/
def rowWords (X : Mat 4 8) (i : Fin 4) (g : Nat) : Quad :=
  ⟨X.word i (wrap8 i.val g), X.word i (wrap8 i.val (g + 1)), X.word i (wrap8 i.val (g + 2)),
    X.word i (wrap8 i.val (g + 3))⟩

/-- The listing of R121 on a quad. -/
def mixQuad (r1 r2 r3 r4 : Nat) (q : Quad) : Quad := mixListing r1 r2 r3 r4 q.a q.b q.c q.d

/-! ### Memory -/

/-- The word at byte address `a` as a number: `LE32` of its four bytes (R12, R63). -/
def wordAt (m : Memory) (a : Addr) : Nat :=
  (m.byteAt a).toNat + 2 ^ 8 * (m.byteAt (a + 1)).toNat + 2 ^ 16 * (m.byteAt (a + 2)).toNat
    + 2 ^ 24 * (m.byteAt (a + 3)).toNat

/-- The address `n` bytes above `a`, modulo 2^32 (R61). -/
def offset (a : Addr) (n : Nat) : Addr := a + BitVec.ofNat 32 n

/-- `m'` is `m` with the `n` bytes `f` written from `a` up, and every other byte as in `m` (R62). -/
def Stores (m : Memory) (a : Addr) (n : Nat) (f : Fin n → Byte) (m' : Memory) : Prop :=
  (∀ k : Fin n, m'.byteAt (offset a k.val) = f k) ∧ ∀ x : Addr, n ≤ (x - a).toNat → m'.byteAt x = m.byteAt x

/-- Byte `k` of a block's image: byte `k mod 4` of word `(i, j)` with `16*i + 4*j = 4*(k div 4)` (R67). -/
def blockByte (X : Block) (k : Fin 64) : Byte :=
  wordByte (X.word ⟨k.val / 16, by omega⟩ ⟨k.val % 16 / 4, by omega⟩) (k.val % 4)

/-- Byte `k` of a subkey image: subkey `k div 64` is the block at `64*(k div 64)` (R67). -/
def scheduleByte (ks : Schedule) (k : Fin 1536) : Byte :=
  blockByte (ks[k.val / 64]'(by omega)) ⟨k.val % 64, by omega⟩

/-- Byte `k` of the wide registers as VSTRAW writes them: register `k div 32`, lane `(k mod 32) div 4`
(R219). -/
def wideByte (V : WideFile) (k : Fin 512) : Byte :=
  wordByte (V.word ⟨k.val / 32, by omega⟩ ⟨k.val % 32 / 4, by omega⟩) (k.val % 4)

/-- The input and output ranges of a batch do not overlap partially: the same address, or no byte in
common (R70). -/
def RangesAllowed (src dst : Addr) (n : Nat) : Prop :=
  src = dst ∨ ∀ j k, j < n → k < n → offset src j ≠ offset dst k

/-! ### Sequences of commands -/

/-- FROUND 1 to FROUND 22. -/
def froundsUp : List Instr := (List.finRange 22).map fun r => .fround (roundNo r)

/-- IROUND 22 down to IROUND 1. -/
def iroundsDown : List Instr := (List.finRange 22).reverse.map fun r => .iround (roundNo r)

/-- VFROUND 1 to VFROUND 22. -/
def vfroundsUp : List Instr := (List.finRange 22).map fun r => .vfround (roundNo r)

/-- VIROUND 22 down to VIROUND 1. -/
def viroundsDown : List Instr := (List.finRange 22).reverse.map fun r => .viround (roundNo r)

/-- KSPRND 0 to KSPRND 15. -/
def ksprnds : List Instr := (List.finRange 16).map fun j => .ksprnd (innerNo j)

/-- KSSQZ 0 to KSSQZ 23. -/
def kssqzs : List Instr := (List.finRange 24).map fun i => .kssqz (keyNo i)

/-- ENC or DEC (`c`) of the `n` blocks at `src` one after the other, each to its place at `dst`. -/
def blockByBlock (c : Instr) (src dst : Addr) (n : Nat) : List Instr :=
  (List.range n).flatMap fun k => [.setsrc (offset src (64 * k)), .setdst (offset dst (64 * k)), c]

/-- The mixer commands on column `c` with flag `w`, each with the one that undoes it, both ways (R123,
R127). -/
def mixerPairs (c w : BitVec 8) : List (Instr × Instr) :=
  [(Instr.mixg c w, Instr.imixg c w), (Instr.mixh c w, Instr.imixh c w), (Instr.mixk c w, Instr.imixk c w),
   (Instr.imixg c w, Instr.mixg c w), (Instr.imixh c w, Instr.mixh c w), (Instr.imixk c w, Instr.mixk c w)]

/-- The round commands of round `r` with the one that undoes each (R148, R162). -/
def roundPairs (r : BitVec 8) : List (Instr × Instr) :=
  [(Instr.fround r, Instr.iround r), (Instr.iround r, Instr.fround r), (Instr.subc r, Instr.subc r)]

/-- The pairs of scalar commands of which the second undoes what the first did to S (R123, R127, R142,
R144, R148, R162). -/
def scalarInverses : List (Instr × Instr) :=
  ((List.finRange 4).flatMap fun c => mixerPairs (columnNo c) 0 ++ mixerPairs (columnNo c) 1)
  ++ [(Instr.colmix, Instr.icolmix), (Instr.icolmix, Instr.colmix),
      (Instr.shrows, Instr.ishrows), (Instr.ishrows, Instr.shrows)]
  ++ ((List.finRange 22).flatMap fun r => roundPairs (roundNo r))
  ++ ((List.finRange 24).map fun k => (Instr.ark (keyNo k), Instr.ark (keyNo k)))

/-- The vector round commands of round `r` with the one that undoes each (R222, R229). -/
def vroundPairs (r : BitVec 8) : List (Instr × Instr) :=
  [(Instr.vfround r, Instr.viround r), (Instr.viround r, Instr.vfround r), (Instr.vsubc r, Instr.vsubc r)]

/-- The pairs of vector commands of which the second undoes what the first did to V (R216, R217, R222 to
R231). -/
def vectorInverses : List (Instr × Instr) :=
  [(Instr.vxpose, Instr.vixpose), (Instr.vixpose, Instr.vxpose),
   (Instr.vcolmix, Instr.vicolmix), (Instr.vicolmix, Instr.vcolmix),
   (Instr.vshrows, Instr.vishrows), (Instr.vishrows, Instr.vshrows),
   (Instr.venc8, Instr.vdec8), (Instr.vdec8, Instr.venc8)]
  ++ ((List.finRange 22).flatMap fun r => vroundPairs (roundNo r))
  ++ ((List.finRange 24).map fun k => (Instr.vark (keyNo k), Instr.vark (keyNo k)))

/-- The vector commands of 0x48 to 0x51 with legal operands: those whose lanes never interact (R237). -/
def roundCommands : List Instr :=
  [Instr.vcolmix, Instr.vicolmix, Instr.vshrows, Instr.vishrows, Instr.venc8, Instr.vdec8]
  ++ ((List.finRange 22).map fun r => Instr.vsubc (roundNo r))
  ++ ((List.finRange 22).map fun r => Instr.vfround (roundNo r))
  ++ ((List.finRange 22).map fun r => Instr.viround (roundNo r))
  ++ ((List.finRange 24).map fun k => Instr.vark (keyNo k))

/-! ### Tables by mnemonic -/

/-- The commands of files 40 and 41, the scalar family of R21, except STBLK, which leaves S unchanged
(R159). -/
def writesS : List String :=
  ["MIXG", "MIXH", "MIXK", "IMIXG", "IMIXH", "IMIXK", "SUBC", "COLMIX", "ICOLMIX", "SHROWS", "ISHROWS",
   "ARK", "FROUND", "IROUND", "LDBLK", "ENC", "DEC", "BENC", "BDEC"]

/-- The commands of the vector family that write V: those of file 43 but CTXINIT (R211) and VSTRAW
(R219). -/
def writesV : List String :=
  ["CTXCLR", "VLDRAW", "VXPOSE", "VIXPOSE", "VLOAD", "VSTORE", "VSUBC", "VCOLMIX", "VICOLMIX", "VSHROWS",
   "VISHROWS", "VARK", "VFROUND", "VIROUND", "VENC8", "VDEC8", "BENC", "BDEC"]

/-- The eighteen commands 0x42 to 0x53 (R238). -/
def needContext : List String :=
  ["VLDRAW", "VXPOSE", "VIXPOSE", "VSTRAW", "VLOAD", "VSTORE", "VSUBC", "VCOLMIX", "VICOLMIX", "VSHROWS",
   "VISHROWS", "VARK", "VFROUND", "VIROUND", "VENC8", "VDEC8", "BENC", "BDEC"]

/-- The code a command ends with: the first of the causes of R293 in the order of R300, OK when there is
none. -/
def resultCode (i : Instr) (s : State) : BitVec 3 :=
  if i.wellFormed = false then 4
  else if i.mnemonic ∈ ["VLDRAW", "VLOAD", "BENC", "BDEC"] ∧ s.src = 0 then 1
  else if i.mnemonic ∈ ["VSTRAW", "VSTORE", "BENC", "BDEC"] ∧ s.dst = 0 then 1
  else if i.mnemonic ∈ ["BENC", "BDEC"] ∧ s.cnt = 0 then 1
  else if i.mnemonic ∈ needContext ∧ s.tag ≠ Config.ctxTag then 3
  else if i.mnemonic = "CTXINIT" ∧ (if s.capV then s.capQ else s.capUsable) = false then 2
  else 0

/-- An operand register the command uses is null or zero: the E_PRECOND causes of R238. -/
def lacksOperand (i : Instr) (s : State) : Bool :=
  (decide (i.mnemonic ∈ ["VLDRAW", "VLOAD", "BENC", "BDEC"]) && s.src == 0)
  || (decide (i.mnemonic ∈ ["VSTRAW", "VSTORE", "BENC", "BDEC"]) && s.dst == 0)
  || (decide (i.mnemonic ∈ ["BENC", "BDEC"]) && s.cnt == 0)

/-- How many bytes at SRC a command reads (R68). -/
def loadSize (i : Instr) (s : State) : Nat :=
  if i.mnemonic ∈ ["LDBLK", "ENC", "DEC"] then 64
  else if i.mnemonic ∈ ["KSINIT", "KEYSCHED"] then 32
  else if i.mnemonic = "LDSK" then 1536
  else if i.mnemonic ∈ ["VLDRAW", "VLOAD"] then 512
  else if i.mnemonic ∈ ["BENC", "BDEC"] then 64 * s.cnt.toNat
  else 0

/-- How many bytes at DST a command writes (R68). -/
def storeSize (i : Instr) (s : State) : Nat :=
  if i.mnemonic ∈ ["STBLK", "ENC", "DEC"] then 64
  else if i.mnemonic = "STSK" then 1536
  else if i.mnemonic = "ROMRD" then 4
  else if i.mnemonic ∈ ["VSTRAW", "VSTORE"] then 512
  else if i.mnemonic ∈ ["BENC", "BDEC"] then 64 * s.cnt.toNat
  else 0

/-! ### Illegal words (R96), by opcode -/

/-- The opcodes of format N (R91, R94). -/
def opsN : List Nat :=
  [0x01, 0x21, 0x22, 0x23, 0x24, 0x28, 0x29, 0x2A, 0x2B, 0x30, 0x32, 0x34, 0x35, 0x36, 0x37, 0x40, 0x41,
   0x42, 0x43, 0x44, 0x45, 0x46, 0x47, 0x49, 0x4A, 0x4B, 0x4C, 0x50, 0x51, 0x52, 0x53]

/-- The opcodes of format A whose operand is a round number (R91, R93). -/
def opsRound : List Nat := [0x20, 0x26, 0x27, 0x48, 0x4E, 0x4F]

/-- The opcodes of format A whose operand is a subkey number or a squeeze step, 0..23 (R91, R93). -/
def ops24 : List Nat := [0x25, 0x4D, 0x33]

/-- The opcodes of format AB (R91). -/
def opsMix : List Nat := [0x10, 0x11, 0x12, 0x14, 0x15, 0x16]

/-- The opcodes of format I (R91). -/
def opsI : List Nat := [0x02, 0x03, 0x04]

/-- The lengths of the four tables (R30). -/
def tableLength (t : Nat) : Nat :=
  if t = 0 then 352 else if t = 1 then 24 else if t = 2 then 64 else if t = 3 then 736 else 0

/-- The words that are illegal, clause by clause as R96 lists them: the opcode is not in R94; a
must-be-zero field of the format is not 0; an operand is outside its range. -/
def IllegalWord (w : Cmd) : Prop :=
  let op := (w.extractLsb' 56 8).toNat
  let a := (w.extractLsb' 48 8).toNat
  let b := (w.extractLsb' 40 8).toNat
  let z := (w.extractLsb' 32 8).toNat
  let imm := (w.extractLsb' 0 32).toNat
  (op ∉ opsN ∧ op ∉ opsRound ∧ op ∉ ops24 ∧ op ∉ opsMix ∧ op ∉ opsI ∧ op ≠ 0x31 ∧ op ≠ 0x05)
  ∨ z ≠ 0
  ∨ (a ≠ 0 ∧ (op ∈ opsN ∨ op ∈ opsI))
  ∨ (b ≠ 0 ∧ op ∉ opsMix)
  ∨ (imm ≠ 0 ∧ op ∉ opsI ∧ op ≠ 0x05)
  ∨ (op ∈ opsRound ∧ (a = 0 ∨ 22 < a))
  ∨ (op ∈ ops24 ∧ 23 < a)
  ∨ (op ∈ opsMix ∧ (3 < a ∨ 1 < b))
  ∨ (op = 0x31 ∧ 15 < a)
  ∨ (op = 0x05 ∧ (3 < a ∨ tableLength a ≤ imm))

end Sys2Proof.Claims

open Sys2Proof Sys2Proof.Machine Sys2Proof.Claims

/-! ### Encoding and the step -/

/-- O1. R90, R91, R93, R94, R95: a word decodes to a command exactly when the command's operands are legal
and the word is its encoding. So every legal command has one word, that word decodes to it, and every other
word is refused. -/
def Obligations.DecodeEncodeAgree : Prop :=
  ∀ (w : Cmd) (i : Instr), decode w = .ok i ↔ i.wellFormed = true ∧ encode i = w

/-- O2. R94, R95: the words the decoder accepts as a mnemonic are those that select the opcode map's row of
that mnemonic by match, mask and range condition, and no word selects two rows. -/
def Obligations.DecoderFollowsOpcodeMap : Prop :=
  ∀ w : Cmd,
    (∀ i, decode w = .ok i → ∃ row ∈ opcodeMap, row.mnemonic = i.mnemonic ∧ rowSelects row w = true) ∧
    (∀ row ∈ opcodeMap, rowSelects row w = true → ∃ i, decode w = .ok i ∧ i.mnemonic = row.mnemonic) ∧
    (∀ row ∈ opcodeMap, ∀ row' ∈ opcodeMap, rowSelects row w = true → rowSelects row' w = true → row = row')

/-- O3. R96, R299: every word is either one of the 51 commands or illegal, and an illegal word executes as
`fail E_ILLEGAL`, `pc <- pc + 1`, with nothing else changed (the host's list, a field of the model's own, log
entry 1, moves on to the next word). -/
def Obligations.IllegalWordFailsAndChangesNothingElse : Prop :=
  ∀ (w : Cmd) (ws : List Cmd) (s : State), s.pending = w :: ws →
    (IllegalWord w → step s = .next { s with pending := ws, res := 4, errSeen := true, pc := s.pc + 1 }) ∧
    (¬ IllegalWord w → ∃ i, decode w = .ok i)

/-- O4. V-E1 of spec/96_test_vectors_vector.md: words written out from the encoding decode to the commands
they stand for, and illegal ones are refused. -/
def Obligations.SampleWordsDecode : Prop :=
  decode 0x0100000000000000 = .ok .nop ∧
  decode 0x0200000000001000 = .ok (.setsrc 0x1000) ∧
  decode 0x05030000000002DF = .ok (.romrd 3 735) ∧
  decode 0x1002010000000000 = .ok (.mixg 2 1) ∧
  decode 0x2016000000000000 = .ok (.subc 22) ∧
  decode 0x310F000000000000 = .ok (.ksprnd 15) ∧
  decode 0x4000000000000000 = .ok .ctxinit ∧
  decode 0x4E16000000000000 = .ok (.vfround 22) ∧
  decode 0x5200000000000000 = .ok .benc ∧
  decode 0x2017000000000000 = .error .operandOutOfRange ∧
  decode 0x1300000000000000 = .error .unknownOpcode ∧
  decode 0x0200010000001000 = .error .unusedFieldSet

/-- O5. R7, R27, R95: a step takes the next word of the host's list, and when it decodes to `i` it is
`exec i` at the state whose list has moved on. In particular the word that `withFetchWord` places is the one
that runs. (That the host's words stand in a list in the state is the model's choice, log entry 1.) -/
def Obligations.StepRunsDecodedCommand : Prop :=
  (∀ (s : State) (w : Cmd) (ws : List Cmd) (i : Instr), s.pending = w :: ws → decode w = .ok i →
    step s = exec i { s with pending := ws }) ∧
  (∀ (s : State) (i : Instr), i.wellFormed = true →
    step (s.withFetchWord 64 (encode i).toNat) = exec i { s with pending := s.pending.tail })

/-- O6. The model's choice (log entry 11; from R93, R96): a term of Instr with an operand outside its range
is no word's meaning, and `exec` gives it what its illegal word gets. -/
def Obligations.OutOfRangeOperandsFailIllegal : Prop :=
  ∀ (i : Instr) (s : State), i.wellFormed = false →
    exec i s = .next { s with res := 4, errSeen := true, pc := s.pc + 1 }

/-- O7. The model's choice (log entry 2; from R27, R332): with no command issued the CORE waits and nothing
changes. -/
def Obligations.IdleStepWaits : Prop :=
  ∀ s : State, s.pending = [] → step s = .next s

/-! ### The whole machine -/

/-- O8. R27, R28, R290, R291, R292: every command ends in success (RES OK, ERRSEEN kept) or in failure (RES
one of the codes 1 to 4, ERRSEEN set), and in both pc advances by one. The only command with no next state
is a batch whose ranges overlap partially (R70). -/
def Obligations.EveryCommandEndsInSuccessOrFailure : Prop :=
  ∀ (i : Instr) (s : State),
    (∃ t, exec i s = .next t ∧ t.pc = s.pc + 1 ∧
      ((t.res = 0 ∧ t.errSeen = s.errSeen) ∨ (1 ≤ t.res.toNat ∧ t.res.toNat ≤ 4 ∧ t.errSeen = true))) ∨
    ((i = .benc ∨ i = .bdec) ∧ exec i s = .refused .partialOverlap)

/-- O9. R292: a failing command ends with a code in 1..4 and changes RES, ERRSEEN and pc and nothing else,
except that a CTXINIT failing E_NOCAP may have set CAPS; and it reads no memory byte (with any other memory it
does the same). -/
def Obligations.FailureChangesOnlyStatusAndPc : Prop :=
  ∀ (i : Instr) (s t : State), exec i s = .next t → t.res ≠ 0 →
    t.res.toNat ≤ 4 ∧
    (t = { s with res := t.res, errSeen := true, pc := s.pc + 1 } ∨
      (i = .ctxinit ∧ t.res = 2 ∧
        t = { s with capQ := t.capQ, capV := true, res := 2, errSeen := true, pc := s.pc + 1 })) ∧
    ∀ m : Memory, exec i { s with mem := m } = .next { t with mem := m }

/-- O10. From R293, R294, R295, R297, R298, R300: the code a command reports is the first of its causes in the
order E_ILLEGAL, E_PRECOND, E_CTX (E_NOCAP from CTXINIT only), and OK when it has none. The E_ILLEGAL clause is the
model's choice of log entry 11: it is about a term of Instr with an operand outside its range. Illegal words,
those with a must-be-zero field set among them, fail E_ILLEGAL by O3. -/
def Obligations.FailureCauseAndPriority : Prop :=
  ∀ (i : Instr) (s : State),
    (∀ t, exec i s = .next t → t.res = resultCode i s) ∧
    (resultCode i s ≠ 0 → ∃ t, exec i s = .next t)

/-- O11. R20, R21 to R26: the "written by" column. A register changes only through the commands listed for
it. -/
def Obligations.RegistersWrittenOnlyByTheirCommands : Prop :=
  ∀ (i : Instr) (s t : State), exec i s = .next t →
    (t.sReg ≠ s.sReg → i.mnemonic ∈ writesS) ∧
    (t.sk ≠ s.sk → i.mnemonic ∈ ["KSSQZ", "KEYSCHED", "LDSK", "KWIPE"]) ∧
    (t.kss ≠ s.kss → i.mnemonic ∈ ["KSINIT", "KSPRND", "KSPERM", "KSSQZ", "KEYSCHED"]) ∧
    (t.v ≠ s.v → i.mnemonic ∈ writesV) ∧
    (t.bk ≠ s.bk → i.mnemonic ∈ ["CTXINIT", "CTXCLR"]) ∧
    (t.brc ≠ s.brc → i.mnemonic ∈ ["CTXINIT", "CTXCLR"]) ∧
    (t.ck ≠ s.ck → i.mnemonic ∈ ["CTXINIT", "CTXCLR"]) ∧
    (t.tag ≠ s.tag → i.mnemonic ∈ ["CTXINIT", "CTXCLR"]) ∧
    (t.src ≠ s.src → i.mnemonic = "SETSRC") ∧
    (t.dst ≠ s.dst → i.mnemonic = "SETDST") ∧
    (t.cnt ≠ s.cnt → i.mnemonic = "SETCNT") ∧
    (t.capQ ≠ s.capQ ∨ t.capV ≠ s.capV → i.mnemonic = "CTXINIT") ∧
    t.pending = s.pending ∧ t.capUsable = s.capUsable

/-- O12. R62, R68: the bytes a command can change are those of its output range, `storeSize` bytes from DST
up, modulo 2^32; a command that stores nothing changes no byte. -/
def Obligations.MemoryWrittenOnlyInOutputRange : Prop :=
  ∀ (i : Instr) (s t : State), exec i s = .next t →
    ∀ a : Addr, storeSize i s ≤ (a - s.dst).toNat → t.mem.byteAt a = s.mem.byteAt a

/-- O13. R68, R69, R74: what a command does depends on no byte outside its input range, `loadSize` bytes
from SRC up. With another memory that agrees there, it ends in the same state, writes the same bytes to its
output range, and leaves the other memory's bytes elsewhere. -/
def Obligations.MemoryReadOnlyInInputRange : Prop :=
  ∀ (i : Instr) (s t : State) (m : Memory), exec i s = .next t →
    (∀ a : Addr, (a - s.src).toNat < loadSize i s → m.byteAt a = s.mem.byteAt a) →
    ∃ t', exec i { s with mem := m } = .next t' ∧ t' = { t with mem := t'.mem } ∧
      (t.res = 0 → ∀ a : Addr, (a - s.dst).toNat < storeSize i s → t'.mem.byteAt a = t.mem.byteAt a) ∧
      ∀ a : Addr, storeSize i s ≤ (a - s.dst).toNat → t'.mem.byteAt a = m.byteAt a

/-- O14. R29, R37: the first CTXINIT samples `cap_usable` into CAPQ and sets CAPV; no other command touches
the pair, and once CAPV is 1 it never changes. -/
def Obligations.CapabilityIsLatchedOnce : Prop :=
  ∀ (i : Instr) (s t : State), exec i s = .next t →
    (s.capV = true → t.capQ = s.capQ ∧ t.capV = true) ∧
    (s.capV = false → i = .ctxinit → t.capQ = s.capUsable ∧ t.capV = true) ∧
    (s.capV = false → i ≠ .ctxinit → t.capQ = s.capQ ∧ t.capV = false)

/-- O15. R28, R302: ERRSEEN is sticky and records every failure. At the end of a run it is clear exactly
when it was clear at the start and every command of the run ended with OK. -/
def Obligations.ErrSeenRecordsEveryFailure : Prop :=
  ∀ (is : List Instr) (s t : State), runAll is s = .next t →
    (NoFailureRecorded t ↔ NoFailureRecorded s ∧
      ∀ k, k < is.length → ∃ u, runAll (is.take (k + 1)) s = .next u ∧ u.res = 0)

/-- O16. R330: reset puts every piece of state of R20 to zero. -/
def Obligations.ResetIsAllZero : Prop :=
  (∀ i j : Fin 4, State.reset.sReg.word i j = 0) ∧
  (∀ (k : Fin 24) (i j : Fin 4), (State.reset.sk[k.val]).word i j = 0) ∧
  (∀ (i : Fin 4) (j : Fin 8), State.reset.kss.word i j = 0) ∧
  (∀ (n : Fin 16) (l : Fin 8), State.reset.v.word n l = 0) ∧
  ContextClear State.reset ∧ State.reset.tag = 0 ∧
  State.reset.src = 0 ∧ State.reset.dst = 0 ∧ State.reset.cnt = 0 ∧
  State.reset.res = 0 ∧ State.reset.errSeen = false ∧
  State.reset.capV = false ∧ State.reset.capQ = false ∧ State.reset.pc = 0

/-- O17. R28, R29, R36: the five read ports, the bits of STATUS and CAPS, and 0 at every other number. -/
def Obligations.HostReadPorts : Prop :=
  ∀ s : State,
    (readPort s 0).toNat = s.res.toNat + 16 * s.errSeen.toNat ∧
    readPort s 1 = s.src ∧ readPort s 2 = s.dst ∧ readPort s 3 = s.cnt ∧
    (readPort s 4).toNat = s.capQ.toNat + 2 * s.capV.toNat ∧
    ∀ n, 5 ≤ n → readPort s n = 0

/-- O18. R330: the invariant holds at reset. -/
def Obligations.InvHoldsAtReset : Prop := Inv State.reset

/-- O19. R25, R28, R29, R62, R212, R297, R298: every step keeps the invariant: memory in its canonical form
(log entry 3), no code above 4, a failure recorded in ERRSEEN, TAG one of 0 and CTX_TAG, a valid context the
one CTXINIT builds from the schedule it caches, an invalid one without residue, and no valid context without
the capability. -/
def Obligations.StepKeepsInv : Prop :=
  ∀ s t : State, Inv s → step s = .next t → Inv t

/-- O20. R61, R62: a read of `n` bytes gives the bytes at `(addr + k) mod 2^32` in order, and after a write
of at most 2^32 bytes those addresses read as the bytes written and every other address as before. -/
def Obligations.MemoryReadsWhatWasWritten : Prop :=
  (∀ (m : Memory) (a : Addr) (n : Nat), (m.readBytes a n).length = n ∧
    ∀ k, k < n → (m.readBytes a n)[k]? = some (m.byteAt (offset a k))) ∧
  (∀ (m : Memory) (a : Addr) (bs : List Byte), bs.length ≤ 2 ^ 32 →
    Stores m a bs.length (fun k => bs[k.val]) (m.writeBytes a bs))

/-! ### Housekeeping -/

/-- O21. R270 to R273, R92: NOP, SETSRC, SETDST and SETCNT complete in every state; they write the operand
register they name, STATUS and pc, and nothing else. So do their words, with every immediate as it stands. -/
def Obligations.HousekeepingCommandsWriteTheirRegister : Prop :=
  ∀ (s : State) (imm : Word),
    exec .nop s = .next { s with res := 0, pc := s.pc + 1 } ∧
    exec (.setsrc imm) s = .next { s with src := imm, res := 0, pc := s.pc + 1 } ∧
    exec (.setdst imm) s = .next { s with dst := imm, res := 0, pc := s.pc + 1 } ∧
    exec (.setcnt imm) s = .next { s with cnt := imm, res := 0, pc := s.pc + 1 } ∧
    ∀ ws : List Cmd,
      step { s with pending := 0x0100000000000000 :: ws } =
        .next { s with pending := ws, res := 0, pc := s.pc + 1 } ∧
      step { s with pending := ((0x02000000 : BitVec 32) ++ imm) :: ws } =
        .next { s with pending := ws, src := imm, res := 0, pc := s.pc + 1 } ∧
      step { s with pending := ((0x03000000 : BitVec 32) ++ imm) :: ws } =
        .next { s with pending := ws, dst := imm, res := 0, pc := s.pc + 1 } ∧
      step { s with pending := ((0x04000000 : BitVec 32) ++ imm) :: ws } =
        .next { s with pending := ws, cnt := imm, res := 0, pc := s.pc + 1 }

/-- O22. R274, R30: ROMRD writes the four bytes of the word its table and index name at DST, little-endian,
for every legal table and index and any DST, and changes nothing else. -/
def Obligations.RomrdStoresTheRomWord : Prop :=
  ∀ s : State,
    let Writes (i : Instr) (x : Word) : Prop := ∃ t, exec i s = .next t ∧
      t = { s with mem := t.mem, res := 0, pc := s.pc + 1 } ∧
      Stores s.mem s.dst 4 (fun k => wordByte x k.val) t.mem
    (∀ n : Fin 352, Writes (.romrd 0 (BitVec.ofNat 32 n.val)) (Config.romRc n)) ∧
    (∀ n : Fin 24, Writes (.romrd 1 (BitVec.ofNat 32 n.val)) (Config.romKsi n)) ∧
    (∀ n : Fin 64, Writes (.romrd 2 (BitVec.ofNat 32 n.val)) (Config.romKsp n)) ∧
    (∀ n : Fin 736, Writes (.romrd 3 (BitVec.ofNat 32 n.val)) (Config.romKsd n))

/-! ### ARX mixers -/

/-- O23. R9: the rotations are the formulas on unbounded integers taken modulo 2^32, each undoes the other,
and the amounts of the CORE are the twelve of the three sets, all in 1..31. -/
def Obligations.RotationsAreTheNumberFormulas : Prop :=
  (∀ (x : Word) (r : Nat), 1 ≤ r → r ≤ 31 →
    (ror x r).toNat = (x.toNat >>> r ||| x.toNat <<< (32 - r)) % 2 ^ 32 ∧
    (rol x r).toNat = (x.toNat <<< r ||| x.toNat >>> (32 - r)) % 2 ^ 32 ∧
    rol (ror x r) r = x ∧ ror (rol x r) r = x) ∧
  ([MixSet.g, .h, .k].map fun X => (List.finRange 4).map (Machine.rotation X)) =
    [[13, 19, 23, 29], [9, 17, 21, 27], [11, 19, 23, 29]] ∧
  (∀ (X : MixSet) (n : Fin 4), 1 ≤ Machine.rotation X n ∧ Machine.rotation X n ≤ 31)

/-- O24. R120, R121, R122: the three forward and the three inverse mixes are the listings with their
rotation amounts. -/
def Obligations.MixFunctionsFollowTheListings : Prop :=
  ∀ a b c d : Word,
    mix .g ⟨a, b, c, d⟩ = mixListing 13 19 23 29 a b c d ∧
    mix .h ⟨a, b, c, d⟩ = mixListing 9 17 21 27 a b c d ∧
    mix .k ⟨a, b, c, d⟩ = mixListing 11 19 23 29 a b c d ∧
    imix .g ⟨a, b, c, d⟩ = imixListing 13 19 23 29 a b c d ∧
    imix .h ⟨a, b, c, d⟩ = imixListing 9 17 21 27 a b c d ∧
    imix .k ⟨a, b, c, d⟩ = imixListing 11 19 23 29 a b c d

/-- O25. R123: for every set each mix undoes the other, so X is a bijection on 128 bits. -/
def Obligations.MixersInvertEachOther : Prop :=
  ∀ X : MixSet, (∀ q : Quad, imix X (mix X q) = q) ∧ (∀ q : Quad, mix X (imix X q) = q) ∧
    Function.Bijective (mix X)

/-- O26. R124 to R130: each of the six mixer commands, at every column and with either relabel flag, writes
its function of the column's four words in their roles (row 0 playing `a` with w = 0, row 2 with w = 1), each
result to the row it came from; the other twelve words and all other state are unchanged. -/
def Obligations.MixerCommandsMixOneColumn : Prop :=
  ∀ p ∈ mixerCommands, ∀ (c : Fin 4) (s : State),
    (∃ t, exec (p.1 (columnNo c) 0) s = .next t ∧ t = { s with sReg := t.sReg, res := 0, pc := s.pc + 1 } ∧
      (⟨t.sReg.word 0 c, t.sReg.word 1 c, t.sReg.word 2 c, t.sReg.word 3 c⟩ : Quad) =
        p.2 ⟨s.sReg.word 0 c, s.sReg.word 1 c, s.sReg.word 2 c, s.sReg.word 3 c⟩ ∧
      ∀ i j, j ≠ c → t.sReg.word i j = s.sReg.word i j) ∧
    (∃ t, exec (p.1 (columnNo c) 1) s = .next t ∧ t = { s with sReg := t.sReg, res := 0, pc := s.pc + 1 } ∧
      (⟨t.sReg.word 2 c, t.sReg.word 3 c, t.sReg.word 0 c, t.sReg.word 1 c⟩ : Quad) =
        p.2 ⟨s.sReg.word 2 c, s.sReg.word 3 c, s.sReg.word 0 c, s.sReg.word 1 c⟩ ∧
      ∀ i j, j ≠ c → t.sReg.word i j = s.sReg.word i j)

/-! ### Scalar round engine -/

/-- O27. R145, R146, R155, R31: SUBC XORs S with the round's 16 constants, ARK with the subkey of SK, word by
word; nothing else changes. -/
def Obligations.SubcAndArkXorTheState : Prop :=
  ∀ s : State,
    (∀ r : Fin 22, ∃ t, exec (.subc (roundNo r)) s = .next t ∧
      t = { s with sReg := t.sReg, res := 0, pc := s.pc + 1 } ∧
      ∀ i j : Fin 4, t.sReg.word i j =
        s.sReg.word i j ^^^ Config.romRc ⟨16 * r.val + 4 * i.val + j.val, by omega⟩) ∧
    (∀ k : Fin 24, ∃ t, exec (.ark (keyNo k)) s = .next t ∧
      t = { s with sReg := t.sReg, res := 0, pc := s.pc + 1 } ∧
      ∀ i j : Fin 4, t.sReg.word i j = s.sReg.word i j ^^^ (s.sk[k.val]).word i j)

/-- O28. R141, R142, R151, R152: COLMIX equals the mixer commands `MIXG c,0 ; MIXH c,0 ; MIXH c,1 ; MIXG c,1`
for the four columns, and ICOLMIX the inverse ones in exact reverse order; only S, STATUS and pc change. -/
def Obligations.ColumnMixEqualsMixerCommands : Prop :=
  ∀ s : State,
    (∃ t, runAll ((List.finRange 4).flatMap fun c =>
        [.mixg (columnNo c) 0, .mixh (columnNo c) 0, .mixh (columnNo c) 1, .mixg (columnNo c) 1]) s = .next t ∧
      t = { s with sReg := t.sReg, res := 0, pc := s.pc + 16 } ∧
      exec .colmix s = .next { t with pc := s.pc + 1 }) ∧
    (∃ t, runAll ((List.finRange 4).flatMap fun c =>
        [.imixg (columnNo c) 1, .imixh (columnNo c) 1, .imixh (columnNo c) 0, .imixg (columnNo c) 0]) s = .next t ∧
      t = { s with sReg := t.sReg, res := 0, pc := s.pc + 16 } ∧
      exec .icolmix s = .next { t with pc := s.pc + 1 })

/-- O29. R143, R144, R153, R154: SHROWS rotates row i left by i, `new S[i][j] = old S[i][(j + i) mod 4]`, and
ISHROWS right (sums and differences of columns are modulo 4); four SHROWS restore S. -/
def Obligations.ShiftRowsMovesWords : Prop :=
  ∀ s : State,
    (∃ t, exec .shrows s = .next t ∧ t = { s with sReg := t.sReg, res := 0, pc := s.pc + 1 } ∧
      ∀ i j : Fin 4, t.sReg.word i j = s.sReg.word i (j + i)) ∧
    (∃ t, exec .ishrows s = .next t ∧ t = { s with sReg := t.sReg, res := 0, pc := s.pc + 1 } ∧
      ∀ i j : Fin 4, t.sReg.word i j = s.sReg.word i (j - i)) ∧
    runAll [.shrows, .shrows, .shrows, .shrows] s = .next { s with res := 0, pc := s.pc + 4 }

/-- O30. R147, R148, R156, R157: FROUND r equals `SUBC r ; COLMIX ; SHROWS ; ARK r`, and IROUND r equals
`ARK r ; ISHROWS ; ICOLMIX ; SUBC r`, for every legal r. -/
def Obligations.RoundsEqualStageCommands : Prop :=
  ∀ (s : State) (r : Fin 22),
    (∃ t, runAll [.subc (roundNo r), .colmix, .shrows, .ark (roundNo r)] s = .next t ∧
      t = { s with sReg := t.sReg, res := 0, pc := s.pc + 4 } ∧
      exec (.fround (roundNo r)) s = .next { t with pc := s.pc + 1 }) ∧
    (∃ t, runAll [.ark (roundNo r), .ishrows, .icolmix, .subc (roundNo r)] s = .next t ∧
      t = { s with sReg := t.sReg, res := 0, pc := s.pc + 4 } ∧
      exec (.iround (roundNo r)) s = .next { t with pc := s.pc + 1 })

/-- O31. R63, R67, R158, R159: LDBLK reads the 16 little-endian words at SRC row-major, STBLK writes those of
S at DST, wrapping past the top of memory; nothing else changes. -/
def Obligations.BlockTransfersAreLittleEndian : Prop :=
  ∀ s : State,
    (∃ t, exec .ldblk s = .next t ∧ t = { s with sReg := t.sReg, res := 0, pc := s.pc + 1 } ∧
      ∀ i j : Fin 4, (t.sReg.word i j).toNat = wordAt s.mem (offset s.src (16 * i.val + 4 * j.val))) ∧
    (∃ t, exec .stblk s = .next t ∧ t = { s with mem := t.mem, res := 0, pc := s.pc + 1 } ∧
      Stores s.mem s.dst 64 (blockByte s.sReg) t.mem)

/-- O32. R69, R160, R161: ENC and DEC put the cipher of the block at SRC, with the schedule SK, into S and
into the 64 bytes at DST, whatever the overlap; nothing else changes. -/
def Obligations.EncAndDecTransformOneBlock : Prop :=
  ∀ s : State,
    (∃ t, exec .enc s = .next t ∧ t = { s with sReg := t.sReg, mem := t.mem, res := 0, pc := s.pc + 1 } ∧
      t.sReg = encrypt Config.params s.sk (loadBlock s.mem s.src) ∧
      Stores s.mem s.dst 64 (blockByte t.sReg) t.mem) ∧
    (∃ t, exec .dec s = .next t ∧ t = { s with sReg := t.sReg, mem := t.mem, res := 0, pc := s.pc + 1 } ∧
      t.sReg = decrypt Config.params s.sk (loadBlock s.mem s.src) ∧
      Stores s.mem s.dst 64 (blockByte t.sReg) t.mem)

/-- O33. R149, R150, R160, R161: ENC equals `LDBLK ; ARK 0 ; FROUND 1 ; ... ; FROUND 22 ; ARK 23 ; STBLK` and
DEC equals `LDBLK ; ARK 23 ; IROUND 22 ; ... ; IROUND 1 ; ARK 0 ; STBLK`, in every state. -/
def Obligations.EncAndDecEqualCommandSequences : Prop :=
  ∀ s : State,
    (∃ t, runAll ([.ldblk, .ark 0] ++ froundsUp ++ [.ark 23, .stblk]) s = .next t ∧ t.pc = s.pc + 26 ∧
      exec .enc s = .next { t with pc := s.pc + 1 }) ∧
    (∃ t, runAll ([.ldblk, .ark 23] ++ iroundsDown ++ [.ark 0, .stblk]) s = .next t ∧ t.pc = s.pc + 26 ∧
      exec .dec s = .next { t with pc := s.pc + 1 })

/-- O34. R150, R6: Decrypt undoes Encrypt and Encrypt undoes Decrypt, for every block, every schedule and
every content of the ROM. -/
def Obligations.DecryptInvertsEncrypt : Prop :=
  ∀ (P : Params) (ks : Schedule) (X : Block),
    decrypt P ks (encrypt P ks X) = X ∧ encrypt P ks (decrypt P ks X) = X

/-- O35. R162 (1), (2): DEC of the output of ENC, with SK unchanged in between, reproduces the 64 input bytes, at
any third address and under any overlap; SUBC r twice and ARK k twice are the identity on S. (R162 (3), avalanche,
is by R162 itself not a rule of the model.) -/
def Obligations.RoundTripAndSelfInverse : Prop :=
  (∀ (s : State) (out : Addr), RoundTripsBlock s out) ∧
  (∀ r : Fin 22, SelfInverseOnS (.subc (roundNo r))) ∧
  (∀ k : Fin 24, SelfInverseOnS (.ark (keyNo k)))

/-- O36. R123, R127, R142, R144, R148: the inverse commands undo their partners: after both, either way
round, the state is as before but for STATUS.RES and pc. -/
def Obligations.ScalarInversesRestoreS : Prop :=
  ∀ p ∈ scalarInverses, ∀ s : State,
    runAll [p.1, p.2] s = .next { s with res := 0, pc := s.pc + 2 }

/-! ### Key schedule -/

/-- O37. R181, R32: KSINIT puts the eight little-endian words at SRC into row 0 of KSS and ROM_KSI into rows
1 to 3, row-major. -/
def Obligations.KsinitFillsTheState : Prop :=
  ∀ s : State, ∃ t, exec .ksinit s = .next t ∧ t = { s with kss := t.kss, res := 0, pc := s.pc + 1 } ∧
    (∀ j : Fin 8, (t.kss.word 0 j).toNat = wordAt s.mem (offset s.src (4 * j.val))) ∧
    (∀ (i : Fin 3) (j : Fin 8), t.kss.word i.succ j = Config.romKsi ⟨8 * i.val + j.val, by omega⟩)

/-- O38. R182, R33: KSPRND j adds its constants into the four diagonal words (giving `A`), applies K to the
eight columns (giving `B`), then K to the two wrapped groups of each row. -/
def Obligations.KsprndRunsItsThreeSteps : Prop :=
  ∀ (s : State) (n : Fin 16), ∃ (t : State) (A B : Mat 4 8),
    exec (.ksprnd (innerNo n)) s = .next t ∧ t = { s with kss := t.kss, res := 0, pc := s.pc + 1 } ∧
    (∀ (i : Fin 4) (j : Fin 8), A.word i j =
      if j.val = i.val then s.kss.word i j + Config.romKsp ⟨4 * n.val + i.val, by omega⟩ else s.kss.word i j) ∧
    (∀ j : Fin 8, (⟨B.word 0 j, B.word 1 j, B.word 2 j, B.word 3 j⟩ : Quad) =
      mixQuad 11 19 23 29 ⟨A.word 0 j, A.word 1 j, A.word 2 j, A.word 3 j⟩) ∧
    (∀ (i : Fin 4) (g : Nat), g = 0 ∨ g = 4 → rowWords t.kss i g = mixQuad 11 19 23 29 (rowWords B i g))

/-- O39. R183: KSPERM equals `KSPRND 0 ; ... ; KSPRND 15`, and the permutation is a bijection on the 1024-bit
state, whatever the constants. -/
def Obligations.KspermIsSixteenRoundsAndBijective : Prop :=
  (∀ s : State, ∃ t, runAll ksprnds s = .next t ∧ t = { s with kss := t.kss, res := 0, pc := s.pc + 16 } ∧
    exec .ksperm s = .next { t with pc := s.pc + 1 }) ∧
  ∀ P : Params, Function.Bijective (permute P)

/-- O40. R184, R34: KSSQZ i copies the first four columns of KSS into subkey i and no other subkey changes;
for i < 23 it then adds i + 1 into the four words of KS_CTR_POS, XORs the chunk of ROM_KSD (giving `M`) and
runs the 16 internal rounds; KSSQZ 23 leaves KSS unchanged. -/
def Obligations.KssqzSqueezesOneSubkey : Prop :=
  ∀ (s : State) (n : Fin 24), ∃ t, exec (.kssqz (keyNo n)) s = .next t ∧
    t = { s with sk := t.sk, kss := t.kss, res := 0, pc := s.pc + 1 } ∧
    (∀ i j : Fin 4, (t.sk[n.val]).word i j = s.kss.word i (j.castLE (by decide))) ∧
    (∀ k : Fin 24, k ≠ n → t.sk[k.val] = s.sk[k.val]) ∧
    (n.val = 23 → t.kss = s.kss) ∧
    (∀ h : n.val < 23, ∃ (M : Mat 4 8) (u : State),
      (∀ (i : Fin 4) (j : Fin 8), M.word i j =
        (s.kss.word i j + if ∃ p, Config.ctrPos p = (i, j) then BitVec.ofNat 32 (n.val + 1) else 0)
          ^^^ Config.romKsd ⟨32 * n.val + 8 * i.val + j.val, by omega⟩) ∧
      runAll ksprnds { s with kss := M } = .next u ∧ t.kss = u.kss)

/-- O41. R185, R186: KEYSCHED equals `KSINIT ; KSPERM ; KSSQZ 0 ; ... ; KSSQZ 23` followed by clearing KSS;
S, V, the context and everything else are unchanged. -/
def Obligations.KeyschedEqualsStepCommands : Prop :=
  ∀ s : State, ∃ t, runAll ([.ksinit, .ksperm] ++ kssqzs) s = .next t ∧
    exec .keysched s = .next { s with sk := t.sk, kss := Mat.zero, res := 0, pc := s.pc + 1 }

/-- O42. R185: the schedule KEYSCHED leaves depends on the 32 key bytes alone: two states with the same key
bytes, wherever they stand and whatever else differs, end with the same 24 subkeys. -/
def Obligations.KeyScheduleIsDeterministic : Prop :=
  ∀ s s' : State, (∀ k, k < 32 → s.mem.byteAt (offset s.src k) = s'.mem.byteAt (offset s'.src k)) →
    ∃ t t', exec .keysched s = .next t ∧ exec .keysched s' = .next t' ∧ t.sk = t'.sk ∧ t.kss = t'.kss

/-- O43. R187, R188, R189, R67: KWIPE sets SK to zero; LDSK loads the subkey image at SRC; STSK writes it at
DST; STSK then LDSK from the same address leaves SK as it was. Nothing else changes. -/
def Obligations.ScheduleWipeLoadAndStore : Prop :=
  ∀ s : State,
    (∃ t, exec .kwipe s = .next t ∧ t = { s with sk := t.sk, res := 0, pc := s.pc + 1 } ∧
      ∀ (k : Fin 24) (i j : Fin 4), (t.sk[k.val]).word i j = 0) ∧
    (∃ t, exec .ldsk s = .next t ∧ t = { s with sk := t.sk, res := 0, pc := s.pc + 1 } ∧
      ∀ (k : Fin 24) (i j : Fin 4), ((t.sk[k.val]).word i j).toNat =
        wordAt s.mem (offset s.src (64 * k.val + 16 * i.val + 4 * j.val))) ∧
    (∃ t, exec .stsk s = .next t ∧ t = { s with mem := t.mem, res := 0, pc := s.pc + 1 } ∧
      Stores s.mem s.dst 1536 (scheduleByte s.sk) t.mem) ∧
    (∃ t, runAll [.stsk, .setsrc s.dst, .ldsk] s = .next t ∧ t.sk = s.sk)

/-! ### Context -/

/-- O44. R211, R25, R29: CTXINIT answers by the cached capability answer, sampling `cap_usable` first when
none is cached: with "usable" it builds the context from SK, with "unusable" it fails E_NOCAP, the context
unchanged. The answer is cached either way. -/
def Obligations.CtxinitBuildsTheContextOrFails : Prop :=
  ∀ s : State,
    ((if s.capV then s.capQ else s.capUsable) = true → ∃ t, exec .ctxinit s = .next t ∧
      t = { s with
        bk := t.bk, brc := t.brc, ck := s.sk, tag := Config.ctxTag, capQ := true, capV := true, res := 0,
        pc := s.pc + 1 } ∧ ContextOf s.sk t) ∧
    ((if s.capV then s.capQ else s.capUsable) = false →
      exec .ctxinit s = .next { s with capQ := false, capV := true, res := 2, errSeen := true, pc := s.pc + 1 })

/-- O45. R212, R298, and for the codes R238, R294, R295, R300: CTXCLR leaves the wide registers, the context
and the tag zero and everything else as it
was, in any state, and running it again changes nothing but pc. After it, as long as no CTXINIT has succeeded (the
commands run since hold none, or the capability answer is "unusable", so that each one failed), every run of
commands completes, the wide registers, the context and the tag are still zero, and the next command of 0x42 to
0x53 fails and changes nothing else: with E_CTX, unless its operand is out of range (E_ILLEGAL) or an operand
register it uses is null or zero (E_PRECOND). The E_ILLEGAL clause is the model's choice of log entry 11: it is about
a term of Instr with an operand outside its range (illegal words are O3's). -/
def Obligations.CtxclrLeavesNoResidue : Prop :=
  ∀ s : State, ∃ t, exec .ctxclr s = .next t ∧
    t = { s with v := t.v, bk := t.bk, brc := t.brc, ck := t.ck, tag := 0, res := 0, pc := s.pc + 1 } ∧
    (∀ (n : Fin 16) (l : Fin 8), t.v.word n l = 0) ∧ ContextClear t ∧
    exec .ctxclr t = .next { t with pc := t.pc + 1 } ∧
    ∀ is : List Instr, (.ctxinit ∉ is ∨ (if s.capV then s.capQ else s.capUsable) = false) →
      ∃ u, runAll is t = .next u ∧ (∀ (n : Fin 16) (l : Fin 8), u.v.word n l = 0) ∧ ContextClear u ∧ u.tag = 0 ∧
        ∀ i : Instr, i.mnemonic ∈ needContext → ∃ w, exec i u = .next w ∧
          w = { u with res := w.res, errSeen := true, pc := u.pc + 1 } ∧
          w.res = if i.wellFormed = false then 4 else if lacksOperand i u then 1 else 3

/-- O46. R25, R227, R341: the commands 0x42 to 0x53 never read SK or KSS: with any other schedule they end
the same way, in the same state but for the schedule, which they leave alone. -/
def Obligations.VectorCommandsIgnoreTheCurrentSchedule : Prop :=
  ∀ (i : Instr) (s : State) (ks : Schedule) (k : Mat 4 8), i.mnemonic ∈ needContext →
    (∀ t, exec i s = .next t → exec i { s with sk := ks, kss := k } = .next { t with sk := ks, kss := k }) ∧
    (∀ r, exec i s = .refused r → exec i { s with sk := ks, kss := k } = .refused r)

/-! ### Transpose unit -/

/-- O47. R215: the network transposes the 8x8 matrix of lanes, so it is its own inverse. -/
def Obligations.NetworkTransposesTheLanes : Prop :=
  ∀ A : Vector Wide 8,
    (∀ m b : Fin 8, ((xp8 A)[m.val])[b.val] = (A[b.val])[m.val]) ∧ xp8 (xp8 A) = A

/-- O48. R216, R217: with a valid context VXPOSE and VIXPOSE complete and move words as their closed forms
say; nothing else changes. -/
def Obligations.TransposeCommandsHaveTheClosedForms : Prop :=
  ∀ s : State, ContextValid s →
    (∃ t, exec .vxpose s = .next t ∧ t = { s with v := t.v, res := 0, pc := s.pc + 1 } ∧
      ∀ (h : Fin 2) (m b : Fin 8),
        t.v.word ⟨8 * h.val + m.val, by omega⟩ b = s.v.word ⟨2 * b.val + h.val, by omega⟩ m) ∧
    (∃ t, exec .vixpose s = .next t ∧ t = { s with v := t.v, res := 0, pc := s.pc + 1 } ∧
      ∀ (h : Fin 2) (m b : Fin 8),
        t.v.word ⟨2 * b.val + h.val, by omega⟩ m = s.v.word ⟨8 * h.val + m.val, by omega⟩ b)

/-- O49. R213, R219: with a valid context, VLDRAW (SRC not 0) reads the 128 little-endian words at SRC into
the wide registers, register by register and lane by lane, and VSTRAW (DST not 0) writes them to the 512
bytes at DST; nothing else changes. -/
def Obligations.RawLoadAndStore : Prop :=
  ∀ s : State, ContextValid s →
    (s.src ≠ 0 → ∃ t, exec .vldraw s = .next t ∧ t = { s with v := t.v, res := 0, pc := s.pc + 1 } ∧
      ∀ (n : Fin 16) (l : Fin 8), (t.v.word n l).toNat = wordAt s.mem (offset s.src (32 * n.val + 4 * l.val))) ∧
    (s.dst ≠ 0 → ∃ t, exec .vstraw s = .next t ∧ t = { s with mem := t.mem, res := 0, pc := s.pc + 1 } ∧
      Stores s.mem s.dst 512 (wideByte s.v) t.mem) ∧
    (s.src ≠ 0 → s.dst ≠ 0 → ∃ t, runAll [.vldraw, .vstraw] s = .next t ∧
      ∀ k, k < 512 → t.mem.byteAt (offset s.dst k) = s.mem.byteAt (offset s.src k))

/-- O50. R218, R220, R221, R24: with a valid context, after VLOAD (SRC not 0) lane b holds the block at
SRC + 64*b, and it is VLDRAW then VXPOSE as one command; VSTORE (DST not 0) stores each lane's block at
DST + 64*b, leaves V in the raw layout, and is VIXPOSE then VSTRAW as one command. -/
def Obligations.VectorLoadAndStoreBlocks : Prop :=
  ∀ s : State, ContextValid s →
    (s.src ≠ 0 → ∃ t, exec .vload s = .next t ∧ t = { s with v := t.v, res := 0, pc := s.pc + 1 } ∧
      (∀ (b : Fin 8) (i j : Fin 4), (t.v.word (wordNo i j) b).toNat =
        wordAt s.mem (offset s.src (64 * b.val + 16 * i.val + 4 * j.val))) ∧
      runAll [.vldraw, .vxpose] s = .next { t with pc := s.pc + 2 }) ∧
    (s.dst ≠ 0 → ∃ t, exec .vstore s = .next t ∧
      t = { s with v := t.v, mem := t.mem, res := 0, pc := s.pc + 1 } ∧
      Stores s.mem s.dst 512
        (fun k => blockByte (laneM s.v ⟨k.val / 64, by omega⟩) ⟨k.val % 64, by omega⟩) t.mem ∧
      runAll [.vixpose, .vstraw] s = .next { t with pc := s.pc + 2 })

/-! ### Vector rounds -/

/-- O51. R222, R227: with a valid context VSUBC r XORs the sixteen wide registers with BRC[r] and VARK k with
BK[k], word by word; nothing else changes. -/
def Obligations.VectorXorsReadTheContext : Prop :=
  ∀ s : State, ContextValid s →
    (∀ r : Fin 22, ∃ t, exec (.vsubc (roundNo r)) s = .next t ∧
      t = { s with v := t.v, res := 0, pc := s.pc + 1 } ∧
      ∀ (n : Fin 16) (l : Fin 8), t.v.word n l = s.v.word n l ^^^ (s.brc[r.val]).word n l) ∧
    (∀ k : Fin 24, ∃ t, exec (.vark (keyNo k)) s = .next t ∧ t = { s with v := t.v, res := 0, pc := s.pc + 1 } ∧
      ∀ (n : Fin 16) (l : Fin 8), t.v.word n l = s.v.word n l ^^^ (s.bk[k.val]).word n l)

/-- O52. R210, R223 to R226: with a valid context VCOLMIX and VICOLMIX leave in every lane what the scalar
COLMIX and ICOLMIX leave in S for that lane's block; VSHROWS and VISHROWS reassign registers,
`new V[4*i + j] = old V[4*i + ((j + i) mod 4)]` and `(j - i) mod 4` (sums modulo 4). Nothing else changes. -/
def Obligations.VectorMixAndShiftActLaneWise : Prop :=
  ∀ s : State, ContextValid s →
    (∃ t, exec .vcolmix s = .next t ∧ t = { s with v := t.v, res := 0, pc := s.pc + 1 } ∧
      ∀ l : Fin 8, ∃ u, exec .colmix { s with sReg := laneM s.v l } = .next u ∧ laneM t.v l = u.sReg) ∧
    (∃ t, exec .vicolmix s = .next t ∧ t = { s with v := t.v, res := 0, pc := s.pc + 1 } ∧
      ∀ l : Fin 8, ∃ u, exec .icolmix { s with sReg := laneM s.v l } = .next u ∧ laneM t.v l = u.sReg) ∧
    (∃ t, exec .vshrows s = .next t ∧ t = { s with v := t.v, res := 0, pc := s.pc + 1 } ∧
      ∀ (i j : Fin 4) (l : Fin 8), t.v.word (wordNo i j) l = s.v.word (wordNo i (j + i)) l) ∧
    (∃ t, exec .vishrows s = .next t ∧ t = { s with v := t.v, res := 0, pc := s.pc + 1 } ∧
      ∀ (i j : Fin 4) (l : Fin 8), t.v.word (wordNo i j) l = s.v.word (wordNo i (j - i)) l)

/-- O53. R228 to R231: with a valid context, VFROUND r equals `VSUBC r ; VCOLMIX ; VSHROWS ; VARK r`, VIROUND
r equals `VARK r ; VISHROWS ; VICOLMIX ; VSUBC r`, VENC8 equals `VARK 0 ; VFROUND 1 ; ... ; VFROUND 22 ;
VARK 23` and VDEC8 equals `VARK 23 ; VIROUND 22 ; ... ; VIROUND 1 ; VARK 0`. -/
def Obligations.VectorRoundsEqualStageCommands : Prop :=
  ∀ s : State, ContextValid s →
    (∀ r : Fin 22, ∃ t, runAll [.vsubc (roundNo r), .vcolmix, .vshrows, .vark (roundNo r)] s = .next t ∧
      t = { s with v := t.v, res := 0, pc := s.pc + 4 } ∧
      exec (.vfround (roundNo r)) s = .next { t with pc := s.pc + 1 }) ∧
    (∀ r : Fin 22, ∃ t, runAll [.vark (roundNo r), .vishrows, .vicolmix, .vsubc (roundNo r)] s = .next t ∧
      t = { s with v := t.v, res := 0, pc := s.pc + 4 } ∧
      exec (.viround (roundNo r)) s = .next { t with pc := s.pc + 1 }) ∧
    (∃ t, runAll ([.vark 0] ++ vfroundsUp ++ [.vark 23]) s = .next t ∧
      t = { s with v := t.v, res := 0, pc := s.pc + 24 } ∧ exec .venc8 s = .next { t with pc := s.pc + 1 }) ∧
    (∃ t, runAll ([.vark 23] ++ viroundsDown ++ [.vark 0]) s = .next t ∧
      t = { s with v := t.v, res := 0, pc := s.pc + 24 } ∧ exec .vdec8 s = .next { t with pc := s.pc + 1 })

/-- O54. R25, R228 to R231: with the context CTXINIT builds from a schedule `ks`, VFROUND, VIROUND, VENC8 and
VDEC8 leave in every lane the scalar forward round, inverse round, Encrypt and Decrypt of that lane's block
under `ks`. -/
def Obligations.VectorEngineMatchesScalarEngine : Prop :=
  ∀ (s : State) (ks : Schedule), ContextValid s → ContextOf ks s →
    (∀ r : Fin 22, ∃ t, exec (.vfround (roundNo r)) s = .next t ∧
      ∀ l : Fin 8, laneM t.v l = fwdRound Config.params ks r (laneM s.v l)) ∧
    (∀ r : Fin 22, ∃ t, exec (.viround (roundNo r)) s = .next t ∧
      ∀ l : Fin 8, laneM t.v l = invRound Config.params ks r (laneM s.v l)) ∧
    (∃ t, exec .venc8 s = .next t ∧ ∀ l : Fin 8, laneM t.v l = encrypt Config.params ks (laneM s.v l)) ∧
    (∃ t, exec .vdec8 s = .next t ∧ ∀ l : Fin 8, laneM t.v l = decrypt Config.params ks (laneM s.v l))

/-- O55. R216, R217, R222 to R231: with a valid context, whatever the broadcast registers hold, each vector
command followed by its inverse leaves the state as it was but for STATUS.RES and pc. -/
def Obligations.VectorInversesRestoreV : Prop :=
  ∀ p ∈ vectorInverses, ∀ s : State, ContextValid s →
    runAll [p.1, p.2] s = .next { s with res := 0, pc := s.pc + 2 }

/-- O56. R210, R237: in every round command lane l of the result depends only on lane l of V, BK and BRC: two
states with valid contexts that agree in that lane, and may differ in everything else, end with the same
lane l. -/
def Obligations.LanesAreIndependent : Prop :=
  ∀ i ∈ roundCommands, ∀ (s s' : State) (l : Fin 8), ContextValid s → ContextValid s' →
    (∀ n : Fin 16, s.v.word n l = s'.v.word n l) →
    (∀ (k : Fin 24) (n : Fin 16), (s.bk[k.val]).word n l = (s'.bk[k.val]).word n l) →
    (∀ (r : Fin 22) (n : Fin 16), (s.brc[r.val]).word n l = (s'.brc[r.val]).word n l) →
    ∃ t t', exec i s = .next t ∧ exec i s' = .next t' ∧ ∀ n : Fin 16, t.v.word n l = t'.v.word n l

/-! ### Batch commands -/

/-- O57. R232, R233, R234, R238: with a valid context, SRC, DST and CNT not 0 and no partial overlap, BENC
and BDEC complete, with any count. They change S, V and memory only: V only when there is a full group, S
only when there is a tail. Where the ranges do not wrap onto themselves, V is left as the raw layout of the
last full group's output and S as the last output block, by the cipher with the cached schedule CK. -/
def Obligations.BatchCompletesAndLeavesItsResidue : Prop :=
  ∀ (s : State), ContextValid s → s.src ≠ 0 → s.dst ≠ 0 → s.cnt ≠ 0 →
    RangesAllowed s.src s.dst (64 * s.cnt.toNat) →
    ∀ p ∈ [(Instr.benc, wideEncrypt, encrypt), (Instr.bdec, wideDecrypt, decrypt)],
      ∃ t, exec p.1 s = .next t ∧
        t = { s with sReg := t.sReg, v := t.v, mem := t.mem, res := 0, pc := s.pc + 1 } ∧
        (s.cnt.toNat % 8 = 0 → t.sReg = s.sReg) ∧
        (s.cnt.toNat < 8 → t.v = s.v) ∧
        (64 * s.cnt.toNat ≤ 2 ^ 32 →
          (∀ x : Addr, 64 * s.cnt.toNat ≤ (x - s.dst).toNat → t.mem.byteAt x = s.mem.byteAt x) ∧
          (s.cnt.toNat % 8 ≠ 0 → t.sReg = p.2.2 Config.params s.ck
            (loadBlock s.mem (offset s.src (64 * (s.cnt.toNat - 1))))) ∧
          (8 ≤ s.cnt.toNat → t.v = untranspose (p.2.1 s.bk s.brc
            (transpose (loadMat 16 8 s.mem (offset s.src (512 * (s.cnt.toNat / 8 - 1))))))))

/-- O58. R235, R233: batch and scalar agree. With the context CTXINIT built from a schedule K, and input and output
disjoint or the same, BENC (BDEC) with any CNT ≥ 1 leaves the memory that ENC (DEC) of block 0, 1, ..., CNT - 1, one
after the other, leaves with SK = K. Where moreover 64*CNT ≤ 2^32, that is where the input range does not wrap onto
itself, every output block is, byte for byte, what ENC (DEC) of that input block alone gives. (A longer batch, which
can only be in place, meets blocks it has already written: log entry 16.) -/
def Obligations.BatchEqualsScalarPerBlock : Prop :=
  ∀ (s : State) (ks : Schedule), ContextValid s → ContextOf ks s →
    s.src ≠ 0 → s.dst ≠ 0 → s.cnt ≠ 0 → RangesAllowed s.src s.dst (64 * s.cnt.toNat) →
    ∀ p ∈ [(Instr.benc, Instr.enc), (Instr.bdec, Instr.dec)],
      ∃ t, exec p.1 s = .next t ∧ t.res = 0 ∧
        (∃ u, runAll (blockByBlock p.2 s.src s.dst s.cnt.toNat) { s with sk := ks } = .next u ∧
          ∀ a : Addr, t.mem.byteAt a = u.mem.byteAt a) ∧
        (64 * s.cnt.toNat ≤ 2 ^ 32 → ∀ n, n < s.cnt.toNat → ∃ u,
          exec p.2 { s with sk := ks, src := offset s.src (64 * n), dst := offset s.dst (64 * n) } = .next u ∧
          ∀ k, k < 64 → t.mem.byteAt (offset s.dst (64 * n + k)) = u.mem.byteAt (offset s.dst (64 * n + k)))

/-- O59. R70: BENC and BDEC whose checks pass and whose input and output ranges share a byte without starting
at the same address have no meaning: the model refuses them, as partial overlap (log entry 8), and it refuses no
other command, for any reason. -/
def Obligations.PartialOverlapIsRefused : Prop :=
  ∀ (i : Instr) (s : State) (r : Refusal), exec i s = .refused r ↔
    r = .partialOverlap ∧ (i = .benc ∨ i = .bdec) ∧ ContextValid s ∧
      s.src ≠ 0 ∧ s.dst ≠ 0 ∧ s.cnt ≠ 0 ∧ s.src ≠ s.dst ∧
      ∃ j k, j < 64 * s.cnt.toNat ∧ k < 64 * s.cnt.toNat ∧ offset s.src j = offset s.dst k

/-- O60. R234: BDEC from the output of BENC with the same count, any count, and the same context reproduces the
input bytes, at any third buffer that does not overlap the output partially. -/
def Obligations.BatchRoundTrip : Prop :=
  ∀ (s : State) (ks : Schedule) (out : Addr), ContextValid s → ContextOf ks s →
    s.src ≠ 0 → s.dst ≠ 0 → s.cnt ≠ 0 → out ≠ 0 →
    RangesAllowed s.src s.dst (64 * s.cnt.toNat) → RangesAllowed s.dst out (64 * s.cnt.toNat) →
    ∃ t, runAll [.benc, .setsrc s.dst, .setdst out, .bdec] s = .next t ∧ t.res = 0 ∧
      ∀ k, k < 64 * s.cnt.toNat → t.mem.byteAt (offset out k) = s.mem.byteAt (offset s.src k)
end

