-- ==== Sys2Proof/Laws/Matrix.lean ====
section
/-! SUPPORT. The small lemmas of matrices: what each operation's words are, and extensionality. -/

namespace Sys2Proof

@[simp] theorem Mat.word_ofFn {r c : Nat} (f : Fin r → Fin c → Word) (i : Fin r) (j : Fin c) :
    (Mat.ofFn f).word i j = f i j := by
  simp [Mat.ofFn, Mat.word]

@[simp] theorem Mat.word_zero {r c : Nat} (i : Fin r) (j : Fin c) : (Mat.zero : Mat r c).word i j = 0 := by
  simp [Mat.zero, Mat.word]

/-- Two matrices with the same words are equal. -/
theorem Mat.ext_word {r c : Nat} {X Y : Mat r c} (h : ∀ i j, X.word i j = Y.word i j) : X = Y := by
  cases X with | mk x => cases Y with | mk y =>
  congr 1
  apply Vector.ext
  intro i hi
  apply Vector.ext
  intro j hj
  exact h ⟨i, hi⟩ ⟨j, hj⟩

theorem Mat.ofFn_word {r c : Nat} (X : Mat r c) : Mat.ofFn X.word = X :=
  Mat.ext_word fun i j => Mat.word_ofFn X.word i j

namespace Machine

@[simp] theorem matXor_word {r c : Nat} (X Y : Mat r c) (i : Fin r) (j : Fin c) :
    (matXor X Y).word i j = X.word i j ^^^ Y.word i j := by simp [matXor]

/-- XOR with the same matrix twice is the identity. -/
@[simp] theorem matXor_matXor {r c : Nat} (X K : Mat r c) : matXor (matXor X K) K = X :=
  Mat.ext_word fun i j => by simp

@[simp] theorem matXor_zero {r c : Nat} (X : Mat r c) : matXor X Mat.zero = X :=
  Mat.ext_word fun i j => by simp

@[simp] theorem quadAt_zero (q : Quad) : quadAt q 0 = q.a := rfl
@[simp] theorem quadAt_one (q : Quad) : quadAt q 1 = q.b := rfl
@[simp] theorem quadAt_two (q : Quad) : quadAt q 2 = q.c := rfl
@[simp] theorem quadAt_three (q : Quad) : quadAt q 3 = q.d := rfl

/-- A quad is its four positions. -/
theorem quad_eta (q : Quad) : (⟨quadAt q 0, quadAt q 1, quadAt q 2, quadAt q 3⟩ : Quad) = q := rfl

/-- Two quads with the same four positions are equal. -/
theorem quad_ext {p q : Quad} (h : ∀ n, quadAt p n = quadAt q n) : p = q := by
  rw [← quad_eta p, ← quad_eta q, h 0, h 1, h 2, h 3]

@[simp] theorem relabel_relabel (q : Quad) : relabel (relabel q) = q := rfl

theorem quadAt_column {c : Nat} (X : Mat 4 c) (j : Fin c) (i : Fin 4) : quadAt (column X j) i = X.word i j := by
  fin_cases i <;> rfl

@[simp] theorem mapColumns_word {c : Nat} (f : Quad → Quad) (X : Mat 4 c) (i : Fin 4) (j : Fin c) :
    (mapColumns f X).word i j = quadAt (f (column X j)) i := by simp [mapColumns]

@[simp] theorem column_mapColumns {c : Nat} (f : Quad → Quad) (X : Mat 4 c) (j : Fin c) :
    column (mapColumns f X) j = f (column X j) :=
  quad_ext fun n => by rw [quadAt_column, mapColumns_word]

theorem mapColumns_comp {c : Nat} (f g : Quad → Quad) (X : Mat 4 c) :
    mapColumns f (mapColumns g X) = mapColumns (f ∘ g) X :=
  Mat.ext_word fun i j => by simp

theorem mapColumns_id {c : Nat} (f : Quad → Quad) (X : Mat 4 c) (h : ∀ q, f q = q) : mapColumns f X = X :=
  Mat.ext_word fun i j => by rw [mapColumns_word, h, quadAt_column]

@[simp] theorem setColumn_word {c : Nat} (X : Mat 4 c) (j : Fin c) (q : Quad) (i : Fin 4) (j' : Fin c) :
    (setColumn X j q).word i j' = if j' = j then quadAt q i else X.word i j' := by simp [setColumn]

@[simp] theorem column_setColumn_same {c : Nat} (X : Mat 4 c) (j : Fin c) (q : Quad) :
    column (setColumn X j q) j = q :=
  quad_ext fun n => by rw [quadAt_column, setColumn_word, if_pos rfl]

theorem column_setColumn_other {c : Nat} (X : Mat 4 c) (j j' : Fin c) (q : Quad) (h : j' ≠ j) :
    column (setColumn X j q) j' = column X j' :=
  quad_ext fun n => by rw [quadAt_column, setColumn_word, if_neg h, quadAt_column]

@[simp] theorem addWord_word {r c : Nat} (X : Mat r c) (i i' : Fin r) (j j' : Fin c) (x : Word) :
    (addWord X i j x).word i' j' = if i' = i ∧ j' = j then X.word i' j' + x else X.word i' j' := by
  simp [addWord]

@[simp] theorem blockWord_wordNo (X : Block) (i j : Fin 4) : blockWord X (wordNo i j) = X.word i j := by
  unfold blockWord wordNo
  congr 1 <;> apply Fin.ext <;> simp only <;> omega

/-- Every word number is the number of a position. -/
theorem wordNo_div_mod (n : Fin 16) : wordNo ⟨n.val / 4, by omega⟩ ⟨n.val % 4, by omega⟩ = n := by
  apply Fin.ext; simp only [wordNo]; omega

end Machine

end Sys2Proof
end

