-- ==== Sys2Proof/Laws/Memory.lean ====
section
/-! SUPPORT. Memory: reading after writing, the canonical form, and what a store of an image leaves
(20_memory.md R61 to R63, R67). -/

namespace Sys2Proof.Machine

/-! ### One byte -/

theorem Memory.read_dropWhile (m : Memory) (a x : Nat) :
    Memory.read (m.dropWhile fun c => c.1 ≤ a) x = if x ≤ a then Memory.unlisted else Memory.read m x := by
  induction m with
  | nil => simp [Memory.read]
  | cons c m ih =>
    obtain ⟨a', b'⟩ := c
    by_cases h : a' ≤ a
    · rw [List.dropWhile_cons_of_pos (by simpa using h), ih]
      split
      · rfl
      · rw [Memory.read, if_neg (by omega), if_neg (by omega)]
    · rw [List.dropWhile_cons_of_neg (by simpa using h)]
      by_cases hx : x ≤ a
      · rw [if_pos hx, Memory.read, if_pos (by omega)]
      · rw [if_neg hx]

/-- Reading after writing one byte, on every list. -/
theorem Memory.read_write (m : Memory) (a x : Nat) (b : Byte) :
    (m.write a b).read x = if x = a then b else m.read x := by
  induction m with
  | nil =>
    unfold Memory.write
    by_cases hb : b = Memory.unlisted
    · simp [hb, Memory.read]
    · simp only [if_neg hb, Memory.read]
      by_cases hx : x = a
      · simp [hx]
      · simp [hx]
  | cons c m ih =>
    obtain ⟨a', b'⟩ := c
    unfold Memory.write
    by_cases h1 : a < a'
    · rw [if_pos h1]
      by_cases hb : b = Memory.unlisted
      · rw [if_pos hb]
        by_cases hx : x = a
        · rw [if_pos hx, Memory.read, if_pos (by omega), hb]
        · rw [if_neg hx]
      · rw [if_neg hb, Memory.read]
        by_cases hx : x = a
        · simp [hx]
        · rw [if_neg hx]
          by_cases h2 : x < a
          · rw [if_pos h2, Memory.read, if_pos (by omega)]
          · rw [if_neg h2]
    · rw [if_neg h1]
      by_cases h2 : a = a'
      · rw [if_pos h2]
        by_cases hb : b = Memory.unlisted
        · rw [if_pos hb, Memory.read_dropWhile, Memory.read]
          by_cases hx : x = a
          · rw [if_pos (by omega), if_pos hx, hb]
          · by_cases hlt : x < a'
            · rw [if_pos (by omega), if_neg hx, if_pos hlt]
            · rw [if_neg (by omega), if_neg hx, if_neg hlt, if_neg (by omega)]
        · rw [if_neg hb, Memory.read, Memory.read]
          by_cases hx : x = a
          · simp [hx]
          · rw [if_neg hx, if_neg hx, h2]
            by_cases hlt : x < a'
            · rw [if_pos hlt, if_pos hlt]
            · rw [if_neg hlt, if_neg hlt, if_neg (by omega)]
      · rw [if_neg h2, Memory.read, Memory.read, ih]
        by_cases hx : x = a
        · rw [if_neg (by omega), if_neg (by omega), if_pos hx, if_pos hx]
        · rw [if_neg hx, if_neg hx]

theorem Memory.mem_write (m : Memory) (a : Nat) (b : Byte) (c : Host.Cell) (h : c ∈ m.write a b) :
    (c = (a, b) ∧ b ≠ Memory.unlisted) ∨ c ∈ m := by
  induction m with
  | nil =>
    unfold Memory.write at h
    split at h <;> simp_all
  | cons e m ih =>
    obtain ⟨a', b'⟩ := e
    unfold Memory.write at h
    split at h
    · split at h
      · exact .inr h
      · rcases List.mem_cons.1 h with h | h
        · exact .inl ⟨h, by assumption⟩
        · exact .inr h
    · split at h
      · split at h
        · exact .inr (List.mem_cons_of_mem _ (List.dropWhile_sublist _ |>.subset h))
        · rcases List.mem_cons.1 h with h | h
          · exact .inl ⟨h, by assumption⟩
          · exact .inr (List.mem_cons_of_mem _ h)
      · rcases List.mem_cons.1 h with h | h
        · exact .inr (h ▸ List.mem_cons_self)
        · rcases ih h with h | h
          · exact .inl h
          · exact .inr (List.mem_cons_of_mem _ h)

/-- Writing a byte keeps the canonical form. -/
theorem Memory.wf_write (m : Memory) (a : Nat) (b : Byte) (h : m.wf) (ha : a < 2 ^ 32) : (m.write a b).wf := by
  refine ⟨?_, fun c hc => ?_⟩
  · obtain ⟨hp, -⟩ := h
    induction m with
    | nil => unfold Memory.write; split <;> simp
    | cons e m ih =>
      obtain ⟨a', b'⟩ := e
      have hp' := List.pairwise_cons.1 hp
      unfold Memory.write
      split
      · split
        · exact hp
        · refine List.pairwise_cons.2 ⟨fun c hc => ?_, hp⟩
          rcases List.mem_cons.1 hc with hc | hc
          · subst hc; assumption
          · have := hp'.1 c hc; simp only at this ⊢; omega
      · split
        · split
          · exact hp'.2.sublist (List.dropWhile_sublist _)
          · rename_i haa _
            exact List.pairwise_cons.2 ⟨fun c hc => by have := hp'.1 c hc; simp only at this ⊢; omega, hp'.2⟩
        · refine List.pairwise_cons.2 ⟨fun c hc => ?_, ih hp'.2⟩
          rcases Memory.mem_write m a b c hc with ⟨hc, -⟩ | hc
          · subst hc; simp only; omega
          · exact hp'.1 c hc
  · rcases Memory.mem_write m a b c hc with ⟨rfl, hb⟩ | hc
    · exact ⟨ha, hb⟩
    · exact h.2 c hc

/-! ### Several bytes -/

/-- Writing bytes keeps the canonical form. -/
theorem Memory.wf_writeBytes (bs : List Byte) (m : Memory) (a : Addr) (h : m.wf) : (m.writeBytes a bs).wf := by
  induction bs generalizing m a with
  | nil => exact h
  | cons b bs ih => exact ih _ _ (Memory.wf_write m a.toNat b h a.isLt)

theorem addr_sub_succ (x a : Addr) (h : x ≠ a) : (x - a).toNat = (x - (a + 1)).toNat + 1 := by
  have h' : x.toNat ≠ a.toNat := fun e => h (BitVec.eq_of_toNat_eq e)
  have hx := x.isLt
  have ha := a.isLt
  have h1 : (1 : Addr).toNat = 1 := rfl
  simp only [BitVec.toNat_sub, BitVec.toNat_add, h1]
  omega

/-- What a write of bytes leaves at every address: the byte whose place it is, and elsewhere what was
there. The places are counted from the start upward modulo 2^32 (R62). -/
theorem Memory.byteAt_writeBytes (bs : List Byte) (m : Memory) (a x : Addr) (hn : bs.length ≤ 2 ^ 32) :
    (m.writeBytes a bs).byteAt x =
      if h : (x - a).toNat < bs.length then bs[(x - a).toNat] else m.byteAt x := by
  induction bs generalizing m a with
  | nil => simp [Memory.writeBytes]
  | cons b bs ih =>
    rw [Memory.writeBytes, ih _ _ (by simp at hn; omega)]
    have hw : (m.write a.toNat b).byteAt x = if x = a then b else m.byteAt x := by
      rw [Memory.byteAt, Memory.read_write]
      by_cases h : x = a
      · simp [h]
      · rw [if_neg h, if_neg (fun h' => h (BitVec.eq_of_toNat_eq h'))]; rfl
    by_cases hx : x = a
    · subst hx
      have h0 : (x - x).toNat = 0 := by simp
      have h1 : (x - (x + 1)).toNat = 2 ^ 32 - 1 := by
        have hx := x.isLt
        have h1 : (1 : Addr).toNat = 1 := rfl
        simp only [BitVec.toNat_sub, BitVec.toNat_add, h1]
        omega
      rw [dif_neg (by simp at hn; omega), hw, if_pos rfl, dif_pos (by simp)]
      simp
    · have hs := addr_sub_succ x a hx
      by_cases hlt : (x - (a + 1)).toNat < bs.length
      · rw [dif_pos hlt, dif_pos (by rw [hs]; simpa using hlt)]
        simp [hs]
      · rw [dif_neg hlt, dif_neg (by rw [hs]; simpa using hlt), hw, if_neg hx]

theorem Memory.byteAt_writeBytes_outside (bs : List Byte) (m : Memory) (a x : Addr) (hn : bs.length ≤ 2 ^ 32)
    (h : bs.length ≤ (x - a).toNat) : (m.writeBytes a bs).byteAt x = m.byteAt x := by
  rw [Memory.byteAt_writeBytes bs m a x hn, dif_neg (by omega)]

/-! ### Words -/

/-- `LE32` as a number (R12). -/
theorem le32_toNat (b0 b1 b2 b3 : Byte) :
    (le32 b0 b1 b2 b3).toNat = b0.toNat + 2 ^ 8 * b1.toNat + 2 ^ 16 * b2.toNat + 2 ^ 24 * b3.toNat := by
  unfold le32
  have h0 := b0.isLt
  have h1 := b1.isLt
  have h2 := b2.isLt
  have h3 := b3.isLt
  have e1 : (b1 ++ b0).toNat = b1.toNat * 2 ^ 8 + b0.toNat := by
    rw [BitVec.toNat_append, ← Nat.shiftLeft_add_eq_or_of_lt h0, Nat.shiftLeft_eq]
  have e2 : (b2 ++ (b1 ++ b0)).toNat = b2.toNat * 2 ^ 16 + (b1.toNat * 2 ^ 8 + b0.toNat) := by
    rw [BitVec.toNat_append, ← Nat.shiftLeft_add_eq_or_of_lt (by omega), Nat.shiftLeft_eq, e1]
  rw [BitVec.toNat_append, ← Nat.shiftLeft_add_eq_or_of_lt (by omega), Nat.shiftLeft_eq, e2]
  omega

theorem wordByte_toNat (w : Word) (k : Nat) : (wordByte w k).toNat = w.toNat / 2 ^ (8 * k) % 2 ^ 8 := by
  unfold wordByte
  rw [BitVec.extractLsb'_toNat, Nat.shiftRight_eq_div_pow]

theorem wordByte_le32 (b0 b1 b2 b3 : Byte) :
    wordByte (le32 b0 b1 b2 b3) 0 = b0 ∧ wordByte (le32 b0 b1 b2 b3) 1 = b1 ∧
    wordByte (le32 b0 b1 b2 b3) 2 = b2 ∧ wordByte (le32 b0 b1 b2 b3) 3 = b3 := by
  have h0 := b0.isLt
  have h1 := b1.isLt
  have h2 := b2.isLt
  have h3 := b3.isLt
  refine ⟨?_, ?_, ?_, ?_⟩ <;> apply BitVec.eq_of_toNat_eq <;> rw [wordByte_toNat, le32_toNat] <;> norm_num <;> omega

/-- A word is its four bytes, the lowest first (R12). -/
theorem le32_wordBytes (w : Word) : le32 (wordByte w 0) (wordByte w 1) (wordByte w 2) (wordByte w 3) = w := by
  apply BitVec.eq_of_toNat_eq
  have := w.isLt
  simp only [le32_toNat, wordByte_toNat]
  norm_num
  omega

/-- Words at the same address agree where their four bytes do. -/
theorem Memory.readWord_congr (m m' : Memory) (a : Addr)
    (h : ∀ k < 4, m.byteAt (a + BitVec.ofNat 32 k) = m'.byteAt (a + BitVec.ofNat 32 k)) :
    m.readWord a = m'.readWord a := by
  have h0 := h 0 (by omega)
  have h1 := h 1 (by omega)
  have h2 := h 2 (by omega)
  have h3 := h 3 (by omega)
  rw [BitVec.add_zero] at h0
  unfold Memory.readWord
  exact congr (congr (congr (congrArg le32 h0) h1) h2) h3

/-! ### Memory images -/

@[simp] theorem loadMat_word (r c : Nat) (m : Memory) (a : Addr) (i : Fin r) (j : Fin c) :
    (loadMat r c m a).word i j = m.readWord (a + BitVec.ofNat 32 (4 * (c * i.val + j.val))) := by
  simp [loadMat]

@[simp] theorem loadBlock_word (m : Memory) (a : Addr) (i j : Fin 4) :
    (loadBlock m a).word i j = m.readWord (a + BitVec.ofNat 32 (4 * (4 * i.val + j.val))) := by
  simp [loadBlock]

@[simp] theorem length_matBytes {r c : Nat} (X : Mat r c) : (matBytes X).length = 4 * (r * c) := by
  simp [matBytes]

/-- Byte `k` of the word `(i, j)` stands at place `4 * (c*i + j) + k` of a matrix's image (R67). -/
theorem getElem_matBytes {r c : Nat} (X : Mat r c) (i : Fin r) (j : Fin c) (k : Nat) (hk : k < 4) (n : Nat)
    (hn : n = 4 * (c * i.val + j.val) + k) (h : n < (matBytes X).length) :
    (matBytes X)[n] = wordByte (X.word i j) k := by
  have hc : 0 < c := Fin.pos j
  have h1 : n / 4 = c * i.val + j.val := by omega
  have h2 : n % 4 = k := by omega
  have h3 : n / 4 / c = i.val := by
    rw [h1, Nat.mul_add_div hc, Nat.div_eq_of_lt j.isLt, Nat.add_zero]
  have h4 : n / 4 % c = j.val := by
    rw [h1, Nat.mul_add_mod, Nat.mod_eq_of_lt j.isLt]
  simp only [matBytes, List.getElem_ofFn, h2, h3, h4]

theorem place_lt {r c : Nat} (i : Fin r) (j : Fin c) : c * i.val + j.val < r * c := by
  calc c * i.val + j.val < c * i.val + c := by omega
    _ = c * (i.val + 1) := by ring
    _ ≤ c * r := Nat.mul_le_mul_left c i.isLt
    _ = r * c := Nat.mul_comm c r

/-- What storing a matrix leaves at every address. -/
theorem byteAt_storeMat {r c : Nat} (m : Memory) (a x : Addr) (X : Mat r c) (hn : 4 * (r * c) ≤ 2 ^ 32) :
    (storeMat m a X).byteAt x =
      if h : (x - a).toNat < (matBytes X).length then (matBytes X)[(x - a).toNat] else m.byteAt x :=
  Memory.byteAt_writeBytes _ m a x (by rwa [length_matBytes])

theorem byteAt_storeMat_outside {r c : Nat} (m : Memory) (a x : Addr) (X : Mat r c) (hn : 4 * (r * c) ≤ 2 ^ 32)
    (h : 4 * (r * c) ≤ (x - a).toNat) : (storeMat m a X).byteAt x = m.byteAt x := by
  rw [byteAt_storeMat m a x X hn, dif_neg (by rw [length_matBytes]; omega)]

theorem addr_add_sub (a : Addr) (n : Nat) (h : n < 2 ^ 32) : (a + BitVec.ofNat 32 n - a).toNat = n := by
  have ha := a.isLt
  simp only [BitVec.toNat_sub, BitVec.toNat_add, BitVec.toNat_ofNat]
  omega

theorem addr_add_add (a : Addr) (m n : Nat) :
    a + BitVec.ofNat 32 m + BitVec.ofNat 32 n = a + BitVec.ofNat 32 (m + n) := by
  rw [BitVec.add_assoc, BitVec.ofNat_add]

/-- A byte of a stored word. -/
theorem byteAt_storeMat_word {r c : Nat} (m : Memory) (a : Addr) (X : Mat r c) (hn : 4 * (r * c) ≤ 2 ^ 32)
    (i : Fin r) (j : Fin c) (k : Nat) (hk : k < 4) :
    (storeMat m a X).byteAt (a + BitVec.ofNat 32 (4 * (c * i.val + j.val) + k)) = wordByte (X.word i j) k := by
  have hp := place_lt i j
  have hs : (a + BitVec.ofNat 32 (4 * (c * i.val + j.val) + k) - a).toNat = 4 * (c * i.val + j.val) + k :=
    addr_add_sub a _ (by omega)
  rw [byteAt_storeMat m a _ X hn, dif_pos (by rw [hs, length_matBytes]; omega)]
  exact getElem_matBytes X i j k hk _ hs _

/-- Loading what was stored at the same address. -/
theorem loadMat_storeMat {r c : Nat} (m : Memory) (a : Addr) (X : Mat r c) (hn : 4 * (r * c) ≤ 2 ^ 32) :
    loadMat r c (storeMat m a X) a = X := by
  refine Mat.ext_word fun i j => ?_
  have hb := fun k hk => byteAt_storeMat_word m a X hn i j k hk
  have h0 := hb 0 (by omega)
  have h1 := hb 1 (by omega)
  have h2 := hb 2 (by omega)
  have h3 := hb 3 (by omega)
  simp only [← addr_add_add] at h0 h1 h2 h3
  rw [BitVec.add_zero] at h0
  rw [loadMat_word, Memory.readWord]
  refine Eq.trans ?_ (le32_wordBytes (X.word i j))
  exact congr (congr (congr (congrArg le32 h0) h1) h2) h3

theorem loadBlock_storeMat (m : Memory) (a : Addr) (X : Block) : loadBlock (storeMat m a X) a = X :=
  loadMat_storeMat m a X (by decide)

/-- Matrices loaded from memories that agree on the image's bytes are equal. -/
theorem loadMat_congr (r c : Nat) (m m' : Memory) (a a' : Addr)
    (h : ∀ n < 4 * (r * c), m.byteAt (a + BitVec.ofNat 32 n) = m'.byteAt (a' + BitVec.ofNat 32 n)) :
    loadMat r c m a = loadMat r c m' a' := by
  refine Mat.ext_word fun i j => ?_
  have hp := place_lt i j
  have hb : ∀ k < 4, m.byteAt (a + BitVec.ofNat 32 (4 * (c * i.val + j.val)) + BitVec.ofNat 32 k) =
      m'.byteAt (a' + BitVec.ofNat 32 (4 * (c * i.val + j.val)) + BitVec.ofNat 32 k) := fun k hk => by
    rw [addr_add_add, addr_add_add]; exact h _ (by omega)
  have h0 := hb 0 (by omega)
  rw [BitVec.add_zero, BitVec.add_zero] at h0
  rw [loadMat_word, loadMat_word, Memory.readWord, Memory.readWord]
  exact congr (congr (congr (congrArg le32 h0) (hb 1 (by omega))) (hb 2 (by omega))) (hb 3 (by omega))

/-- Storing a matrix keeps the canonical form. -/
theorem wf_storeMat {r c : Nat} (m : Memory) (a : Addr) (X : Mat r c) (h : m.wf) : (storeMat m a X).wf :=
  Memory.wf_writeBytes _ m a h

/-- Storing a word keeps the canonical form. -/
theorem Memory.wf_writeWord (m : Memory) (a : Addr) (w : Word) (h : m.wf) : (m.writeWord a w).wf :=
  Memory.wf_writeBytes _ m a h

theorem foldl_storeMat (ks : Schedule) (a x : Addr) (l : List (Fin 24)) (m : Memory) :
    (l.foldl (fun m' k => storeMat m' (a + BitVec.ofNat 32 (64 * k.val)) ks[k.val]) m).byteAt x =
      if _h : (x - a).toNat < 1536 ∧ (⟨(x - a).toNat / 64 % 24, Nat.mod_lt _ (by decide)⟩ : Fin 24) ∈ l then
        (matBytes ks[(x - a).toNat / 64 % 24])[(x - a).toNat % 64]'(by
          rw [length_matBytes]; exact Nat.mod_lt _ (by decide))
      else m.byteAt x := by
  induction l generalizing m with
  | nil => simp
  | cons k l ih =>
    rw [List.foldl_cons, ih]
    have hk := k.isLt
    have hkey : (x - (a + BitVec.ofNat 32 (64 * k.val))).toNat < 64 ↔
        (x - a).toNat < 1536 ∧ (x - a).toNat / 64 = k.val := by
      have hx := x.isLt
      have ha := a.isLt
      simp only [BitVec.toNat_sub, BitVec.toNat_add, BitVec.toNat_ofNat]
      omega
    by_cases hl : (x - a).toNat < 1536 ∧ (⟨(x - a).toNat / 64 % 24, Nat.mod_lt _ (by decide)⟩ : Fin 24) ∈ l
    · rw [dif_pos hl, dif_pos ⟨hl.1, List.mem_cons_of_mem _ hl.2⟩]
    · rw [dif_neg hl, byteAt_storeMat _ _ _ _ (by decide)]
      by_cases hh : (x - a).toNat < 1536 ∧ (x - a).toNat / 64 = k.val
      · have hm : (x - a).toNat / 64 % 24 = k.val := by omega
        have hp : (x - (a + BitVec.ofNat 32 (64 * k.val))).toNat = (x - a).toNat % 64 := by
          have hx := x.isLt
          have ha := a.isLt
          have h2 := hh.2
          have h1 := hh.1
          simp only [BitVec.toNat_sub, BitVec.toNat_add, BitVec.toNat_ofNat] at h1 h2 ⊢
          omega
        rw [dif_pos (by rw [length_matBytes]; exact hkey.2 hh),
          dif_pos ⟨hh.1, by rw [show (⟨_, Nat.mod_lt _ (by decide)⟩ : Fin 24) = k from Fin.ext hm]; exact List.mem_cons_self⟩]
        simp only [hp, hm]
      · rw [dif_neg (by rw [length_matBytes]; exact fun h => hh (hkey.1 h)), dif_neg]
        rintro ⟨h1, h2⟩
        rcases List.mem_cons.1 h2 with h2 | h2
        · exact hh ⟨h1, by have := congrArg Fin.val h2; simp only at this; omega⟩
        · exact hl ⟨h1, h2⟩

/-- What storing a schedule leaves at every address: byte `n` of the image is byte `n mod 64` of subkey
`n div 64` (R67, R189). -/
theorem byteAt_storeSchedule (m : Memory) (a x : Addr) (ks : Schedule) :
    (storeSchedule m a ks).byteAt x =
      if (x - a).toNat < 1536 then
        (matBytes ks[(x - a).toNat / 64 % 24])[(x - a).toNat % 64]'(by
          rw [length_matBytes]; exact Nat.mod_lt _ (by decide))
      else m.byteAt x := by
  rw [storeSchedule, foldl_storeMat]
  by_cases h : (x - a).toNat < 1536
  · rw [dif_pos ⟨h, List.mem_finRange _⟩, if_pos h]
  · rw [dif_neg (fun h' => h h'.1), if_neg h]

@[simp] theorem loadSchedule_getElem (m : Memory) (a : Addr) (k : Nat) (hk : k < 24) :
    (loadSchedule m a)[k] = loadBlock m (a + BitVec.ofNat 32 (64 * k)) := by
  simp [loadSchedule]

/-- Loading a schedule that was stored at the same address (R189). -/
theorem loadSchedule_storeSchedule (m : Memory) (a : Addr) (ks : Schedule) :
    loadSchedule (storeSchedule m a ks) a = ks := by
  refine Vector.ext fun k hk => ?_
  rw [loadSchedule_getElem]
  refine Eq.trans ?_ (loadBlock_storeMat m (a + BitVec.ofNat 32 (64 * k)) ks[k])
  refine loadMat_congr 4 4 _ _ _ _ fun n hn => ?_
  have hs : (a + BitVec.ofNat 32 (64 * k) + BitVec.ofNat 32 n - a).toNat = 64 * k + n := by
    rw [addr_add_add]; exact addr_add_sub a _ (by omega)
  have hm : (64 * k + n) / 64 % 24 = k := by omega
  have hr : (64 * k + n) % 64 = n := by omega
  rw [byteAt_storeSchedule, byteAt_storeMat _ _ _ _ (by decide)]
  have hs' : (a + BitVec.ofNat 32 (64 * k) + BitVec.ofNat 32 n - (a + BitVec.ofNat 32 (64 * k))).toNat = n :=
    addr_add_sub _ n (by omega)
  rw [if_pos (by rw [hs]; omega), dif_pos (by rw [hs', length_matBytes]; omega)]
  simp only [hs, hs', hm, hr]

theorem wf_storeSchedule (m : Memory) (a : Addr) (ks : Schedule) (h : m.wf) : (storeSchedule m a ks).wf := by
  unfold storeSchedule
  suffices ∀ (l : List (Fin 24)) (m : Memory), m.wf →
      (l.foldl (fun m' k => storeMat m' (a + BitVec.ofNat 32 (64 * k.val)) ks[k.val]) m).wf from this _ _ h
  intro l
  induction l with
  | nil => exact fun m h => h
  | cons k l ih =>
    intro m h
    rw [List.foldl_cons]
    exact ih _ (wf_storeMat m _ _ h)

end Sys2Proof.Machine
end

