-- ==== Sys2Proof/Laws/State.lean ====
section
/-! SUPPORT. One lemma per field for each update of the state that commands share, so that no proof
unfolds a record update; and what fetch does. -/

namespace Sys2Proof.Machine

variable (s : State)

@[simp] theorem State.succeed_sReg : (s.succeed).sReg = s.sReg := rfl
@[simp] theorem State.succeed_sk : (s.succeed).sk = s.sk := rfl
@[simp] theorem State.succeed_kss : (s.succeed).kss = s.kss := rfl
@[simp] theorem State.succeed_v : (s.succeed).v = s.v := rfl
@[simp] theorem State.succeed_bk : (s.succeed).bk = s.bk := rfl
@[simp] theorem State.succeed_brc : (s.succeed).brc = s.brc := rfl
@[simp] theorem State.succeed_ck : (s.succeed).ck = s.ck := rfl
@[simp] theorem State.succeed_tag : (s.succeed).tag = s.tag := rfl
@[simp] theorem State.succeed_src : (s.succeed).src = s.src := rfl
@[simp] theorem State.succeed_dst : (s.succeed).dst = s.dst := rfl
@[simp] theorem State.succeed_cnt : (s.succeed).cnt = s.cnt := rfl
@[simp] theorem State.succeed_res : (s.succeed).res = 0 := rfl
@[simp] theorem State.succeed_errSeen : (s.succeed).errSeen = s.errSeen := rfl
@[simp] theorem State.succeed_capQ : (s.succeed).capQ = s.capQ := rfl
@[simp] theorem State.succeed_capV : (s.succeed).capV = s.capV := rfl
@[simp] theorem State.succeed_pc : (s.succeed).pc = s.pc + 1 := rfl
@[simp] theorem State.succeed_mem : (s.succeed).mem = s.mem := rfl
@[simp] theorem State.succeed_pending : (s.succeed).pending = s.pending := rfl
@[simp] theorem State.succeed_capUsable : (s.succeed).capUsable = s.capUsable := rfl

@[simp] theorem State.fail_sReg (f : Failure) : (s.fail f).sReg = s.sReg := rfl
@[simp] theorem State.fail_sk (f : Failure) : (s.fail f).sk = s.sk := rfl
@[simp] theorem State.fail_kss (f : Failure) : (s.fail f).kss = s.kss := rfl
@[simp] theorem State.fail_v (f : Failure) : (s.fail f).v = s.v := rfl
@[simp] theorem State.fail_bk (f : Failure) : (s.fail f).bk = s.bk := rfl
@[simp] theorem State.fail_brc (f : Failure) : (s.fail f).brc = s.brc := rfl
@[simp] theorem State.fail_ck (f : Failure) : (s.fail f).ck = s.ck := rfl
@[simp] theorem State.fail_tag (f : Failure) : (s.fail f).tag = s.tag := rfl
@[simp] theorem State.fail_src (f : Failure) : (s.fail f).src = s.src := rfl
@[simp] theorem State.fail_dst (f : Failure) : (s.fail f).dst = s.dst := rfl
@[simp] theorem State.fail_cnt (f : Failure) : (s.fail f).cnt = s.cnt := rfl
@[simp] theorem State.fail_res (f : Failure) : (s.fail f).res = failureCode f := rfl
@[simp] theorem State.fail_errSeen (f : Failure) : (s.fail f).errSeen = true := rfl
@[simp] theorem State.fail_capQ (f : Failure) : (s.fail f).capQ = s.capQ := rfl
@[simp] theorem State.fail_capV (f : Failure) : (s.fail f).capV = s.capV := rfl
@[simp] theorem State.fail_pc (f : Failure) : (s.fail f).pc = s.pc + 1 := rfl
@[simp] theorem State.fail_mem (f : Failure) : (s.fail f).mem = s.mem := rfl
@[simp] theorem State.fail_pending (f : Failure) : (s.fail f).pending = s.pending := rfl
@[simp] theorem State.fail_capUsable (f : Failure) : (s.fail f).capUsable = s.capUsable := rfl

@[simp] theorem State.withFetchWord_sReg (n w : Nat) : (s.withFetchWord n w).sReg = s.sReg := rfl
@[simp] theorem State.withFetchWord_sk (n w : Nat) : (s.withFetchWord n w).sk = s.sk := rfl
@[simp] theorem State.withFetchWord_kss (n w : Nat) : (s.withFetchWord n w).kss = s.kss := rfl
@[simp] theorem State.withFetchWord_v (n w : Nat) : (s.withFetchWord n w).v = s.v := rfl
@[simp] theorem State.withFetchWord_bk (n w : Nat) : (s.withFetchWord n w).bk = s.bk := rfl
@[simp] theorem State.withFetchWord_brc (n w : Nat) : (s.withFetchWord n w).brc = s.brc := rfl
@[simp] theorem State.withFetchWord_ck (n w : Nat) : (s.withFetchWord n w).ck = s.ck := rfl
@[simp] theorem State.withFetchWord_tag (n w : Nat) : (s.withFetchWord n w).tag = s.tag := rfl
@[simp] theorem State.withFetchWord_src (n w : Nat) : (s.withFetchWord n w).src = s.src := rfl
@[simp] theorem State.withFetchWord_dst (n w : Nat) : (s.withFetchWord n w).dst = s.dst := rfl
@[simp] theorem State.withFetchWord_cnt (n w : Nat) : (s.withFetchWord n w).cnt = s.cnt := rfl
@[simp] theorem State.withFetchWord_res (n w : Nat) : (s.withFetchWord n w).res = s.res := rfl
@[simp] theorem State.withFetchWord_errSeen (n w : Nat) : (s.withFetchWord n w).errSeen = s.errSeen := rfl
@[simp] theorem State.withFetchWord_capQ (n w : Nat) : (s.withFetchWord n w).capQ = s.capQ := rfl
@[simp] theorem State.withFetchWord_capV (n w : Nat) : (s.withFetchWord n w).capV = s.capV := rfl
@[simp] theorem State.withFetchWord_pc (n w : Nat) : (s.withFetchWord n w).pc = s.pc := rfl
@[simp] theorem State.withFetchWord_mem (n w : Nat) : (s.withFetchWord n w).mem = s.mem := rfl
@[simp] theorem State.withFetchWord_pending (n w : Nat) : (s.withFetchWord n w).pending = wordOfBits n w :: s.pending.tail := rfl
@[simp] theorem State.withFetchWord_capUsable (n w : Nat) : (s.withFetchWord n w).capUsable = s.capUsable := rfl

@[simp] theorem State.unlessFails_none (t : State) : s.unlessFails none t = t.succeed := rfl
@[simp] theorem State.unlessFails_some (f : Failure) (t : State) : s.unlessFails (some f) t = s.fail f := rfl
@[simp] theorem State.withOperand_none {α : Type} (e : α → State) : s.withOperand none e = s.fail .illegal := rfl
@[simp] theorem State.withOperand_some {α : Type} (x : α) (e : α → State) :
    s.withOperand (some x) e = (e x).succeed := rfl
@[simp] theorem State.vectorOpWith_none {α : Type} (e : α → State) : s.vectorOpWith none e = s.fail .illegal := rfl
@[simp] theorem State.vectorOpWith_some {α : Type} (x : α) (e : α → State) :
    s.vectorOpWith (some x) e = s.vectorOp {} (e x) := rfl

/-- What a shared ending can answer: the failure, or the effect's success. -/
theorem State.unlessFails_cases (o : Option Failure) (e : State) :
    (∃ f, o = some f ∧ s.unlessFails o e = s.fail f) ∨ (o = none ∧ s.unlessFails o e = e.succeed) := by
  cases o with
  | none => exact .inr ⟨rfl, rfl⟩
  | some f => exact .inl ⟨f, rfl, rfl⟩

/-- What a command with a small operand can answer. -/
theorem State.withOperand_cases {α : Type} (o : Option α) (e : α → State) :
    (o = none ∧ s.withOperand o e = s.fail .illegal) ∨ ∃ x, o = some x ∧ s.withOperand o e = (e x).succeed := by
  cases o with
  | none => exact .inl ⟨rfl, rfl⟩
  | some x => exact .inr ⟨x, rfl, rfl⟩

/-- What a vector command can answer. -/
theorem State.vectorOp_cases (u : Uses) (e : State) :
    (∃ f, vectorCheck Config.params.ctxTag u s = some f ∧ s.vectorOp u e = s.fail f) ∨
    (vectorCheck Config.params.ctxTag u s = none ∧ s.vectorOp u e = e.succeed) :=
  s.unlessFails_cases _ e

/-- A vector command whose checks pass. -/
theorem State.vectorOp_of_check (u : Uses) (e : State) (h : vectorCheck Config.params.ctxTag u s = none) :
    s.vectorOp u e = e.succeed := by
  rw [State.vectorOp, h, State.unlessFails_none]

/-- What fetch does: nothing to fetch, or the next word is taken over and nothing else changes. -/
theorem fetch_cases :
    (s.pending = [] ∧ fetch s = none) ∨
    ∃ w ws, s.pending = w :: ws ∧ fetch s = some (w, { s with pending := ws }) := by
  unfold fetch
  cases h : s.pending with
  | nil => exact .inl ⟨rfl, rfl⟩
  | cons w ws => exact .inr ⟨w, ws, rfl, rfl⟩

/-- The word withFetchWord places is the one fetched. -/
theorem fetch_withFetchWord (n w : Nat) :
    fetch (s.withFetchWord n w) = some (wordOfBits n w, { s with pending := s.pending.tail }) := rfl

end Sys2Proof.Machine
end

