-- ==== Sys2Proof/Laws/Rounds.lean ====
section
/-! SUPPORT. The words the scalar stages and the steps of the sponge leave, and the shape of the
round loops (41_scalar_round.md R141 to R150, 42_key_schedule.md R182 to R184). -/

namespace Sys2Proof.Machine

/-! ### Scalar stages -/

@[simp] theorem column_columnMix (X : Block) (j : Fin 4) : column (columnMix X) j = colMix1 (column X j) :=
  column_mapColumns _ X j

@[simp] theorem column_invColumnMix (X : Block) (j : Fin 4) :
    column (invColumnMix X) j = iColMix1 (column X j) := column_mapColumns _ X j

@[simp] theorem shiftRows_word (X : Block) (i j : Fin 4) :
    (shiftRows X).word i j = X.word i ⟨(j.val + i.val) % 4, by omega⟩ := by simp [shiftRows]

@[simp] theorem invShiftRows_word (X : Block) (i j : Fin 4) :
    (invShiftRows X).word i j = X.word i ⟨(j.val + 4 - i.val) % 4, by omega⟩ := by simp [invShiftRows]

@[simp] theorem roundChunk_word (P : Params) (r : Fin 22) (i j : Fin 4) :
    (roundChunk P r).word i j = P.romRc ⟨16 * r.val + 4 * i.val + j.val, by omega⟩ := by simp [roundChunk]

@[simp] theorem subConstants_subConstants (P : Params) (r : Fin 22) (X : Block) :
    subConstants P r (subConstants P r X) = X := matXor_matXor X _

@[simp] theorem addRoundKey_addRoundKey (ks : Schedule) (k : Fin 24) (X : Block) :
    addRoundKey ks k (addRoundKey ks k X) = X := matXor_matXor X _

/-- The column a mixer command leaves at its own place. -/
theorem column_mixColumn_same (f : Quad → Quad) (c : Fin 4) (w : Bool) (X : Block) :
    column (mixColumn f c w X) c = relabelled w f (column X c) := column_setColumn_same X c _

theorem column_mixColumn_other (f : Quad → Quad) (c c' : Fin 4) (w : Bool) (X : Block) (h : c' ≠ c) :
    column (mixColumn f c w X) c' = column X c' := column_setColumn_other X c c' _ h

/-- Two blocks with the same columns are equal. -/
theorem Mat.ext_column {c : Nat} {X Y : Mat 4 c} (h : ∀ j, column X j = column Y j) : X = Y :=
  Mat.ext_word fun i j => by rw [← quadAt_column, ← quadAt_column, h]

/-! ### Round loops -/

/-- A loop down the rounds undoes a loop up them when each round undoes its own. -/
theorem roundsDown_roundsUp {α : Type} (f g : Fin 22 → α → α) (h : ∀ r x, g r (f r x) = x) (x : α) :
    roundsDown g (roundsUp f x) = x := by
  unfold roundsDown roundsUp
  generalize List.finRange 22 = l
  induction l generalizing x with
  | nil => rfl
  | cons r l ih => rw [List.foldl_cons, List.foldr_cons, ih, h]

theorem roundsUp_roundsDown {α : Type} (f g : Fin 22 → α → α) (h : ∀ r x, f r (g r x) = x) (x : α) :
    roundsUp f (roundsDown g x) = x := by
  unfold roundsDown roundsUp
  generalize List.finRange 22 = l
  induction l generalizing x with
  | nil => rfl
  | cons r l ih => rw [List.foldl_cons, List.foldr_cons, h, ih]

/-- A map that carries one round function to another carries their loops. -/
theorem roundsUp_map {α β : Type} (p : α → β) (f : Fin 22 → α → α) (g : Fin 22 → β → β)
    (h : ∀ r x, p (f r x) = g r (p x)) (x : α) : p (roundsUp f x) = roundsUp g (p x) := by
  unfold roundsUp
  generalize List.finRange 22 = l
  induction l generalizing x with
  | nil => rfl
  | cons r l ih => rw [List.foldl_cons, List.foldl_cons, ih, h]

theorem roundsDown_map {α β : Type} (p : α → β) (f : Fin 22 → α → α) (g : Fin 22 → β → β)
    (h : ∀ r x, p (f r x) = g r (p x)) (x : α) : p (roundsDown f x) = roundsDown g (p x) := by
  unfold roundsDown
  generalize List.finRange 22 = l
  induction l with
  | nil => rfl
  | cons r l ih => rw [List.foldr_cons, List.foldr_cons, h, ih]

/-! ### The sponge -/

@[simp] theorem sponge0_word_key (P : Params) (key : Mat 1 8) (j : Fin 8) :
    (sponge0 P key).word 0 j = key.word 0 j := by simp [sponge0]

theorem sponge0_word_const (P : Params) (key : Mat 1 8) (i : Fin 4) (j : Fin 8) (h : i.val ≠ 0) :
    (sponge0 P key).word i j = P.romKsi ⟨8 * (i.val - 1) + j.val, by omega⟩ := by
  rw [sponge0, Mat.word_ofFn, dif_neg h]

@[simp] theorem injectConstants_word (P : Params) (n : Fin 16) (X : Mat 4 8) (i : Fin 4) (j : Fin 8) :
    (injectConstants P n X).word i j =
      if j.val = i.val then X.word i j + P.romKsp ⟨4 * n.val + i.val, by omega⟩ else X.word i j := by
  simp [injectConstants]

@[simp] theorem column_mixColumnsK (X : Mat 4 8) (j : Fin 8) : column (mixColumnsK X) j = mix .k (column X j) :=
  column_mapColumns _ X j

/-- Word `t` of the group at `g` of row `i` after the row step is position `t` of K on that group. -/
theorem mixRowsK_group (X : Mat 4 8) (i : Fin 4) (g : Nat) (hg : g = 0 ∨ g = 4) (t : Fin 4) :
    (mixRowsK X).word i (wrap8 i (g + t.val)) = quadAt (mix .k (rowGroup X i g)) t := by
  have hp : ((i.val + (g + t.val)) % 8 + 8 - i.val) % 8 = g + t.val := by omega
  simp only [mixRowsK, Mat.word_ofFn, wrap8, hp]
  have h1 : 4 * ((g + t.val) / 4) = g := by omega
  have h2 : (g + t.val) % 4 = t.val := by omega
  simp only [h1, h2]

@[simp] theorem squeezed_word (X : Mat 4 8) (i j : Fin 4) :
    (squeezed X).word i j = X.word i ⟨j.val, by omega⟩ := by simp [squeezed]

@[simp] theorem domainChunk_word (P : Params) (n : Fin 23) (i : Fin 4) (j : Fin 8) :
    (domainChunk P n).word i j = P.romKsd ⟨32 * n.val + 8 * i.val + j.val, by omega⟩ := by simp [domainChunk]

/-- The counter goes once into each of the four words of `KS_CTR_POS`, which are distinct, and into no
other (R184, R6). -/
theorem addCounter_word (P : Params) (x : Word) (X : Mat 4 8) (i : Fin 4) (j : Fin 8) :
    (addCounter P x X).word i j = if ∃ n, P.ctrPos n = (i, j) then X.word i j + x else X.word i j := by
  have hd := P.ctrPos_distinct
  have key : ∀ (l : List (Fin 4)) (Y : Mat 4 8), l.Nodup →
      (l.foldl (fun Z n => addWord Z (P.ctrPos n).1 (P.ctrPos n).2 x) Y).word i j =
        if ∃ n ∈ l, P.ctrPos n = (i, j) then Y.word i j + x else Y.word i j := by
    intro l
    induction l with
    | nil => intro Y _; simp
    | cons n l ih =>
      intro Y hn
      rw [List.foldl_cons, ih _ (List.nodup_cons.1 hn).2, addWord_word]
      by_cases hh : P.ctrPos n = (i, j)
      · have h1 : i = (P.ctrPos n).1 ∧ j = (P.ctrPos n).2 := by rw [hh]; exact ⟨rfl, rfl⟩
        have h2 : ¬ ∃ m ∈ l, P.ctrPos m = (i, j) := fun ⟨m, hm, he⟩ =>
          (List.nodup_cons.1 hn).1 (hd m n (he.trans hh.symm) ▸ hm)
        rw [if_neg h2, if_pos h1, if_pos ⟨n, List.mem_cons_self, hh⟩]
      · have h1 : ¬ (i = (P.ctrPos n).1 ∧ j = (P.ctrPos n).2) := fun ⟨a, b⟩ => hh (by rw [a, b])
        rw [if_neg h1]
        congr 1
        apply propext
        constructor
        · rintro ⟨m, hm, he⟩; exact ⟨m, List.mem_cons_of_mem _ hm, he⟩
        · rintro ⟨m, hm, he⟩
          rcases List.mem_cons.1 hm with h | h
          · subst h; exact absurd he hh
          · exact ⟨m, h, he⟩
  rw [addCounter, key _ _ (List.nodup_finRange 4)]
  simp

end Sys2Proof.Machine
end

