-- ==== Sys2Proof/Laws/Wide.lean ====
section
/-! SUPPORT. The wide registers: what lane matrices, the lane-wise operations and the transposes hold
(43_vector_batch.md R210 to R217). -/

namespace Sys2Proof.Machine

@[simp] theorem laneM_word (V : WideFile) (l : Fin 8) (i j : Fin 4) :
    (laneM V l).word i j = V.word (wordNo i j) l := by simp [laneM]

@[simp] theorem blockWord_laneM (V : WideFile) (l : Fin 8) (n : Fin 16) : blockWord (laneM V l) n = V.word n l := by
  rw [blockWord, laneM_word, wordNo_div_mod]

@[simp] theorem mapLanes_word (f : Fin 8 → Block → Block) (V : WideFile) (n : Fin 16) (l : Fin 8) :
    (mapLanes f V).word n l = blockWord (f l (laneM V l)) n := by simp [mapLanes]

@[simp] theorem laneM_mapLanes (f : Fin 8 → Block → Block) (V : WideFile) (l : Fin 8) :
    laneM (mapLanes f V) l = f l (laneM V l) := Mat.ext_word fun i j => by simp

/-- Two wide files with the same lane matrices are equal. -/
theorem wide_ext {V W : WideFile} (h : ∀ l, laneM V l = laneM W l) : V = W :=
  Mat.ext_word fun n l => by rw [← blockWord_laneM, h, blockWord_laneM]

@[simp] theorem laneM_matXor (V W : WideFile) (l : Fin 8) :
    laneM (matXor V W) l = matXor (laneM V l) (laneM W l) := Mat.ext_word fun i j => by simp

@[simp] theorem broadcast_word (X : Block) (n : Fin 16) (l : Fin 8) : (broadcast X).word n l = blockWord X n := by
  simp [broadcast]

@[simp] theorem laneM_broadcast (X : Block) (l : Fin 8) : laneM (broadcast X) l = X :=
  Mat.ext_word fun i j => by simp

/-! ### The lane each vector stage leaves -/

@[simp] theorem laneM_wideSubConstants (brc : Vector WideFile 22) (r : Fin 22) (V : WideFile) (l : Fin 8) :
    laneM (wideSubConstants brc r V) l = matXor (laneM V l) (laneM brc[r.val] l) := laneM_matXor V _ l

@[simp] theorem laneM_wideAddRoundKey (bk : Vector WideFile 24) (k : Fin 24) (V : WideFile) (l : Fin 8) :
    laneM (wideAddRoundKey bk k V) l = matXor (laneM V l) (laneM bk[k.val] l) := laneM_matXor V _ l

@[simp] theorem laneM_wideColumnMix (V : WideFile) (l : Fin 8) :
    laneM (wideColumnMix V) l = columnMix (laneM V l) := laneM_mapLanes _ V l

@[simp] theorem laneM_wideInvColumnMix (V : WideFile) (l : Fin 8) :
    laneM (wideInvColumnMix V) l = invColumnMix (laneM V l) := laneM_mapLanes _ V l

@[simp] theorem laneM_wideShiftRows (V : WideFile) (l : Fin 8) :
    laneM (wideShiftRows V) l = shiftRows (laneM V l) := laneM_mapLanes _ V l

@[simp] theorem laneM_wideInvShiftRows (V : WideFile) (l : Fin 8) :
    laneM (wideInvShiftRows V) l = invShiftRows (laneM V l) := laneM_mapLanes _ V l

@[simp] theorem laneM_wideFwdRound (bk : Vector WideFile 24) (brc : Vector WideFile 22) (r : Fin 22) (V : WideFile)
    (l : Fin 8) : laneM (wideFwdRound bk brc r V) l =
      matXor (shiftRows (columnMix (matXor (laneM V l) (laneM brc[r.val] l)))) (laneM bk[(roundSubkey r).val] l) :=
  laneM_mapLanes _ V l

@[simp] theorem laneM_wideInvRound (bk : Vector WideFile 24) (brc : Vector WideFile 22) (r : Fin 22) (V : WideFile)
    (l : Fin 8) : laneM (wideInvRound bk brc r V) l =
      matXor (invColumnMix (invShiftRows (matXor (laneM V l) (laneM bk[(roundSubkey r).val] l)))) (laneM brc[r.val] l) :=
  laneM_mapLanes _ V l

/-! ### The transposes in closed form -/

/-- `new V[8*h + m].b = old V[2*b + h].m` (R216). -/
theorem transpose_word (V : WideFile) (h : Fin 2) (m b : Fin 8) :
    (transpose V).word ⟨8 * h.val + m.val, by omega⟩ b = V.word ⟨2 * b.val + h.val, by omega⟩ m := by
  fin_cases h <;> fin_cases m <;> fin_cases b <;> rfl

/-- `new V[2*b + h].m = old V[8*h + m].b` (R217). -/
theorem untranspose_word (V : WideFile) (h : Fin 2) (m b : Fin 8) :
    (untranspose V).word ⟨2 * b.val + h.val, by omega⟩ m = V.word ⟨8 * h.val + m.val, by omega⟩ b := by
  fin_cases h <;> fin_cases m <;> fin_cases b <;> rfl

end Sys2Proof.Machine
end

