-- ==== Sys2Proof/Laws/Batch.lean ====
section
/-! SUPPORT. What the batch procedure and the shared operations of the context and the ciphers change: S,
V and memory (43_vector_batch.md R233), the context's registers (R211, R212). -/

namespace Sys2Proof.Machine

/-- Every lane of BK[k] holds the words of subkey k (R25). -/
@[simp] theorem broadcastKeys_word (ks : Schedule) (k : Fin 24) (n : Fin 16) (l : Fin 8) :
    ((broadcastKeys ks)[k.val]).word n l = blockWord ks[k.val] n := by simp [broadcastKeys]

/-- Every lane of BRC[r] holds the words of the round's constants (R25, R31). -/
@[simp] theorem broadcastConstants_word (P : Params) (r : Fin 22) (n : Fin 16) (l : Fin 8) :
    ((broadcastConstants P)[r.val]).word n l = blockWord (roundChunk P r) n := by simp [broadcastConstants]

/-- The full groups change V and memory only (R233). -/
theorem batchGroups_frame (d : Direction) (n : Nat) (s : State) :
    batchGroups d n s = { s with v := (batchGroups d n s).v, mem := (batchGroups d n s).mem } := by
  induction n with
  | zero => rfl
  | succ n ih => rw [batchGroups, batchGroup]; dsimp only; rw [ih]

/-- The tail changes S and memory only (R233). -/
theorem batchTail_frame (P : Params) (d : Direction) (g n : Nat) (s : State) :
    batchTail P d g n s =
      { s with sReg := (batchTail P d g n s).sReg, mem := (batchTail P d g n s).mem } := by
  induction n with
  | zero => rfl
  | succ n ih => rw [batchTail, batchTailBlock]; dsimp only; rw [ih]

/-- A batch changes S, V and memory only (R233). -/
theorem batch_frame (P : Params) (d : Direction) (s : State) :
    batch P d s = { s with sReg := (batch P d s).sReg, v := (batch P d s).v, mem := (batch P d s).mem } := by
  unfold batch
  generalize s.cnt.toNat / 8 = g
  generalize s.cnt.toNat % 8 = t
  rw [batchTail_frame, batchGroups_frame]

theorem wf_batchGroups (d : Direction) (n : Nat) (s : State) (h : s.mem.wf) : (batchGroups d n s).mem.wf := by
  induction n with
  | zero => exact h
  | succ n ih => rw [batchGroups, batchGroup]; dsimp only; exact wf_storeMat _ _ _ ih

theorem wf_batchTail (P : Params) (d : Direction) (g n : Nat) (s : State) (h : s.mem.wf) :
    (batchTail P d g n s).mem.wf := by
  induction n with
  | zero => exact h
  | succ n ih => rw [batchTail, batchTailBlock]; dsimp only; exact wf_storeMat _ _ _ ih

/-- A batch keeps the canonical form of memory. -/
theorem wf_batch (P : Params) (d : Direction) (s : State) (h : s.mem.wf) : (batch P d s).mem.wf :=
  wf_batchTail P d _ _ _ (wf_batchGroups d _ s h)

/-- Without a tail S is unchanged (R233). -/
theorem batch_sReg_no_tail (P : Params) (d : Direction) (s : State) (h : s.cnt.toNat % 8 = 0) :
    (batch P d s).sReg = s.sReg := by
  rw [batch, h, batchTail, batchGroups_frame]

/-- Without a full group V is unchanged (R233). -/
theorem batch_v_no_group (P : Params) (d : Direction) (s : State) (h : s.cnt.toNat < 8) :
    (batch P d s).v = s.v := by
  rw [batch, batchTail_frame, Nat.div_eq_of_lt h, batchGroups]

/-- The answers of a batch command: a failed check, a refused overlap, or the procedure (R238, R70, R233). -/
theorem batchCommand_cases (d : Direction) (s : State) :
    let u : Uses := { src := true, dst := true, cnt := true }
    (∃ f, vectorCheck Config.params.ctxTag u s = some f ∧ batchCommand d s = .next (s.fail f)) ∨
    (vectorCheck Config.params.ctxTag u s = none ∧ partialOverlap s.src s.dst (64 * s.cnt.toNat) = true ∧
      batchCommand d s = .refused .partialOverlap) ∨
    (vectorCheck Config.params.ctxTag u s = none ∧ partialOverlap s.src s.dst (64 * s.cnt.toNat) = false ∧
      batchCommand d s = .next (batch Config.params d s).succeed) := by
  intro u
  unfold batchCommand
  cases h : vectorCheck Config.params.ctxTag { src := true, dst := true, cnt := true } s with
  | some f => exact .inl ⟨f, rfl, rfl⟩
  | none =>
    cases hp : partialOverlap s.src s.dst (64 * s.cnt.toNat) with
    | true => exact .inr (.inl ⟨rfl, rfl, rfl⟩)
    | false => exact .inr (.inr ⟨rfl, rfl, rfl⟩)

/-- Two ranges of `n` bytes share a byte exactly when the second starts within the first or the first
within the second, going up modulo 2^32 (R70). -/
theorem partialOverlap_eq_true (src dst : Addr) (n : Nat) :
    partialOverlap src dst n = true ↔ src ≠ dst ∧
      ∃ j k, j < n ∧ k < n ∧ src + BitVec.ofNat 32 j = dst + BitVec.ofNat 32 k := by
  unfold partialOverlap
  rw [decide_eq_true_eq]
  constructor
  · rintro ⟨hne, h⟩
    have hs := (dst - src).isLt
    have hd := (src - dst).isLt
    refine ⟨hne, ?_⟩
    rcases h with h | h
    · refine ⟨(dst - src).toNat, 0, h, by omega, ?_⟩
      simp only [BitVec.ofNat_toNat, BitVec.setWidth_eq, BitVec.add_zero]
      rw [BitVec.add_comm, BitVec.sub_add_cancel]
    · refine ⟨0, (src - dst).toNat, by omega, h, ?_⟩
      simp only [BitVec.ofNat_toNat, BitVec.setWidth_eq, BitVec.add_zero]
      rw [BitVec.add_comm, BitVec.sub_add_cancel]
  · rintro ⟨hne, j, k, hj, hk, h⟩
    refine ⟨hne, ?_⟩
    rcases Nat.le_total k j with hkj | hjk
    · left
      have : dst - src = BitVec.ofNat 32 (j - k) := by
        apply BitVec.eq_of_toNat_eq
        have h1 := congrArg BitVec.toNat h
        have := src.isLt
        have := dst.isLt
        simp only [BitVec.toNat_add, BitVec.toNat_ofNat, BitVec.toNat_sub] at h1 ⊢
        omega
      rw [this, BitVec.toNat_ofNat]
      exact Nat.lt_of_le_of_lt (Nat.mod_le _ _) (by omega)
    · right
      have : src - dst = BitVec.ofNat 32 (k - j) := by
        apply BitVec.eq_of_toNat_eq
        have h1 := congrArg BitVec.toNat h
        have := src.isLt
        have := dst.isLt
        simp only [BitVec.toNat_add, BitVec.toNat_ofNat, BitVec.toNat_sub] at h1 ⊢
        omega
      rw [this, BitVec.toNat_ofNat]
      exact Nat.lt_of_le_of_lt (Nat.mod_le _ _) (by omega)

end Sys2Proof.Machine
end

