-- ==== Sys2Proof/Laws/Decode.lean ====
section
/-! SUPPORT. The fields of a command word built from fields (30_encoding.md R90), and a word from its
fields. -/

namespace Sys2Proof

theorem cmdWord_toNat (op a b : BitVec 8) (imm : Word) :
    (cmdWord op a b imm).toNat = op.toNat * 2 ^ 56 + a.toNat * 2 ^ 48 + b.toNat * 2 ^ 40 + imm.toNat := by
  have h1 := op.isLt
  have h2 := a.isLt
  have h3 := b.isLt
  have h4 := imm.isLt
  have e1 : (op ++ a).toNat = op.toNat * 2 ^ 8 + a.toNat := by
    rw [BitVec.toNat_append, ← Nat.shiftLeft_add_eq_or_of_lt h2, Nat.shiftLeft_eq]
  have e2 : (op ++ a ++ b).toNat = (op.toNat * 2 ^ 8 + a.toNat) * 2 ^ 8 + b.toNat := by
    rw [BitVec.toNat_append, ← Nat.shiftLeft_add_eq_or_of_lt h3, Nat.shiftLeft_eq, e1]
  have e3 : (op ++ a ++ b ++ (0 : BitVec 8)).toNat = ((op.toNat * 2 ^ 8 + a.toNat) * 2 ^ 8 + b.toNat) * 2 ^ 8 := by
    rw [BitVec.toNat_append, ← Nat.shiftLeft_add_eq_or_of_lt (by decide), Nat.shiftLeft_eq, e2]
    simp
  unfold cmdWord
  rw [BitVec.toNat_append, ← Nat.shiftLeft_add_eq_or_of_lt h4, Nat.shiftLeft_eq, e3]
  omega

theorem field_toNat (w : Cmd) (lo len : Nat) : (w.extractLsb' lo len).toNat = w.toNat / 2 ^ lo % 2 ^ len := by
  rw [BitVec.extractLsb'_toNat, Nat.shiftRight_eq_div_pow]

@[simp] theorem fieldOp_cmdWord (op a b : BitVec 8) (imm : Word) : fieldOp (cmdWord op a b imm) = op := by
  have h1 := op.isLt
  have h2 := a.isLt
  have h3 := b.isLt
  have h4 := imm.isLt
  apply BitVec.eq_of_toNat_eq
  rw [fieldOp, field_toNat, cmdWord_toNat]
  omega

@[simp] theorem fieldA_cmdWord (op a b : BitVec 8) (imm : Word) : fieldA (cmdWord op a b imm) = a := by
  have h1 := op.isLt
  have h2 := a.isLt
  have h3 := b.isLt
  have h4 := imm.isLt
  apply BitVec.eq_of_toNat_eq
  rw [fieldA, field_toNat, cmdWord_toNat]
  omega

@[simp] theorem fieldB_cmdWord (op a b : BitVec 8) (imm : Word) : fieldB (cmdWord op a b imm) = b := by
  have h1 := op.isLt
  have h2 := a.isLt
  have h3 := b.isLt
  have h4 := imm.isLt
  apply BitVec.eq_of_toNat_eq
  rw [fieldB, field_toNat, cmdWord_toNat]
  omega

@[simp] theorem fieldZ_cmdWord (op a b : BitVec 8) (imm : Word) : fieldZ (cmdWord op a b imm) = 0 := by
  have h1 := op.isLt
  have h2 := a.isLt
  have h3 := b.isLt
  have h4 := imm.isLt
  apply BitVec.eq_of_toNat_eq
  have h0 : (0 : BitVec 8).toNat = 0 := rfl
  rw [fieldZ, field_toNat, cmdWord_toNat, h0]
  omega

@[simp] theorem fieldImm_cmdWord (op a b : BitVec 8) (imm : Word) : fieldImm (cmdWord op a b imm) = imm := by
  have h1 := op.isLt
  have h2 := a.isLt
  have h3 := b.isLt
  have h4 := imm.isLt
  apply BitVec.eq_of_toNat_eq
  rw [fieldImm, field_toNat, cmdWord_toNat]
  omega

/-- A word whose `z` field is 0 is the word of its fields (R90). -/
theorem cmdWord_fields (w : Cmd) (h : fieldZ w = 0) : cmdWord (fieldOp w) (fieldA w) (fieldB w) (fieldImm w) = w := by
  have hw := w.isLt
  have hz : w.toNat / 2 ^ 32 % 2 ^ 8 = 0 := by
    rw [← field_toNat w 32 8, ← fieldZ, h]; rfl
  apply BitVec.eq_of_toNat_eq
  rw [cmdWord_toNat, fieldOp, fieldA, fieldB, fieldImm, field_toNat, field_toNat, field_toNat, field_toNat]
  omega

/-- What decoding answers: the row's command when its unused fields are 0 and its operands legal. -/
theorem decode_eq_ok (w : Cmd) (i : Instr) :
    decode w = .ok i ↔ ∃ f, selectRow w = some (f, i) ∧ unusedFieldsZero f w = true ∧ i.wellFormed = true := by
  unfold decode
  cases hs : selectRow w with
  | none => simp
  | some p =>
    obtain ⟨f, j⟩ := p
    cases hu : unusedFieldsZero f w
    · simp [hu]
    · cases hw : j.wellFormed
      · simp only [hu, if_true, hw, Bool.false_eq_true, if_false, reduceCtorEq, Option.some.injEq, Prod.mk.injEq,
          false_iff]
        rintro ⟨f', ⟨rfl, rfl⟩, -, h⟩
        simp [hw] at h
      · simp only [hu, if_true, hw, Except.ok.injEq, Option.some.injEq, Prod.mk.injEq]
        constructor
        · rintro rfl; exact ⟨f, ⟨rfl, rfl⟩, hu, hw⟩
        · rintro ⟨f', ⟨rfl, rfl⟩, -, -⟩; rfl

/-- Decoding answers a command or one of the three names of an illegal word. -/
theorem decode_cases (w : Cmd) : (∃ i, decode w = .ok i ∧ i.wellFormed = true) ∨ ∃ e, decode w = .error e := by
  cases h : decode w with
  | error e => exact .inr ⟨e, rfl⟩
  | ok i =>
    obtain ⟨-, -, -, hw⟩ := (decode_eq_ok w i).1 h
    exact .inl ⟨i, rfl, hw⟩

end Sys2Proof
end

