-- ==== Sys2Proof/Laws/Operands.lean ====
section
/-! SUPPORT. What the operand forms and the vector checks answer: each is a legal operand or none, and
agrees with WellFormed.lean's ranges (30_encoding.md R93). -/

namespace Sys2Proof.Machine

theorem roundOf_legal (r : BitVec 8) (h : legalRound r = true) :
    ∃ n : Fin 22, roundOf r = some n ∧ n.val + 1 = r.toNat := by
  simp only [legalRound, decide_eq_true_eq] at h
  exact ⟨⟨r.toNat - 1, by omega⟩, by rw [roundOf, dif_pos h], by simp only; omega⟩

theorem roundOf_illegal (r : BitVec 8) (h : legalRound r = false) : roundOf r = none := by
  simp only [legalRound, decide_eq_false_iff_not] at h
  rw [roundOf, dif_neg h]

theorem subkeyOf_legal (k : BitVec 8) (h : legalSubkey k = true) :
    ∃ n : Fin 24, subkeyOf k = some n ∧ n.val = k.toNat := by
  simp only [legalSubkey, decide_eq_true_eq] at h
  exact ⟨⟨k.toNat, by omega⟩, by rw [subkeyOf, dif_pos (by omega)], rfl⟩

theorem subkeyOf_illegal (k : BitVec 8) (h : legalSubkey k = false) : subkeyOf k = none := by
  simp only [legalSubkey, decide_eq_false_iff_not] at h
  rw [subkeyOf, dif_neg (by omega)]

theorem columnOf_legal (c : BitVec 8) (h : legalColumn c = true) :
    ∃ n : Fin 4, columnOf c = some n ∧ n.val = c.toNat := by
  simp only [legalColumn, decide_eq_true_eq] at h
  exact ⟨⟨c.toNat, by omega⟩, by rw [columnOf, dif_pos (by omega)], rfl⟩

theorem columnOf_illegal (c : BitVec 8) (h : legalColumn c = false) : columnOf c = none := by
  simp only [legalColumn, decide_eq_false_iff_not] at h
  rw [columnOf, dif_neg (by omega)]

theorem relabelOf_legal (w : BitVec 8) (h : legalRelabel w = true) :
    relabelOf w = some (decide (w.toNat = 1)) := by
  simp only [legalRelabel, decide_eq_true_eq] at h
  rcases Nat.lt_or_ge 0 w.toNat with h1 | h1
  · have : w.toNat = 1 := by omega
    simp [relabelOf, this]
  · have : w.toNat = 0 := by omega
    simp [relabelOf, this]

theorem relabelOf_illegal (w : BitVec 8) (h : legalRelabel w = false) : relabelOf w = none := by
  simp only [legalRelabel, decide_eq_false_iff_not] at h
  rw [relabelOf, if_neg (by omega), if_neg (by omega)]

theorem internalRoundOf_legal (j : BitVec 8) (h : legalInternalRound j = true) :
    ∃ n : Fin 16, internalRoundOf j = some n ∧ n.val = j.toNat := by
  simp only [legalInternalRound, decide_eq_true_eq] at h
  exact ⟨⟨j.toNat, by omega⟩, by rw [internalRoundOf, dif_pos (by omega)], rfl⟩

theorem internalRoundOf_illegal (j : BitVec 8) (h : legalInternalRound j = false) : internalRoundOf j = none := by
  simp only [legalInternalRound, decide_eq_false_iff_not] at h
  rw [internalRoundOf, dif_neg (by omega)]

theorem squeezeStepOf_legal (i : BitVec 8) (h : legalSqueezeStep i = true) :
    ∃ n : Fin 24, squeezeStepOf i = some n ∧ n.val = i.toNat := by
  simp only [legalSqueezeStep, decide_eq_true_eq] at h
  exact ⟨⟨i.toNat, by omega⟩, by rw [squeezeStepOf, dif_pos (by omega)], rfl⟩

theorem squeezeStepOf_illegal (i : BitVec 8) (h : legalSqueezeStep i = false) : squeezeStepOf i = none := by
  simp only [legalSqueezeStep, decide_eq_false_iff_not] at h
  rw [squeezeStepOf, dif_neg (by omega)]

theorem mixOperands_legal (c w : BitVec 8) (hc : legalColumn c = true) (hw : legalRelabel w = true) :
    ∃ n : Fin 4, n.val = c.toNat ∧ mixOperands c w = some (n, decide (w.toNat = 1)) := by
  obtain ⟨n, hn, hv⟩ := columnOf_legal c hc
  exact ⟨n, hv, by rw [mixOperands, hn, relabelOf_legal w hw]⟩

theorem mixOperands_illegal (c w : BitVec 8) (h : (legalColumn c && legalRelabel w) = false) :
    mixOperands c w = none := by
  rcases Bool.and_eq_false_iff.mp h with h | h
  · rw [mixOperands, columnOf_illegal c h]
  · unfold mixOperands
    rw [relabelOf_illegal w h]
    cases columnOf c <;> rfl

theorem romWord_illegal (P : Params) (t : BitVec 8) (imm : Word) (h : legalRomIndex t imm = false) :
    romWord P t imm = none := by
  unfold romWord
  unfold legalRomIndex romLength at h
  split <;> rename_i ht <;> simp only [ht, decide_eq_false_iff_not] at h <;> simp_all

theorem romWord_legal (P : Params) (t : BitVec 8) (imm : Word) (h : legalRomIndex t imm = true) :
    ∃ x, romWord P t imm = some x := by
  unfold romWord
  unfold legalRomIndex romLength at h
  split <;> rename_i ht <;> simp only [ht, decide_eq_true_eq] at h <;> simp_all

/-- The checks of R238 in their order: what each answer means. -/
theorem vectorCheck_eq_none (tag : Word) (u : Uses) (s : State) :
    vectorCheck tag u s = none ↔ nullOperand u s = false ∧ s.tag = tag := by
  unfold vectorCheck
  cases h : nullOperand u s <;> simp

theorem vectorCheck_eq_some (tag : Word) (u : Uses) (s : State) (f : Failure) :
    vectorCheck tag u s = some f ↔
      (nullOperand u s = true ∧ f = .precond) ∨ (nullOperand u s = false ∧ s.tag ≠ tag ∧ f = .ctx) := by
  unfold vectorCheck
  cases h : nullOperand u s
  · by_cases ht : s.tag = tag <;> simp [ht, eq_comm]
  · simp [eq_comm]

theorem nullOperand_eq_false (u : Uses) (s : State) :
    nullOperand u s = false ↔
      (u.src = true → s.src ≠ 0) ∧ (u.dst = true → s.dst ≠ 0) ∧ (u.cnt = true → s.cnt ≠ 0) := by
  unfold nullOperand
  cases u.src <;> cases u.dst <;> cases u.cnt <;> simp [and_assoc]

end Sys2Proof.Machine
end

