-- ==== Sys2Proof/Laws/Exec.lean ====
section
/-! SUPPORT. What exec can do, said once: how a command ends (60_exceptions.md R290 to R300), and which
fields it may change when it succeeds (10_state.md R20). -/

namespace Sys2Proof.Machine

/-- The checks of R238 that apply to a command; none for the commands outside 0x42 to 0x53. -/
def vectorUses : Instr → Option Uses
  | .vldraw | .vload => some { src := true }
  | .vstraw | .vstore => some { dst := true }
  | .benc | .bdec => some { src := true, dst := true, cnt := true }
  | .vxpose | .vixpose | .vsubc _ | .vcolmix | .vicolmix | .vshrows | .vishrows | .vark _ | .vfround _
  | .viround _ | .venc8 | .vdec8 => some {}
  | .nop | .setsrc _ | .setdst _ | .setcnt _ | .romrd _ _ | .mixg _ _ | .mixh _ _ | .mixk _ _ | .imixg _ _
  | .imixh _ _ | .imixk _ _ | .subc _ | .colmix | .icolmix | .shrows | .ishrows | .ark _ | .fround _
  | .iround _ | .ldblk | .stblk | .enc | .dec | .ksinit | .ksprnd _ | .ksperm | .kssqz _ | .keysched
  | .kwipe | .ldsk | .stsk | .ctxinit | .ctxclr => none

/-- The fields a command's effect may change (R20), as an equation on the state `e` it leaves. -/
def Changes (i : Instr) (s e : State) : Prop :=
  match i with
  | .nop => e = s
  | .setsrc x => e = { s with src := x }
  | .setdst x => e = { s with dst := x }
  | .setcnt x => e = { s with cnt := x }
  | .mixg _ _ | .mixh _ _ | .mixk _ _ | .imixg _ _ | .imixh _ _ | .imixk _ _ | .subc _ | .colmix | .icolmix
  | .shrows | .ishrows | .ark _ | .fround _ | .iround _ | .ldblk => e = { s with sReg := e.sReg }
  | .romrd _ _ | .stblk | .stsk | .vstraw => e = { s with mem := e.mem }
  | .enc | .dec => e = { s with sReg := e.sReg, mem := e.mem }
  | .ksinit | .ksprnd _ | .ksperm => e = { s with kss := e.kss }
  | .kssqz _ | .keysched => e = { s with sk := e.sk, kss := e.kss }
  | .kwipe | .ldsk => e = { s with sk := e.sk }
  | .ctxinit => e = { s with bk := e.bk, brc := e.brc, ck := e.ck, tag := e.tag, capQ := true, capV := true }
  | .ctxclr => e = { s with v := e.v, bk := e.bk, brc := e.brc, ck := e.ck, tag := e.tag }
  | .vldraw | .vxpose | .vixpose | .vload | .vsubc _ | .vcolmix | .vicolmix | .vshrows | .vishrows | .vark _
  | .vfround _ | .viround _ | .venc8 | .vdec8 => e = { s with v := e.v }
  | .vstore => e = { s with v := e.v, mem := e.mem }
  | .benc | .bdec => e = { s with sReg := e.sReg, v := e.v, mem := e.mem }

/-- The ways a command can end. -/
inductive Ends (s : State) (i : Instr) : Host.Outcome State Fault Refusal → Prop
  /-- an operand out of range: E_ILLEGAL -/
  | illegal (h : i.wellFormed = false) : Ends s i (.next (s.fail .illegal))
  /-- a check of R238 fails -/
  | check (u : Uses) (f : Failure) (hw : i.wellFormed = true) (hu : vectorUses i = some u)
      (hf : vectorCheck Config.params.ctxTag u s = some f) : Ends s i (.next (s.fail f))
  /-- CTXINIT without the capability -/
  | nocap (hi : i = .ctxinit) (hq : (latchCapability s).capQ = false) :
      Ends s i (.next ((latchCapability s).fail .nocap))
  /-- a batch with partial overlap -/
  | overlap (hi : i = .benc ∨ i = .bdec)
      (hc : vectorCheck Config.params.ctxTag { src := true, dst := true, cnt := true } s = none)
      (hp : partialOverlap s.src s.dst (64 * s.cnt.toNat) = true) : Ends s i (.refused .partialOverlap)
  /-- success -/
  | done (e : State) (hw : i.wellFormed = true)
      (hc : ∀ u, vectorUses i = some u → vectorCheck Config.params.ctxTag u s = none)
      (hp : i = .benc ∨ i = .bdec → partialOverlap s.src s.dst (64 * s.cnt.toNat) = false)
      (hq : i = .ctxinit → (latchCapability s).capQ = true)
      (he : Changes i s e) : Ends s i (.next e.succeed)

/-- A command without operand range and without check. -/
theorem ends_plain {i : Instr} (s e : State) (hw : i.wellFormed = true) (hu : vectorUses i = none)
    (hb : ¬ (i = .benc ∨ i = .bdec)) (hx : i ≠ .ctxinit) (he : Changes i s e) : Ends s i (.next e.succeed) :=
  .done e hw (fun u h => by rw [hu] at h; exact absurd h (by simp)) (fun h => absurd h hb)
    (fun h => absurd h hx) he

/-- A command with a small operand and no check. -/
theorem ends_withOperand {i : Instr} {α : Type} (s : State) (o : Option α) (effect : α → State)
    (hn : i.wellFormed = false → o = none) (hs : i.wellFormed = true → ∃ x, o = some x)
    (hu : vectorUses i = none) (hb : ¬ (i = .benc ∨ i = .bdec)) (hx : i ≠ .ctxinit)
    (he : ∀ x, Changes i s (effect x)) : Ends s i (.next (s.withOperand o effect)) := by
  cases hw : i.wellFormed with
  | false => rw [hn hw]; exact .illegal hw
  | true => obtain ⟨x, rfl⟩ := hs hw; exact ends_plain s _ hw hu hb hx (he x)

/-- A vector command without a small operand. -/
theorem ends_vectorOp {i : Instr} (s : State) (u : Uses) (e : State) (hw : i.wellFormed = true)
    (hu : vectorUses i = some u) (hb : ¬ (i = .benc ∨ i = .bdec)) (hx : i ≠ .ctxinit) (he : Changes i s e) :
    Ends s i (.next (s.vectorOp u e)) := by
  rcases s.vectorOp_cases u e with ⟨f, hf, h⟩ | ⟨hn, h⟩
  · rw [h]; exact .check u f hw hu hf
  · rw [h]
    exact .done e hw (fun u' h' => by rw [hu] at h'; cases h'; exact hn) (fun h => absurd h hb)
      (fun h => absurd h hx) he

/-- A vector command with a small operand. -/
theorem ends_vectorOpWith {i : Instr} {α : Type} (s : State) (o : Option α) (effect : α → State)
    (hn : i.wellFormed = false → o = none) (hs : i.wellFormed = true → ∃ x, o = some x)
    (hu : vectorUses i = some {}) (hb : ¬ (i = .benc ∨ i = .bdec)) (hx : i ≠ .ctxinit)
    (he : ∀ x, Changes i s (effect x)) : Ends s i (.next (s.vectorOpWith o effect)) := by
  cases hw : i.wellFormed with
  | false => rw [hn hw]; exact .illegal hw
  | true => obtain ⟨x, rfl⟩ := hs hw; exact ends_vectorOp s {} _ hw hu hb hx (he x)

theorem roundOf_some (r : BitVec 8) (h : legalRound r = true) : ∃ n, roundOf r = some n :=
  (roundOf_legal r h).imp fun _ h => h.1

theorem subkeyOf_some (k : BitVec 8) (h : legalSubkey k = true) : ∃ n, subkeyOf k = some n :=
  (subkeyOf_legal k h).imp fun _ h => h.1

theorem internalRoundOf_some (j : BitVec 8) (h : legalInternalRound j = true) : ∃ n, internalRoundOf j = some n :=
  (internalRoundOf_legal j h).imp fun _ h => h.1

theorem squeezeStepOf_some (i : BitVec 8) (h : legalSqueezeStep i = true) : ∃ n, squeezeStepOf i = some n :=
  (squeezeStepOf_legal i h).imp fun _ h => h.1

theorem ends_mixCommand {i : Instr} (f : Quad → Quad) (c w : BitVec 8) (s : State)
    (hw : i.wellFormed = (legalColumn c && legalRelabel w)) (hu : vectorUses i = none)
    (hb : ¬ (i = .benc ∨ i = .bdec)) (hx : i ≠ .ctxinit)
    (he : ∀ X, Changes i s { s with sReg := X }) : Ends s i (.next (mixCommand f c w s)) :=
  ends_withOperand s _ _ (fun h => mixOperands_illegal c w (hw ▸ h))
    (fun h => by
      rw [hw, Bool.and_eq_true] at h
      obtain ⟨n, -, hn⟩ := mixOperands_legal c w h.1 h.2
      exact ⟨_, hn⟩) hu hb hx (fun _ => he _)

theorem ends_batchCommand {i : Instr} (d : Direction) (s : State) (hi : i = .benc ∨ i = .bdec) :
    Ends s i (batchCommand d s) := by
  have hw : i.wellFormed = true := by rcases hi with rfl | rfl <;> rfl
  have hu : vectorUses i = some { src := true, dst := true, cnt := true } := by
    rcases hi with rfl | rfl <;> rfl
  rcases batchCommand_cases d s with ⟨f, hf, h⟩ | ⟨hn, hp, h⟩ | ⟨hn, hp, h⟩
  · rw [h]; exact .check _ f hw hu hf
  · rw [h]; exact .overlap hi hn hp
  · rw [h]
    refine .done _ hw (fun u' h' => by rw [hu] at h'; cases h'; exact hn) (fun _ => hp) ?_ ?_
    · rintro rfl; rcases hi with h | h <;> cases h
    · rcases hi with rfl | rfl <;> exact batch_frame _ d s

theorem ends_ctxinit (s : State) : Ends s .ctxinit (execCtxinit s) := by
  unfold execCtxinit
  cases hq : (latchCapability s).capQ with
  | false =>
    simp only [hq, Bool.false_eq_true, if_false, State.unlessFails_some]
    exact .nocap rfl hq
  | true =>
    simp only [hq, if_true, State.unlessFails_none]
    refine .done _ rfl (fun u h => by cases h) (fun h => by rcases h with h | h <;> cases h) (fun _ => hq) ?_
    unfold Changes buildContext
    cases hv : s.capV with
    | true => simp_all [latchCapability]
    | false => simp_all [latchCapability]

/-- STBLK, STSK and VSTRAW change memory; ENC and DEC memory and S; VSTORE memory and V. -/
theorem changes_stblk (s : State) (m : Memory) : Changes .stblk s { s with mem := m } := rfl
theorem changes_stsk (s : State) (m : Memory) : Changes .stsk s { s with mem := m } := rfl
theorem changes_vstraw (s : State) (m : Memory) : Changes .vstraw s { s with mem := m } := rfl
theorem changes_enc (s : State) (X : Block) (m : Memory) : Changes .enc s { s with sReg := X, mem := m } := rfl
theorem changes_dec (s : State) (X : Block) (m : Memory) : Changes .dec s { s with sReg := X, mem := m } := rfl
theorem changes_vstore (s : State) (V : WideFile) (m : Memory) :
    Changes .vstore s { s with v := V, mem := m } := rfl

theorem ends_stblk (s : State) : Ends s .stblk (exec .stblk s) := by
  unfold exec execStblk
  refine ends_plain s _ rfl rfl (by simp) (by simp) ?_
  exact changes_stblk s (storeMat s.mem s.dst s.sReg)

theorem ends_stsk (s : State) : Ends s .stsk (exec .stsk s) := by
  unfold exec execStsk
  refine ends_plain s _ rfl rfl (by simp) (by simp) ?_
  exact changes_stsk s (storeSchedule s.mem s.dst s.sk)

theorem ends_enc (s : State) : Ends s .enc (exec .enc s) := by
  unfold exec execEnc cipherCommand
  refine ends_plain s _ rfl rfl (by simp) (by simp) ?_
  exact changes_enc s _ _

theorem ends_dec (s : State) : Ends s .dec (exec .dec s) := by
  unfold exec execDec cipherCommand
  refine ends_plain s _ rfl rfl (by simp) (by simp) ?_
  exact changes_dec s _ _

theorem ends_vstraw (s : State) : Ends s .vstraw (exec .vstraw s) := by
  unfold exec execVstraw
  refine ends_vectorOp s _ _ rfl rfl (by simp) (by simp) ?_
  exact changes_vstraw s _

theorem ends_vstore (s : State) : Ends s .vstore (exec .vstore s) := by
  unfold exec execVstore
  refine ends_vectorOp s _ _ rfl rfl (by simp) (by simp) ?_
  exact changes_vstore s _ _

/-- Every command ends in one of the ways of `Ends`. -/
theorem exec_ends (i : Instr) (s : State) : Ends s i (exec i s) := by
  cases i with
  | nop => exact ends_plain s _ rfl rfl (by simp) (by simp) rfl
  | setsrc x => exact ends_plain s _ rfl rfl (by simp) (by simp) rfl
  | setdst x => exact ends_plain s _ rfl rfl (by simp) (by simp) rfl
  | setcnt x => exact ends_plain s _ rfl rfl (by simp) (by simp) rfl
  | romrd t x =>
    exact ends_withOperand s _ _ (romWord_illegal _ t x) (romWord_legal _ t x) rfl (by simp) (by simp) fun _ => rfl
  | mixg c w => exact ends_mixCommand _ c w s rfl rfl (by simp) (by simp) fun _ => rfl
  | mixh c w => exact ends_mixCommand _ c w s rfl rfl (by simp) (by simp) fun _ => rfl
  | mixk c w => exact ends_mixCommand _ c w s rfl rfl (by simp) (by simp) fun _ => rfl
  | imixg c w => exact ends_mixCommand _ c w s rfl rfl (by simp) (by simp) fun _ => rfl
  | imixh c w => exact ends_mixCommand _ c w s rfl rfl (by simp) (by simp) fun _ => rfl
  | imixk c w => exact ends_mixCommand _ c w s rfl rfl (by simp) (by simp) fun _ => rfl
  | subc r =>
    exact ends_withOperand s _ _ (roundOf_illegal r) (roundOf_some r) rfl (by simp) (by simp) fun _ => rfl
  | colmix => exact ends_plain s _ rfl rfl (by simp) (by simp) rfl
  | icolmix => exact ends_plain s _ rfl rfl (by simp) (by simp) rfl
  | shrows => exact ends_plain s _ rfl rfl (by simp) (by simp) rfl
  | ishrows => exact ends_plain s _ rfl rfl (by simp) (by simp) rfl
  | ark k =>
    exact ends_withOperand s _ _ (subkeyOf_illegal k) (subkeyOf_some k) rfl (by simp) (by simp) fun _ => rfl
  | fround r =>
    exact ends_withOperand s _ _ (roundOf_illegal r) (roundOf_some r) rfl (by simp) (by simp) fun _ => rfl
  | iround r =>
    exact ends_withOperand s _ _ (roundOf_illegal r) (roundOf_some r) rfl (by simp) (by simp) fun _ => rfl
  | ldblk => exact ends_plain s _ rfl rfl (by simp) (by simp) rfl
  | stblk => exact ends_stblk s
  | enc => exact ends_enc s
  | dec => exact ends_dec s
  | ksinit => exact ends_plain s _ rfl rfl (by simp) (by simp) rfl
  | ksprnd j =>
    exact ends_withOperand s _ _ (internalRoundOf_illegal j) (internalRoundOf_some j) rfl (by simp) (by simp) fun _ => rfl
  | ksperm => exact ends_plain s _ rfl rfl (by simp) (by simp) rfl
  | kssqz i =>
    exact ends_withOperand s _ _ (squeezeStepOf_illegal i) (squeezeStepOf_some i) rfl (by simp) (by simp) fun _ => rfl
  | keysched => exact ends_plain s _ rfl rfl (by simp) (by simp) rfl
  | kwipe => exact ends_plain s _ rfl rfl (by simp) (by simp) rfl
  | ldsk => exact ends_plain s _ rfl rfl (by simp) (by simp) rfl
  | stsk => exact ends_stsk s
  | ctxinit => exact ends_ctxinit s
  | ctxclr => exact ends_plain s _ rfl rfl (by simp) (by simp) rfl
  | vldraw => exact ends_vectorOp s _ _ rfl rfl (by simp) (by simp) rfl
  | vxpose => exact ends_vectorOp s _ _ rfl rfl (by simp) (by simp) rfl
  | vixpose => exact ends_vectorOp s _ _ rfl rfl (by simp) (by simp) rfl
  | vstraw => exact ends_vstraw s
  | vload => exact ends_vectorOp s _ _ rfl rfl (by simp) (by simp) rfl
  | vstore => exact ends_vstore s
  | vsubc r =>
    exact ends_vectorOpWith s _ _ (roundOf_illegal r) (roundOf_some r) rfl (by simp) (by simp) fun _ => rfl
  | vcolmix => exact ends_vectorOp s _ _ rfl rfl (by simp) (by simp) rfl
  | vicolmix => exact ends_vectorOp s _ _ rfl rfl (by simp) (by simp) rfl
  | vshrows => exact ends_vectorOp s _ _ rfl rfl (by simp) (by simp) rfl
  | vishrows => exact ends_vectorOp s _ _ rfl rfl (by simp) (by simp) rfl
  | vark k =>
    exact ends_vectorOpWith s _ _ (subkeyOf_illegal k) (subkeyOf_some k) rfl (by simp) (by simp) fun _ => rfl
  | vfround r =>
    exact ends_vectorOpWith s _ _ (roundOf_illegal r) (roundOf_some r) rfl (by simp) (by simp) fun _ => rfl
  | viround r =>
    exact ends_vectorOpWith s _ _ (roundOf_illegal r) (roundOf_some r) rfl (by simp) (by simp) fun _ => rfl
  | venc8 => exact ends_vectorOp s _ _ rfl rfl (by simp) (by simp) rfl
  | vdec8 => exact ends_vectorOp s _ _ rfl rfl (by simp) (by simp) rfl
  | benc => exact ends_batchCommand .encrypt s (.inl rfl)
  | bdec => exact ends_batchCommand .decrypt s (.inr rfl)

/-! ### Consequences -/

/-- No effect touches ERRSEEN, pc, the host's list or the input. -/
theorem changes_keep {i : Instr} {s e : State} (h : Changes i s e) :
    e.errSeen = s.errSeen ∧ e.pc = s.pc ∧ e.pending = s.pending ∧ e.capUsable = s.capUsable := by
  cases i <;> simp only [Changes] at h <;> rw [h] <;> exact ⟨rfl, rfl, rfl, rfl⟩

/-- A command whose check fails ends with that failure. -/
theorem ends_fail_of_check {i : Instr} {s : State} {u : Uses} {f : Failure}
    {o : Host.Outcome State Fault Refusal} (hw : i.wellFormed = true) (hu : vectorUses i = some u)
    (hf : vectorCheck Config.params.ctxTag u s = some f) (h : Ends s i o) : o = .next (s.fail f) := by
  cases h with
  | illegal h => simp [hw] at h
  | check u' f' hw' hu' hf' => rw [hu] at hu'; cases hu'; rw [hf] at hf'; cases hf'; rfl
  | nocap hi hq => subst hi; cases hu
  | overlap hi hc hp => rcases hi with rfl | rfl <;> (cases hu; rw [hf] at hc; cases hc)
  | done e hw hc hp hq he => rw [hc u hu] at hf; cases hf

/-- CTXINIT without the capability fails E_NOCAP. -/
theorem ends_fail_of_cap {s : State} {o : Host.Outcome State Fault Refusal}
    (hf : (latchCapability s).capQ = false) (h : Ends s .ctxinit o) :
    o = .next ((latchCapability s).fail .nocap) := by
  cases h with
  | illegal h => cases h
  | check u' f' hw' hu' hf' => cases hu'
  | nocap hi hq => rfl
  | overlap hi hc hp => rcases hi with hi | hi <;> cases hi
  | done e hw hc hp hq he => rw [hq rfl] at hf; cases hf

/-- An ill-formed command fails E_ILLEGAL. -/
theorem ends_fail_of_illFormed {i : Instr} {s : State} {o : Host.Outcome State Fault Refusal}
    (hw : i.wellFormed = false) (h : Ends s i o) : o = .next (s.fail .illegal) := by
  cases h with
  | illegal h => rfl
  | check u' f' hw' hu' hf' => rw [hw] at hw'; cases hw'
  | nocap hi hq => subst hi; cases hw
  | overlap hi hc hp => rcases hi with rfl | rfl <;> cases hw
  | done e hw' hc hp hq he => rw [hw] at hw'; cases hw'

/-- The answer CTXINIT goes by (R211). -/
theorem latchCapability_capQ (s : State) :
    (latchCapability s).capQ = if s.capV then s.capQ else s.capUsable := by
  unfold latchCapability; split <;> rfl

theorem latchCapability_eq (s : State) :
    latchCapability s = { s with capQ := if s.capV then s.capQ else s.capUsable, capV := true } := by
  unfold latchCapability
  cases h : s.capV with
  | true => simp only [if_true]; rw [← h]
  | false => simp

end Sys2Proof.Machine
end

