-- ==== Sys2Proof/Laws/Equations.lean ====
section
/-! SUPPORT. The meaning of every constructor as one equation, for a legal operand and checks that pass: a
proof about a command rewrites with its equation and never unfolds exec. -/

namespace Sys2Proof.Machine

theorem next_withOperand {α : Type} (s : State) {o : Option α} {y : α} (h : o = some y) (effect : α → State) :
    (Host.Outcome.next (s.withOperand o effect) : Host.Outcome State Fault Refusal) = .next (effect y).succeed := by
  rw [h, State.withOperand_some]

theorem next_vectorOp (s : State) {u : Uses} (e : State) (hc : vectorCheck Config.params.ctxTag u s = none) :
    (Host.Outcome.next (s.vectorOp u e) : Host.Outcome State Fault Refusal) = .next e.succeed := by
  rw [s.vectorOp_of_check u e hc]

theorem next_vectorOpWith {α : Type} (s : State) {o : Option α} {y : α} (h : o = some y) (effect : α → State)
    (hc : vectorCheck Config.params.ctxTag {} s = none) :
    (Host.Outcome.next (s.vectorOpWith o effect) : Host.Outcome State Fault Refusal) = .next (effect y).succeed := by
  rw [h, State.vectorOpWith_some, s.vectorOp_of_check {} _ hc]

theorem next_batchCommand (d : Direction) (s : State)
    (hc : vectorCheck Config.params.ctxTag { src := true, dst := true, cnt := true } s = none)
    (hp : partialOverlap s.src s.dst (64 * s.cnt.toNat) = false) :
    batchCommand d s = .next (batch Config.params d s).succeed := by
  simp only [batchCommand, hc, hp, Bool.false_eq_true, if_false]

theorem exec_nop (s : State) :
    exec .nop s = .next s.succeed := rfl

theorem exec_setsrc (s : State) (x : Word) :
    exec (.setsrc x) s = .next ({ s with src := x } : State).succeed := rfl

theorem exec_setdst (s : State) (x : Word) :
    exec (.setdst x) s = .next ({ s with dst := x } : State).succeed := rfl

theorem exec_setcnt (s : State) (x : Word) :
    exec (.setcnt x) s = .next ({ s with cnt := x } : State).succeed := rfl

theorem exec_colmix (s : State) :
    exec .colmix s = .next ({ s with sReg := columnMix s.sReg } : State).succeed := rfl

theorem exec_icolmix (s : State) :
    exec .icolmix s = .next ({ s with sReg := invColumnMix s.sReg } : State).succeed := rfl

theorem exec_shrows (s : State) :
    exec .shrows s = .next ({ s with sReg := shiftRows s.sReg } : State).succeed := rfl

theorem exec_ishrows (s : State) :
    exec .ishrows s = .next ({ s with sReg := invShiftRows s.sReg } : State).succeed := rfl

theorem exec_ldblk (s : State) :
    exec .ldblk s = .next ({ s with sReg := loadBlock s.mem s.src } : State).succeed := rfl

theorem exec_stblk (s : State) :
    exec .stblk s = .next ({ s with mem := storeMat s.mem s.dst s.sReg } : State).succeed := rfl

theorem exec_enc (s : State) :
    exec .enc s = .next (cipherCommand (encrypt Config.params s.sk) s).succeed := rfl

theorem exec_dec (s : State) :
    exec .dec s = .next (cipherCommand (decrypt Config.params s.sk) s).succeed := rfl

theorem exec_ksinit (s : State) :
    exec .ksinit s = .next ({ s with kss := sponge0 Config.params (loadMat 1 8 s.mem s.src) } : State).succeed := rfl

theorem exec_ksperm (s : State) :
    exec .ksperm s = .next ({ s with kss := permute Config.params s.kss } : State).succeed := rfl

theorem exec_keysched (s : State) :
    exec .keysched s = .next ({ s with sk := keySchedule Config.params (loadMat 1 8 s.mem s.src), kss := Mat.zero } : State).succeed := rfl

theorem exec_kwipe (s : State) :
    exec .kwipe s = .next ({ s with sk := Vector.replicate 24 Mat.zero } : State).succeed := rfl

theorem exec_ldsk (s : State) :
    exec .ldsk s = .next ({ s with sk := loadSchedule s.mem s.src } : State).succeed := rfl

theorem exec_stsk (s : State) :
    exec .stsk s = .next ({ s with mem := storeSchedule s.mem s.dst s.sk } : State).succeed := rfl

theorem exec_ctxclr (s : State) :
    exec .ctxclr s = .next (clearContext s).succeed := rfl

theorem exec_romrd (s : State) {t : BitVec 8} {imm x : Word} (h : romWord Config.params t imm = some x) :
    exec (.romrd t imm) s =
      .next ({ s with mem := s.mem.writeWord s.dst x } : State).succeed :=
  next_withOperand s h fun x => { s with mem := s.mem.writeWord s.dst x }

theorem exec_subc (s : State) {r : BitVec 8} {n : Fin 22} (h : roundOf r = some n) :
    exec (.subc r) s =
      .next ({ s with sReg := subConstants Config.params n s.sReg } : State).succeed :=
  next_withOperand s h fun x => { s with sReg := subConstants Config.params x s.sReg }

theorem exec_ark (s : State) {k : BitVec 8} {n : Fin 24} (h : subkeyOf k = some n) :
    exec (.ark k) s =
      .next ({ s with sReg := addRoundKey s.sk n s.sReg } : State).succeed :=
  next_withOperand s h fun x => { s with sReg := addRoundKey s.sk x s.sReg }

theorem exec_fround (s : State) {r : BitVec 8} {n : Fin 22} (h : roundOf r = some n) :
    exec (.fround r) s =
      .next ({ s with sReg := fwdRound Config.params s.sk n s.sReg } : State).succeed :=
  next_withOperand s h fun x => { s with sReg := fwdRound Config.params s.sk x s.sReg }

theorem exec_iround (s : State) {r : BitVec 8} {n : Fin 22} (h : roundOf r = some n) :
    exec (.iround r) s =
      .next ({ s with sReg := invRound Config.params s.sk n s.sReg } : State).succeed :=
  next_withOperand s h fun x => { s with sReg := invRound Config.params s.sk x s.sReg }

theorem exec_ksprnd (s : State) {j : BitVec 8} {n : Fin 16} (h : internalRoundOf j = some n) :
    exec (.ksprnd j) s =
      .next ({ s with kss := internalRound Config.params n s.kss } : State).succeed :=
  next_withOperand s h fun x => { s with kss := internalRound Config.params x s.kss }

theorem exec_kssqz (s : State) {i : BitVec 8} {n : Fin 24} (h : squeezeStepOf i = some n) :
    exec (.kssqz i) s =
      .next ({ s with sk := s.sk.set n.val (squeezed s.kss), kss := squeezeNext Config.params n s.kss } : State).succeed :=
  next_withOperand s h fun x => { s with sk := s.sk.set x.val (squeezed s.kss), kss := squeezeNext Config.params x s.kss }

theorem exec_mixg (s : State) {c w : BitVec 8} {n : Fin 4} {b : Bool} (h : mixOperands c w = some (n, b)) :
    exec (.mixg c w) s =
      .next ({ s with sReg := mixColumn (mix .g) n b s.sReg } : State).succeed :=
  next_withOperand s h fun p => { s with sReg := mixColumn (mix .g) p.1 p.2 s.sReg }

theorem exec_mixh (s : State) {c w : BitVec 8} {n : Fin 4} {b : Bool} (h : mixOperands c w = some (n, b)) :
    exec (.mixh c w) s =
      .next ({ s with sReg := mixColumn (mix .h) n b s.sReg } : State).succeed :=
  next_withOperand s h fun p => { s with sReg := mixColumn (mix .h) p.1 p.2 s.sReg }

theorem exec_mixk (s : State) {c w : BitVec 8} {n : Fin 4} {b : Bool} (h : mixOperands c w = some (n, b)) :
    exec (.mixk c w) s =
      .next ({ s with sReg := mixColumn (mix .k) n b s.sReg } : State).succeed :=
  next_withOperand s h fun p => { s with sReg := mixColumn (mix .k) p.1 p.2 s.sReg }

theorem exec_imixg (s : State) {c w : BitVec 8} {n : Fin 4} {b : Bool} (h : mixOperands c w = some (n, b)) :
    exec (.imixg c w) s =
      .next ({ s with sReg := mixColumn (imix .g) n b s.sReg } : State).succeed :=
  next_withOperand s h fun p => { s with sReg := mixColumn (imix .g) p.1 p.2 s.sReg }

theorem exec_imixh (s : State) {c w : BitVec 8} {n : Fin 4} {b : Bool} (h : mixOperands c w = some (n, b)) :
    exec (.imixh c w) s =
      .next ({ s with sReg := mixColumn (imix .h) n b s.sReg } : State).succeed :=
  next_withOperand s h fun p => { s with sReg := mixColumn (imix .h) p.1 p.2 s.sReg }

theorem exec_imixk (s : State) {c w : BitVec 8} {n : Fin 4} {b : Bool} (h : mixOperands c w = some (n, b)) :
    exec (.imixk c w) s =
      .next ({ s with sReg := mixColumn (imix .k) n b s.sReg } : State).succeed :=
  next_withOperand s h fun p => { s with sReg := mixColumn (imix .k) p.1 p.2 s.sReg }

theorem exec_vldraw (s : State) (hc : vectorCheck Config.params.ctxTag { src := true } s = none) :
    exec .vldraw s = .next ({ s with v := loadMat 16 8 s.mem s.src } : State).succeed :=
  next_vectorOp s _ hc

theorem exec_vxpose (s : State) (hc : vectorCheck Config.params.ctxTag {} s = none) :
    exec .vxpose s = .next ({ s with v := transpose s.v } : State).succeed :=
  next_vectorOp s _ hc

theorem exec_vixpose (s : State) (hc : vectorCheck Config.params.ctxTag {} s = none) :
    exec .vixpose s = .next ({ s with v := untranspose s.v } : State).succeed :=
  next_vectorOp s _ hc

theorem exec_vstraw (s : State) (hc : vectorCheck Config.params.ctxTag { dst := true } s = none) :
    exec .vstraw s = .next ({ s with mem := storeMat s.mem s.dst s.v } : State).succeed :=
  next_vectorOp s _ hc

theorem exec_vload (s : State) (hc : vectorCheck Config.params.ctxTag { src := true } s = none) :
    exec .vload s = .next ({ s with v := transpose (loadMat 16 8 s.mem s.src) } : State).succeed :=
  next_vectorOp s _ hc

theorem exec_vstore (s : State) (hc : vectorCheck Config.params.ctxTag { dst := true } s = none) :
    exec .vstore s = .next ({ s with v := untranspose s.v, mem := storeMat s.mem s.dst (untranspose s.v) } : State).succeed :=
  next_vectorOp s _ hc

theorem exec_vcolmix (s : State) (hc : vectorCheck Config.params.ctxTag {} s = none) :
    exec .vcolmix s = .next ({ s with v := wideColumnMix s.v } : State).succeed :=
  next_vectorOp s _ hc

theorem exec_vicolmix (s : State) (hc : vectorCheck Config.params.ctxTag {} s = none) :
    exec .vicolmix s = .next ({ s with v := wideInvColumnMix s.v } : State).succeed :=
  next_vectorOp s _ hc

theorem exec_vshrows (s : State) (hc : vectorCheck Config.params.ctxTag {} s = none) :
    exec .vshrows s = .next ({ s with v := wideShiftRows s.v } : State).succeed :=
  next_vectorOp s _ hc

theorem exec_vishrows (s : State) (hc : vectorCheck Config.params.ctxTag {} s = none) :
    exec .vishrows s = .next ({ s with v := wideInvShiftRows s.v } : State).succeed :=
  next_vectorOp s _ hc

theorem exec_venc8 (s : State) (hc : vectorCheck Config.params.ctxTag {} s = none) :
    exec .venc8 s = .next ({ s with v := wideEncrypt s.bk s.brc s.v } : State).succeed :=
  next_vectorOp s _ hc

theorem exec_vdec8 (s : State) (hc : vectorCheck Config.params.ctxTag {} s = none) :
    exec .vdec8 s = .next ({ s with v := wideDecrypt s.bk s.brc s.v } : State).succeed :=
  next_vectorOp s _ hc

theorem exec_vsubc (s : State) {r : BitVec 8} {n : Fin 22} (h : roundOf r = some n)
    (hc : vectorCheck Config.params.ctxTag {} s = none) :
    exec (.vsubc r) s = .next ({ s with v := wideSubConstants s.brc n s.v } : State).succeed :=
  next_vectorOpWith s h (fun x => { s with v := wideSubConstants s.brc x s.v }) hc

theorem exec_vark (s : State) {k : BitVec 8} {n : Fin 24} (h : subkeyOf k = some n)
    (hc : vectorCheck Config.params.ctxTag {} s = none) :
    exec (.vark k) s = .next ({ s with v := wideAddRoundKey s.bk n s.v } : State).succeed :=
  next_vectorOpWith s h (fun x => { s with v := wideAddRoundKey s.bk x s.v }) hc

theorem exec_vfround (s : State) {r : BitVec 8} {n : Fin 22} (h : roundOf r = some n)
    (hc : vectorCheck Config.params.ctxTag {} s = none) :
    exec (.vfround r) s = .next ({ s with v := wideFwdRound s.bk s.brc n s.v } : State).succeed :=
  next_vectorOpWith s h (fun x => { s with v := wideFwdRound s.bk s.brc x s.v }) hc

theorem exec_viround (s : State) {r : BitVec 8} {n : Fin 22} (h : roundOf r = some n)
    (hc : vectorCheck Config.params.ctxTag {} s = none) :
    exec (.viround r) s = .next ({ s with v := wideInvRound s.bk s.brc n s.v } : State).succeed :=
  next_vectorOpWith s h (fun x => { s with v := wideInvRound s.bk s.brc x s.v }) hc

theorem exec_benc (s : State) (hc : vectorCheck Config.params.ctxTag { src := true, dst := true, cnt := true } s = none)
    (hp : partialOverlap s.src s.dst (64 * s.cnt.toNat) = false) :
    exec .benc s = .next (batch Config.params .encrypt s).succeed :=
  next_batchCommand .encrypt s hc hp

theorem exec_bdec (s : State) (hc : vectorCheck Config.params.ctxTag { src := true, dst := true, cnt := true } s = none)
    (hp : partialOverlap s.src s.dst (64 * s.cnt.toNat) = false) :
    exec .bdec s = .next (batch Config.params .decrypt s).succeed :=
  next_batchCommand .decrypt s hc hp

/-- CTXINIT when the capability answer is "usable". -/
theorem exec_ctxinit (s : State) (h : (latchCapability s).capQ = true) :
    exec .ctxinit s = .next (buildContext Config.params (latchCapability s)).succeed := by
  show execCtxinit s = _
  simp only [execCtxinit, h, if_true, State.unlessFails_none]

/-- CTXINIT when it is "unusable". -/
theorem exec_ctxinit_nocap (s : State) (h : (latchCapability s).capQ = false) :
    exec .ctxinit s = .next ((latchCapability s).fail .nocap) := by
  show execCtxinit s = _
  simp only [execCtxinit, h, Bool.false_eq_true, if_false, State.unlessFails_some]

/-- The checks pass with a valid context and the operands the command uses not null. -/
theorem vectorCheck_pass {s : State} {u : Uses} (ht : s.tag = Config.params.ctxTag)
    (hs : u.src = true → s.src ≠ 0) (hd : u.dst = true → s.dst ≠ 0) (hn : u.cnt = true → s.cnt ≠ 0) :
    vectorCheck Config.params.ctxTag u s = none :=
  (vectorCheck_eq_none _ _ _).2 ⟨(nullOperand_eq_false u s).2 ⟨hs, hd, hn⟩, ht⟩

end Sys2Proof.Machine
end

