-- ==== Sys2Proof/Laws/PerInstr.lean ====
section
/-! SUPPORT. The family EncodeSelects, one lemma per constructor of Instr: the word of a command selects
that command's row with the operands in their places, and the fields its format does not use are 0
(30_encoding.md R91, R94). -/

namespace Sys2Proof.Laws.EncodeSelects

/-- The word of `i` selects the row of `i` with the operands of `i`, and its unused fields are 0. -/
def Statement (i : Instr) : Prop :=
  ∃ f, selectRow (encode i) = some (f, i) ∧ unusedFieldsZero f (encode i) = true

theorem selectRow_cmdWord (op a b : BitVec 8) (imm : Word) : selectRow (cmdWord op a b imm) = rowOf op a b imm := by
  simp only [selectRow, fieldOp_cmdWord, fieldA_cmdWord, fieldB_cmdWord, fieldImm_cmdWord]

theorem unused_n (op : BitVec 8) : unusedFieldsZero .n (cmdWord op 0 0 0) = true := by
  simp [unusedFieldsZero]

theorem unused_a (op a : BitVec 8) : unusedFieldsZero .a (cmdWord op a 0 0) = true := by
  simp [unusedFieldsZero]

theorem unused_ab (op a b : BitVec 8) : unusedFieldsZero .ab (cmdWord op a b 0) = true := by
  simp [unusedFieldsZero]

theorem unused_i (op : BitVec 8) (imm : Word) : unusedFieldsZero .i (cmdWord op 0 0 imm) = true := by
  simp [unusedFieldsZero]

theorem unused_ai (op a : BitVec 8) (imm : Word) : unusedFieldsZero .ai (cmdWord op a 0 imm) = true := by
  simp [unusedFieldsZero]

theorem nop : Statement .nop :=
  ⟨.n, selectRow_cmdWord _ _ _ _, unused_n _⟩

theorem setsrc (x : Word) : Statement (.setsrc x) :=
  ⟨.i, selectRow_cmdWord _ _ _ _, unused_i _ _⟩

theorem setdst (x : Word) : Statement (.setdst x) :=
  ⟨.i, selectRow_cmdWord _ _ _ _, unused_i _ _⟩

theorem setcnt (x : Word) : Statement (.setcnt x) :=
  ⟨.i, selectRow_cmdWord _ _ _ _, unused_i _ _⟩

theorem romrd (x : BitVec 8) (y : Word) : Statement (.romrd x y) :=
  ⟨.ai, selectRow_cmdWord _ _ _ _, unused_ai _ _ _⟩

theorem mixg (x y : BitVec 8) : Statement (.mixg x y) :=
  ⟨.ab, selectRow_cmdWord _ _ _ _, unused_ab _ _ _⟩

theorem mixh (x y : BitVec 8) : Statement (.mixh x y) :=
  ⟨.ab, selectRow_cmdWord _ _ _ _, unused_ab _ _ _⟩

theorem mixk (x y : BitVec 8) : Statement (.mixk x y) :=
  ⟨.ab, selectRow_cmdWord _ _ _ _, unused_ab _ _ _⟩

theorem imixg (x y : BitVec 8) : Statement (.imixg x y) :=
  ⟨.ab, selectRow_cmdWord _ _ _ _, unused_ab _ _ _⟩

theorem imixh (x y : BitVec 8) : Statement (.imixh x y) :=
  ⟨.ab, selectRow_cmdWord _ _ _ _, unused_ab _ _ _⟩

theorem imixk (x y : BitVec 8) : Statement (.imixk x y) :=
  ⟨.ab, selectRow_cmdWord _ _ _ _, unused_ab _ _ _⟩

theorem subc (x : BitVec 8) : Statement (.subc x) :=
  ⟨.a, selectRow_cmdWord _ _ _ _, unused_a _ _⟩

theorem colmix : Statement .colmix :=
  ⟨.n, selectRow_cmdWord _ _ _ _, unused_n _⟩

theorem icolmix : Statement .icolmix :=
  ⟨.n, selectRow_cmdWord _ _ _ _, unused_n _⟩

theorem shrows : Statement .shrows :=
  ⟨.n, selectRow_cmdWord _ _ _ _, unused_n _⟩

theorem ishrows : Statement .ishrows :=
  ⟨.n, selectRow_cmdWord _ _ _ _, unused_n _⟩

theorem ark (x : BitVec 8) : Statement (.ark x) :=
  ⟨.a, selectRow_cmdWord _ _ _ _, unused_a _ _⟩

theorem fround (x : BitVec 8) : Statement (.fround x) :=
  ⟨.a, selectRow_cmdWord _ _ _ _, unused_a _ _⟩

theorem iround (x : BitVec 8) : Statement (.iround x) :=
  ⟨.a, selectRow_cmdWord _ _ _ _, unused_a _ _⟩

theorem ldblk : Statement .ldblk :=
  ⟨.n, selectRow_cmdWord _ _ _ _, unused_n _⟩

theorem stblk : Statement .stblk :=
  ⟨.n, selectRow_cmdWord _ _ _ _, unused_n _⟩

theorem enc : Statement .enc :=
  ⟨.n, selectRow_cmdWord _ _ _ _, unused_n _⟩

theorem dec : Statement .dec :=
  ⟨.n, selectRow_cmdWord _ _ _ _, unused_n _⟩

theorem ksinit : Statement .ksinit :=
  ⟨.n, selectRow_cmdWord _ _ _ _, unused_n _⟩

theorem ksprnd (x : BitVec 8) : Statement (.ksprnd x) :=
  ⟨.a, selectRow_cmdWord _ _ _ _, unused_a _ _⟩

theorem ksperm : Statement .ksperm :=
  ⟨.n, selectRow_cmdWord _ _ _ _, unused_n _⟩

theorem kssqz (x : BitVec 8) : Statement (.kssqz x) :=
  ⟨.a, selectRow_cmdWord _ _ _ _, unused_a _ _⟩

theorem keysched : Statement .keysched :=
  ⟨.n, selectRow_cmdWord _ _ _ _, unused_n _⟩

theorem kwipe : Statement .kwipe :=
  ⟨.n, selectRow_cmdWord _ _ _ _, unused_n _⟩

theorem ldsk : Statement .ldsk :=
  ⟨.n, selectRow_cmdWord _ _ _ _, unused_n _⟩

theorem stsk : Statement .stsk :=
  ⟨.n, selectRow_cmdWord _ _ _ _, unused_n _⟩

theorem ctxinit : Statement .ctxinit :=
  ⟨.n, selectRow_cmdWord _ _ _ _, unused_n _⟩

theorem ctxclr : Statement .ctxclr :=
  ⟨.n, selectRow_cmdWord _ _ _ _, unused_n _⟩

theorem vldraw : Statement .vldraw :=
  ⟨.n, selectRow_cmdWord _ _ _ _, unused_n _⟩

theorem vxpose : Statement .vxpose :=
  ⟨.n, selectRow_cmdWord _ _ _ _, unused_n _⟩

theorem vixpose : Statement .vixpose :=
  ⟨.n, selectRow_cmdWord _ _ _ _, unused_n _⟩

theorem vstraw : Statement .vstraw :=
  ⟨.n, selectRow_cmdWord _ _ _ _, unused_n _⟩

theorem vload : Statement .vload :=
  ⟨.n, selectRow_cmdWord _ _ _ _, unused_n _⟩

theorem vstore : Statement .vstore :=
  ⟨.n, selectRow_cmdWord _ _ _ _, unused_n _⟩

theorem vsubc (x : BitVec 8) : Statement (.vsubc x) :=
  ⟨.a, selectRow_cmdWord _ _ _ _, unused_a _ _⟩

theorem vcolmix : Statement .vcolmix :=
  ⟨.n, selectRow_cmdWord _ _ _ _, unused_n _⟩

theorem vicolmix : Statement .vicolmix :=
  ⟨.n, selectRow_cmdWord _ _ _ _, unused_n _⟩

theorem vshrows : Statement .vshrows :=
  ⟨.n, selectRow_cmdWord _ _ _ _, unused_n _⟩

theorem vishrows : Statement .vishrows :=
  ⟨.n, selectRow_cmdWord _ _ _ _, unused_n _⟩

theorem vark (x : BitVec 8) : Statement (.vark x) :=
  ⟨.a, selectRow_cmdWord _ _ _ _, unused_a _ _⟩

theorem vfround (x : BitVec 8) : Statement (.vfround x) :=
  ⟨.a, selectRow_cmdWord _ _ _ _, unused_a _ _⟩

theorem viround (x : BitVec 8) : Statement (.viround x) :=
  ⟨.a, selectRow_cmdWord _ _ _ _, unused_a _ _⟩

theorem venc8 : Statement .venc8 :=
  ⟨.n, selectRow_cmdWord _ _ _ _, unused_n _⟩

theorem vdec8 : Statement .vdec8 :=
  ⟨.n, selectRow_cmdWord _ _ _ _, unused_n _⟩

theorem benc : Statement .benc :=
  ⟨.n, selectRow_cmdWord _ _ _ _, unused_n _⟩

theorem bdec : Statement .bdec :=
  ⟨.n, selectRow_cmdWord _ _ _ _, unused_n _⟩

end Sys2Proof.Laws.EncodeSelects
end

