-- ==== Sys2Proof/Laws/Run.lean ====
section
/-! SUPPORT. Runs of commands: one command, a command and the rest, two runs joined. -/

namespace Sys2Proof.Machine

theorem runAll_nil (s : State) : runAll [] s = .next s := rfl

theorem runAll_cons {i : Instr} {s t : State} (is : List Instr) (h : exec i s = .next t) :
    runAll (i :: is) s = runAll is t := by simp only [runAll, h]

theorem runAll_single {i : Instr} {s t : State} (h : exec i s = .next t) : runAll [i] s = .next t := by
  rw [runAll_cons [] h, runAll_nil]

theorem runAll_append {s t : State} (a b : List Instr) (h : runAll a s = .next t) :
    runAll (a ++ b) s = runAll b t := by
  induction a generalizing s with
  | nil => cases h; rfl
  | cons i a ih =>
    simp only [runAll, List.cons_append] at h ⊢
    cases he : exec i s with
    | next u => rw [he] at h; exact ih h
    | fault f => rw [he] at h; cases h
    | refused r => rw [he] at h; cases h

end Sys2Proof.Machine
end

