-- ==== Sys2Proof/Machine/Units.lean ====
section
/-! DEFINITION. The eleven units of the CORE (00_scope.md R2) and the interfaces of the combinational
ones (R131, R163, R190, R237, R275). The commands call the functions behind these; how many copies of
a unit exist is not observable (R131). DESIGN CHOICE (log entry 15): where a unit runs either way, the spec
does not say which value of its direction input selects the inverse; here `true` does. -/

namespace Sys2Proof.Machine

/-- The units (R2). -/
inductive CoreUnit where
  | arxMixer
  | arxMixerInverse
  | sboxLut
  | columnMixer
  | rowRotator
  | roundKeyInjector
  | scalarBlockCipherEngine
  | keyScheduleSponge
  | vectorizedBatchEngine8way
  | inRegisterTransposeUnit
  | roundConstantRom
  deriving DecidableEq, Repr

/-- `arx_mixer`: four words and a rotation set in, four words out (R131). -/
def unitArxMixer (x : MixSet) (q : Quad) : Quad := mix x q

/-- `arx_mixer_inverse` (R131). -/
def unitArxMixerInverse (x : MixSet) (q : Quad) : Quad := imix x q

/-- `sbox_lut`: the state XOR the round's chunk; there is no S-box (R145, R163). -/
def unitSboxLut (P : Params) (r : Fin 22) (X : Block) : Block := subConstants P r X

/-- `column_mixer`: a state and a direction bit in, `ColumnMix` or `InvColumnMix` out (R163). DESIGN CHOICE: the
bit is set for the inverse; R163 gives no polarity (log entry 15). -/
def unitColumnMixer (inverse : Bool) (X : Block) : Block := if inverse then invColumnMix X else columnMix X

/-- `row_rotator`: a state and a direction bit in, wiring only (R163). DESIGN CHOICE: the bit is set for the
inverse; R163 gives no polarity (log entry 15). -/
def unitRowRotator (inverse : Bool) (X : Block) : Block := if inverse then invShiftRows X else shiftRows X

/-- `round_key_injector`: the XOR of a state and a subkey (R163). -/
def unitRoundKeyInjector (X K : Block) : Block := matXor X K

/-- `scalar_block_cipher_engine`: with SK for the scalar commands, with CK for the tail of a batch
(R163). DESIGN CHOICE: R163 names no direction input of it; the argument is set for Decrypt (log entry 15). -/
def unitScalarEngine (P : Params) (inverse : Bool) (ks : Schedule) (X : Block) : Block :=
  if inverse then decrypt P ks X else encrypt P ks X

/-- `key_schedule_sponge`: the schedule of a master key (R190). -/
def unitKeyScheduleSponge (P : Params) (key : Mat 1 8) : Schedule := keySchedule P key

/-- `vectorized_batch_engine_8way`: the cipher on eight lanes (R237). DESIGN CHOICE: R237 names no direction
input of it; the argument is set for the inverse (log entry 15). -/
def unitVectorEngine (inverse : Bool) (bk : Vector WideFile 24) (brc : Vector WideFile 22)
    (V : WideFile) : WideFile :=
  if inverse then wideDecrypt bk brc V else wideEncrypt bk brc V

/-- `in_register_transpose_unit`: the network of R215 as VXPOSE and VIXPOSE use it (R237). DESIGN CHOICE: R237
names no direction input of it; the argument is set for VIXPOSE (log entry 15). -/
def unitTranspose (inverse : Bool) (V : WideFile) : WideFile := if inverse then untranspose V else transpose V

/-- `round_constant_rom`: a table number and a word index in, a word out (R275). -/
def unitRom (P : Params) (t : BitVec 8) (imm : Word) : Option Word := romWord P t imm

end Sys2Proof.Machine
end

