-- ==== Sys2Proof/Tests/Slice0.lean ====
section
/-! SUPPORT. Tests: the legal operand ranges, the decoding of words written out from the encoding, single
steps against the spec's vectors (95_test_vectors.md, 96_test_vectors_vector.md), and for every statement
with hypotheses a state and operands that meet them. -/

namespace Sys2Proof.Tests

open Sys2Proof.Machine Sys2Proof.Claims

set_option Elab.async false

/-! ### Operand ranges (R93): a term that each check refuses, beside the last legal ones -/

theorem test_wf_round : (Instr.fround 0).wellFormed = false ∧ (Instr.fround 23).wellFormed = false ∧
    (Instr.fround 1).wellFormed = true ∧ (Instr.fround 22).wellFormed = true := by decide

theorem test_wf_subkey : (Instr.ark 24).wellFormed = false ∧ (Instr.ark 23).wellFormed = true := by decide

theorem test_wf_column : (Instr.mixg 4 0).wellFormed = false ∧ (Instr.mixg 3 0).wellFormed = true := by decide

theorem test_wf_relabel : (Instr.mixg 0 2).wellFormed = false ∧ (Instr.mixg 0 1).wellFormed = true := by decide

theorem test_wf_internal_round :
    (Instr.ksprnd 16).wellFormed = false ∧ (Instr.ksprnd 15).wellFormed = true := by decide

theorem test_wf_squeeze_step :
    (Instr.kssqz 24).wellFormed = false ∧ (Instr.kssqz 23).wellFormed = true := by decide

theorem test_wf_rom_table : (Instr.romrd 4 0).wellFormed = false ∧ (Instr.romrd 3 0).wellFormed = true := by decide

theorem test_wf_rom_index :
    (Instr.romrd 0 352).wellFormed = false ∧ (Instr.romrd 1 24).wellFormed = false ∧
    (Instr.romrd 2 64).wellFormed = false ∧ (Instr.romrd 3 736).wellFormed = false ∧
    (Instr.romrd 0 351).wellFormed = true ∧ (Instr.romrd 1 23).wellFormed = true ∧
    (Instr.romrd 2 63).wellFormed = true ∧ (Instr.romrd 3 735).wellFormed = true := by decide

/-! ### Decoding and encoding: a word of every command, written from R90, R91, R94 and V-E1 -/

/-- The decoder reads the command from the word and the encoder writes the word. -/
def CodesAs (w : Cmd) (i : Instr) : Prop := decode w = .ok i ∧ encode i = w

theorem test_code_housekeeping :
    CodesAs 0x0100000000000000 .nop ∧
    CodesAs 0x0200000000001000 (.setsrc 0x1000) ∧
    CodesAs 0x03000000FFFFFFC0 (.setdst 0xFFFFFFC0) ∧
    CodesAs 0x0400000000000009 (.setcnt 9) ∧
    CodesAs 0x05030000000002DF (.romrd 3 735) ∧
    CodesAs 0x050000000000015F (.romrd 0 351) := by
  unfold CodesAs; decide

theorem test_code_mixers :
    CodesAs 0x1002010000000000 (.mixg 2 1) ∧
    CodesAs 0x1103000000000000 (.mixh 3 0) ∧
    CodesAs 0x1202010000000000 (.mixk 2 1) ∧
    CodesAs 0x1403010000000000 (.imixg 3 1) ∧
    CodesAs 0x1500010000000000 (.imixh 0 1) ∧
    CodesAs 0x1603010000000000 (.imixk 3 1) := by
  unfold CodesAs; decide

theorem test_code_scalar :
    CodesAs 0x2016000000000000 (.subc 22) ∧
    CodesAs 0x2100000000000000 .colmix ∧
    CodesAs 0x2200000000000000 .icolmix ∧
    CodesAs 0x2300000000000000 .shrows ∧
    CodesAs 0x2400000000000000 .ishrows ∧
    CodesAs 0x2517000000000000 (.ark 23) ∧
    CodesAs 0x2601000000000000 (.fround 1) ∧
    CodesAs 0x270D000000000000 (.iround 13) ∧
    CodesAs 0x2800000000000000 .ldblk ∧
    CodesAs 0x2900000000000000 .stblk ∧
    CodesAs 0x2A00000000000000 .enc ∧
    CodesAs 0x2B00000000000000 .dec := by
  unfold CodesAs; decide

theorem test_code_keySchedule :
    CodesAs 0x3000000000000000 .ksinit ∧
    CodesAs 0x310F000000000000 (.ksprnd 15) ∧
    CodesAs 0x3200000000000000 .ksperm ∧
    CodesAs 0x3317000000000000 (.kssqz 23) ∧
    CodesAs 0x3400000000000000 .keysched ∧
    CodesAs 0x3500000000000000 .kwipe ∧
    CodesAs 0x3600000000000000 .ldsk ∧
    CodesAs 0x3700000000000000 .stsk := by
  unfold CodesAs; decide

theorem test_code_context :
    CodesAs 0x4000000000000000 .ctxinit ∧
    CodesAs 0x4100000000000000 .ctxclr := by
  unfold CodesAs; decide

theorem test_code_transpose :
    CodesAs 0x4200000000000000 .vldraw ∧
    CodesAs 0x4300000000000000 .vxpose ∧
    CodesAs 0x4400000000000000 .vixpose ∧
    CodesAs 0x4500000000000000 .vstraw ∧
    CodesAs 0x4600000000000000 .vload ∧
    CodesAs 0x4700000000000000 .vstore := by
  unfold CodesAs; decide

theorem test_code_vectorRounds :
    CodesAs 0x4816000000000000 (.vsubc 22) ∧
    CodesAs 0x4900000000000000 .vcolmix ∧
    CodesAs 0x4A00000000000000 .vicolmix ∧
    CodesAs 0x4B00000000000000 .vshrows ∧
    CodesAs 0x4C00000000000000 .vishrows ∧
    CodesAs 0x4D17000000000000 (.vark 23) ∧
    CodesAs 0x4E16000000000000 (.vfround 22) ∧
    CodesAs 0x4F01000000000000 (.viround 1) ∧
    CodesAs 0x5000000000000000 .venc8 ∧
    CodesAs 0x5100000000000000 .vdec8 := by
  unfold CodesAs; decide

theorem test_code_batch :
    CodesAs 0x5200000000000000 .benc ∧
    CodesAs 0x5300000000000000 .bdec := by
  unfold CodesAs; decide

/-- Words refused for this reason (V-E1, R96). -/
theorem test_illegal_unknownOpcode :
    [(0x0000000000000000 : Cmd), 0x0600000000000000, 0x1300000000000000, 0x1700000000000000,
      0x2C00000000000000, 0x3800000000000000, 0x5400000000000000, 0xFF00000000000000].map decode =
      List.replicate 8 (.error .unknownOpcode) := by decide +kernel

/-- Words refused for this reason (V-E1, R96). -/
theorem test_illegal_unusedFieldSet :
    [(0x0100000000000001 : Cmd), 0x0200010000001000, 0x2A00000100000000, 0x2A00000000000001,
      0x5201000000000000, 0x2001010000000000, 0x1000000000000001, 0x0500010000000000].map decode =
      List.replicate 8 (.error .unusedFieldSet) := by decide +kernel

/-- Words refused for this reason (V-E1, R96). -/
theorem test_illegal_operandOutOfRange :
    [(0x2000000000000000 : Cmd), 0x2017000000000000, 0x2020000000000000, 0x2518000000000000,
      0x3110000000000000, 0x3318000000000000, 0x1004000000000000, 0x1000020000000000, 0x0504000000000000,
      0x0500000000000160, 0x0501000000000018, 0x0502000000000040, 0x05030000000002E0].map decode =
      List.replicate 13 (.error .operandOutOfRange) := by decide +kernel

theorem test_table_word : decodeTableWord 64 0x2517000000000000 = some (.ark 23) ∧
    decodeTableWord 64 0x2518000000000000 = none ∧ decodeTableWord 72 (0x2517000000000000 + 2 ^ 64) = none := by
  decide

/-- R98, R99. -/
theorem test_assembly : asmLine (.romrd 3 735) = "ROMRD 3, 735" ∧ asmLine .nop = "NOP" ∧
    expand (.encb 0x2000 0x3000) = [.setsrc 0x2000, .setdst 0x3000, .enc] := by decide

/-! ### The functions, on the spec's vectors -/

/-- A block from its sixteen words, row-major. -/
def blockOf (ws : List Word) : Block := Mat.ofFn fun i j => ws.getD (4 * i.val + j.val) 0

/-- The words of a matrix, row-major. -/
def wordsOf {r c : Nat} (X : Mat r c) : List Word :=
  (List.finRange r).flatMap fun i => (List.finRange c).map fun j => X.word i j

/-- `T0` of 95_test_vectors.md: word n is 0x11111111 * n. -/
def t0 : Block := Mat.ofFn fun i j => BitVec.ofNat 32 (0x11111111 * (4 * i.val + j.val))

/-- `TS`: the test schedule. -/
def ts : Schedule :=
  Vector.ofFn fun k => Mat.ofFn fun i j => BitVec.ofNat 32 (0x01000193 * (16 * k.val + 4 * i.val + j.val + 1))

/-- `TP1`: the test parameters. -/
def tp1 : Params where
  romRc n := BitVec.ofNat 32 (0x9E3779B9 * (n.val + 1))
  romKsi n := BitVec.ofNat 32 (0xC2B2AE35 * (n.val + 1))
  romKsp n := BitVec.ofNat 32 (0x27D4EB2F * (n.val + 1))
  romKsd n := BitVec.ofNat 32 (0x165667B1 * (n.val + 1))
  ctrPos n := (n, ⟨n.val, by omega⟩)
  ctrPos_distinct _ _ h := congrArg Prod.fst h
  ctxTag := 0x43485242
  ctxTag_ne_zero := by decide

/-- Reset with T0 in S. -/
def atT0 : State := { State.reset with sReg := t0 }

/-- The next state of an outcome, or the state given. -/
def after (o : Host.Outcome State Fault Refusal) : State :=
  match o with
  | .next t => t
  | _ => State.reset

/-- V-MX1. -/
theorem test_mix : mix .g ⟨1, 0, 0, 0⟩ = ⟨0x00000002, 0x80402008, 0x10080400, 0x10000400⟩ ∧
    mix .h ⟨0x01234567, 0x89ABCDEF, 0xFEDCBA98, 0x76543210⟩ =
      ⟨0xEDB2A94E, 0x6C4DECCD, 0x0981FA9E, 0x6726F276⟩ ∧
    mix .k ⟨0x01234567, 0x89ABCDEF, 0xFEDCBA98, 0x76543210⟩ =
      ⟨0x7AD18918, 0x9F999B15, 0x43F146A0, 0x1C34F8A4⟩ := by decide +kernel

theorem test_imix : imix .g ⟨1, 0, 0, 0⟩ = ⟨0x00000001, 0, 0xFFFFFFFF, 0x00002001⟩ ∧
    imix .h ⟨0x01234567, 0x89ABCDEF, 0xFEDCBA98, 0x76543210⟩ =
      ⟨0x3D29D2C5, 0x41678DAB, 0x455AF8A7, 0x258EA2F6⟩ ∧
    imix .k ⟨0x01234567, 0x89ABCDEF, 0xFEDCBA98, 0x76543210⟩ =
      ⟨0x5F988A7C, 0x91A0F7C6, 0x7F70190A, 0x3242720A⟩ := by decide +kernel

/-- V-MX2. -/
theorem test_mixg : column (after (exec (.mixg 2 1) atT0)).sReg 2 =
    ⟨0xAAF3B5BA, 0x88D99399, 0x33339336, 0x9B526121⟩ := by decide +kernel

/-- V-MX2. -/
theorem test_mixg_roles : column (after (exec (.mixg 3 0) atT0)).sReg 3 =
    ⟨0xCCCCECCC, 0x868B8898, 0x32F33331, 0xCC8CCCCC⟩ := by decide +kernel

/-- V-MX2. -/
theorem test_mixh : column (after (exec (.mixh 2 1) atT0)).sReg 2 =
    ⟨0x1598321C, 0xF3F60FFB, 0x0001813E, 0x7FFAB74E⟩ := by decide +kernel

/-- V-MX2. -/
theorem test_mixk : column (after (exec (.mixk 3 1) atT0)).sReg 3 =
    ⟨0x0463D843, 0x37770B77, 0x2222221C, 0x102DF10B⟩ := by decide +kernel

/-- V-MX2. -/
theorem test_imixg : column (after (exec (.imixg 2 1) atT0)).sReg 2 =
    ⟨0x22222223, 0x99999998, 0x66666668, 0x44444443⟩ := by decide +kernel

/-- V-MX2. -/
theorem test_imixh : column (after (exec (.imixh 0 0) atT0)).sReg 0 =
    ⟨0x6666666D, 0xEEEEEEE9, 0x22222223, 0x66666665⟩ := by decide +kernel

/-- V-MX2. -/
theorem test_imixk : column (after (exec (.imixk 3 0) atT0)).sReg 3 =
    ⟨0xCCCCCCC8, 0x11111116, 0xEEEEEEF0, 0xBBBBBBB8⟩ := by decide +kernel

/-- V-RD1. -/
theorem test_colmix1 : colMix1 ⟨1, 0, 0, 0⟩ = ⟨0xEDD8E0ED, 0xDBE417FF, 0xBB252895, 0x9ACDBCAA⟩ ∧
    iColMix1 ⟨1, 0, 0, 0⟩ = ⟨0xBE5E50E3, 0x92C42422, 0x26D58C6F, 0x4404C64C⟩ := by decide +kernel

/-- V-RD2. -/
theorem test_colmix : wordsOf (after (exec .colmix atT0)).sReg =
    [0x883C3673, 0xC9C991C0, 0xF5C9B835, 0x46AB03EA, 0xF6866FCD, 0x762FD4F8, 0x8299DE51, 0x0287B407,
     0x5802450A, 0xF145FE49, 0xF9F32DB2, 0x71067237, 0xE3F54616, 0x20637B37, 0x0514A7F2, 0x525F8C8C] := by
  decide +kernel

/-- V-RD2. -/
theorem test_icolmix : wordsOf (after (exec .icolmix atT0)).sReg =
    [0xDE988E91, 0xCAB2B289, 0x9D75D0AD, 0xD6D4101A, 0x91A47E23, 0x04C75D35, 0x222785C7, 0xC792DC5D,
     0xAFC53AE0, 0x2402D604, 0xC5396CF9, 0x0034E0B8, 0x96ABDA78, 0x38116BA0, 0x8217A438, 0xCD125F2B] := by
  decide +kernel

/-- V-RD2. -/
theorem test_shrows : wordsOf (after (exec .shrows atT0)).sReg =
    [0x00000000, 0x11111111, 0x22222222, 0x33333333, 0x55555555, 0x66666666, 0x77777777, 0x44444444,
     0xAAAAAAAA, 0xBBBBBBBB, 0x88888888, 0x99999999, 0xFFFFFFFF, 0xCCCCCCCC, 0xDDDDDDDD, 0xEEEEEEEE] := by
  decide +kernel

/-- V-RD2. -/
theorem test_ishrows : wordsOf (after (exec .ishrows atT0)).sReg =
    [0x00000000, 0x11111111, 0x22222222, 0x33333333, 0x77777777, 0x44444444, 0x55555555, 0x66666666,
     0xAAAAAAAA, 0xBBBBBBBB, 0x88888888, 0x99999999, 0xDDDDDDDD, 0xEEEEEEEE, 0xFFFFFFFF, 0xCCCCCCCC] := by
  decide +kernel

/-- V-RD2. -/
theorem test_subc : wordsOf (subConstants tp1 21 t0) =
    [0x47073C89, 0xF42FA753, 0xA1540DD9, 0x129E9A87, 0xFBA16729, 0x0B49C873, 0x9A3270B9, 0xEDFCE7EF,
     0xB04B82D9, 0x4F631D93, 0xDF9B5769, 0xA8D2CCC7, 0x7D6C3DF9, 0x9205B733, 0x00E10A49, 0x73B8A19F] := by
  decide +kernel

/-- V-RD2. -/
theorem test_ark : wordsOf (after (exec (.ark 23) { atT0 with sk := ts })).sReg =
    [0x710244E3, 0x63135767, 0x51206A2B, 0x47317AAF, 0x31460F6B, 0x23571997, 0x11642833, 0x0F75389F,
     0xF18AD9F3, 0xE39BCA97, 0xD1A8FE0B, 0xC7B9ED8F, 0xB1CE9B0B, 0xA3DF8487, 0x91ECB403, 0x7FFDA37F] := by
  decide +kernel

/-- V-RD2. -/
theorem test_fround : wordsOf (fwdRound tp1 ts 21 t0) =
    [0xBEA40E52, 0x81540EA5, 0x8C069BEA, 0xC4094349, 0x75AD5FBE, 0xCA369868, 0xF653F9A7, 0x1D728415,
     0xF446B617, 0x4EA7B103, 0x41157975, 0x8315D1B6, 0x4E4F72A6, 0x29CC3EB8, 0x2934CB63, 0xF28E31AF] := by
  decide +kernel

/-- V-RD2. -/
theorem test_iround : wordsOf (invRound tp1 ts 0 t0) =
    [0xE0684699, 0xC821E70B, 0x0B362B11, 0xC7C7F447, 0x0046F5EC, 0xB007D859, 0x177B50EB, 0x037BD419,
     0xD32F8D86, 0xC394A105, 0x9D09FD66, 0xB0006F76, 0xB7C2A133, 0x5CBA8840, 0xC078012C, 0xF92C3C1A] := by
  decide +kernel

/-- V-RD5. -/
theorem test_enc_dec : (encrypt tp1 ts t0).word 0 0 = 0x8CBF2759 ∧ (decrypt tp1 ts t0).word 3 3 = 0x012857F5 := by
  decide +kernel

/-- V-KS1: the first word of subkey 1, after KSINIT, KSPERM and squeeze step 0. -/
theorem test_squeeze :
    let k := permute tp1 (sponge0 tp1 (Mat.ofFn fun _ j => BitVec.ofNat 32 (0x03020100 + 0x04040404 * j.val)))
    (squeezed (squeezeNext tp1 0 k)).word 0 0 = 0xAFB9812C := by decide +kernel

/-- V-KS2: KSINIT with the key 00 01 .. 1F, then KSPRND 0, columns 0 and 7. -/
theorem test_ksprnd :
    let k := sponge0 tp1 (Mat.ofFn fun _ j => BitVec.ofNat 32 (0x03020100 + 0x04040404 * j.val))
    column k 7 = ⟨0x1F1E1D1C, 0x159571A8, 0x2B2AE350, 0x40C054F8⟩ ∧
    column (internalRound tp1 0 k) 0 = ⟨0x818DD596, 0x8376199C, 0xA75778CE, 0xE37B11A1⟩ ∧
    column (internalRound tp1 0 k) 7 = ⟨0xCACD23F1, 0x9D40F967, 0x8F38B4C5, 0xD0DB64B6⟩ := by decide +kernel

/-- R184: the counter goes into the four words of KS_CTR_POS, the chunk is XORed, four columns are taken. -/
theorem test_squeeze_parts :
    column (addCounter tp1 5 Mat.zero) 1 = ⟨0, 5, 0, 0⟩ ∧
    (domainChunk tp1 22).word 3 7 = 0x386A1CE0 ∧
    (squeezed (Mat.ofFn fun i j => BitVec.ofNat 32 (8 * i.val + j.val))).word 3 3 = 27 := by decide +kernel

/-- R186, R187: KEYSCHED destroys KSS, KWIPE the schedule. -/
theorem test_keysched_kwipe :
    (after (exec .keysched { State.reset with kss := Mat.ofFn fun _ _ => 1 })).kss = Mat.zero ∧
    (after (exec .kwipe { State.reset with sk := ts })).sk = Vector.replicate 24 Mat.zero := by decide +kernel

/-- R274: the last word of the last table, and no word beyond. -/
theorem test_rom : romWord tp1 3 735 = some 0x386A1CE0 ∧ romWord tp1 0 351 = some 0x8C475E60 ∧
    romWord tp1 1 24 = none := by decide +kernel

/-- V-RD4: a misaligned load. -/
theorem test_ldblk :
    let s := { State.reset with src := 0x2001 }.hostWrite 0x2001 [0, 0x11, 0x22, 0x33, 0x44, 0x55, 0x66, 0x77]
    (after (exec .ldblk s)).sReg.word 0 0 = 0x33221100 ∧
    (after (exec .ldblk s)).sReg.word 0 1 = 0x77665544 := by decide +kernel

/-- V-RD4: a store over the top of memory. -/
theorem test_stblk :
    let m := (after (exec .stblk { atT0 with dst := 0xFFFFFFE0 })).mem
    m.byteAt 0xFFFFFFFC = 0x77 ∧ m.byteAt 0 = 0x88 ∧ m.byteAt 0x1F = 0xFF ∧ m.byteAt 0x20 = 0 := by
  decide +kernel

/-- R188, R189: subkey 23 stands at 1472 and its first word is read back. -/
theorem test_ldsk_stsk :
    (after (exec .ldsk (State.reset.hostWrite 1472 [0x93, 1, 0, 1]))).sk[23].word 0 0 = 0x01000193 ∧
    (after (exec .stsk { State.reset with sk := Vector.ofFn fun k => Mat.ofFn fun i j =>
      if k.val = 23 ∧ i.val = 3 ∧ j.val = 3 then 0x80025C80 else 0 })).mem =
      [(1532, 0x80), (1533, 0x5C), (1534, 0x02), (1535, 0x80)] := by decide +kernel

/-- The canonical form: writing what an unlisted address reads as removes the entry. -/
theorem test_memory : (State.reset.hostWrite 5 [1, 2, 3]).mem = [(5, 1), (6, 2), (7, 3)] ∧
    ((State.reset.hostWrite 5 [1, 2, 3]).hostWrite 6 [0]).mem = [(5, 1), (7, 3)] := by decide +kernel

/-! ### Failures (V-F) and the step -/

theorem test_precond : readPort (after (exec .benc State.reset)) 0 = 0x11 ∧
    (after (exec .vload State.reset)).pc = 1 := by decide +kernel

theorem test_nocap :
    let s := after (exec .ctxinit { State.reset with capUsable := false })
    let u := after (exec .ctxinit (s.hostSetCap true))
    readPort s 0 = 0x12 ∧ readPort s 4 = 2 ∧ readPort u 0 = 0x12 ∧
    readPort (after (exec .colmix u)) 0 = 0x10 := by decide +kernel

theorem test_illegal :
    let s := after (step (State.reset.hostIssue 0x2017000000000000))
    readPort s 0 = 0x14 ∧ s.pc = 1 ∧ readPort (after (step (s.hostIssue 0x0100000000000000))) 0 = 0x10 := by
  decide +kernel

/-- V-F row 2: a vector command at reset. The tag is open, so its failure is seen through the check. -/
theorem test_ctx : exec .vxpose State.reset = .next (State.reset.fail .ctx) :=
  ends_fail_of_check rfl rfl ((vectorCheck_eq_some _ _ _ _).2
    (.inr ⟨rfl, fun h => Config.ctxTag_ne_zero h.symm, rfl⟩)) (exec_ends _ _)

theorem test_step : (after (step (State.reset.withFetchWord 64 0x0200000000001000))).src = 0x1000 ∧
    (after (step (State.reset.withFetchWord 64 0x0200000000001000))).pending = [] := by decide +kernel

/-! ### The vector unit -/

/-- V-VX1: lane l of register n is 0x100 * (n div 2) + 8 * (n mod 2) + l. -/
def rawV : WideFile := Mat.ofFn fun n l => BitVec.ofNat 32 (0x100 * (n.val / 2) + 8 * (n.val % 2) + l.val)

/-- V-VX2: one row of each level of the network. -/
theorem test_network :
    let A := Vector.ofFn fun b : Fin 8 => rawV.rows[2 * b.val]
    (network1 A)[3] = #v[0x202, 0x302, 0x203, 0x303, 0x206, 0x306, 0x207, 0x307] ∧
    (network2 (network1 A))[5] = #v[0x401, 0x501, 0x601, 0x701, 0x405, 0x505, 0x605, 0x705] ∧
    (xp8 A)[5] = #v[0x005, 0x105, 0x205, 0x305, 0x405, 0x505, 0x605, 0x705] := by decide +kernel

/-- V-VX3: register n, lane b is 0x100 * b + n; VIXPOSE gives V-VX1 back. -/
theorem test_vxpose : transpose rawV = (Mat.ofFn fun n b => BitVec.ofNat 32 (0x100 * b.val + n.val)) := by
  decide +kernel

theorem test_vixpose : untranspose (Mat.ofFn fun n b => BitVec.ofNat 32 (0x100 * b.val + n.val)) = rawV := by
  decide +kernel

theorem test_wide_bits : wideBits #v[1, 2, 3, 4, 5, 6, 7, 8] =
    0x0000000800000007000000060000000500000004000000030000000200000001 := by decide +kernel

/-- The eight blocks of V-VR1 in the transposed layout. -/
def vr1 : WideFile := Mat.ofFn fun n l => BitVec.ofNat 32 (0x11111111 * n.val + l.val)

/-- A context with the constants of TP1 and the schedule TS in lane-broadcast form. -/
def ctx1 : State := { State.reset with bk := broadcastKeys ts, brc := broadcastConstants tp1, v := vr1 }

/-- V-VR1: VSUBC 1, then the lane-wise column mix and row shift of lane 7 of the result. -/
theorem test_vsubc : (wideSubConstants ctx1.brc 0 ctx1.v).word 5 3 = 0xE0198F0E ∧
    (wideSubConstants ctx1.brc 0 ctx1.v).word 15 7 = 0xE3779B96 := by decide +kernel

theorem test_vcolmix : (wideColumnMix (wideSubConstants ctx1.brc 0 ctx1.v)).word 5 7 = 0x59147E17 ∧
    (wideShiftRows (wideColumnMix (wideSubConstants ctx1.brc 0 ctx1.v))).word 15 6 = 0x7C224D1B := by decide +kernel

/-- V-RD2: lane 0 of a wide round is the scalar round of T0. -/
theorem test_vfround : wordsOf (laneM (wideFwdRound ctx1.bk ctx1.brc 21 ctx1.v) 0) = wordsOf (fwdRound tp1 ts 21 t0) ∧
    (laneM (wideInvRound ctx1.bk ctx1.brc 0 ctx1.v) 0).word 0 0 = 0xE0684699 := by decide +kernel

/-- R212, V-F row 9: after CTXCLR the wide registers, the context and the tag are zero. -/
theorem test_ctxclr : (after (exec .ctxclr ctx1)).v = Mat.zero ∧ (after (exec .ctxclr ctx1)).tag = 0 := by
  decide +kernel

/-- V-F rows 3 and 5, and R70: the checks and the overlap of the batch commands. -/
theorem test_batch_checks :
    nullOperand { src := true, dst := true, cnt := true } { ctx1 with dst := 0x3000, cnt := 9 } = true ∧
    nullOperand { src := true, dst := true, cnt := true } { ctx1 with src := 0x2000, dst := 0x3000 } = true ∧
    partialOverlap 0x2000 0x2001 64 = true ∧ partialOverlap 0x2040 0x2000 65 = true ∧
    partialOverlap 0x2000 0x2000 64 = false ∧ partialOverlap 0x2000 0x2040 64 = false ∧
    partialOverlap 0xFFFFFFC0 0 65 = true := by decide +kernel

/-! ### Witnesses: a state and operands that meet every hypothesis of a statement

One for each statement with hypotheses; for a statement with several clauses, one for each clause, at the
boundary of its range. -/

/-- Reset with a valid context: that of the schedule TS and this CORE's constants. -/
def valid : State := buildContext Config.params { State.reset with sk := ts, capQ := true, capV := true }

theorem valid_context : ContextValid valid := rfl

theorem valid_contextOf : ContextOf ts valid where
  bk _ _ _ := broadcastKeys_word _ _ _ _
  brc r n l := (broadcastConstants_word _ r n l).trans (by
    rw [blockWord, roundChunk_word]; congr 1; apply Fin.ext; simp only; omega)
  ck := rfl

/-- The same with operands for a batch. -/
def validFor (src dst cnt : Word) : State := { valid with src := src, dst := dst, cnt := cnt }

theorem validFor_contextOf (src dst cnt : Word) : ContextOf ts (validFor src dst cnt) :=
  ⟨valid_contextOf.bk, valid_contextOf.brc, valid_contextOf.ck⟩

/-- Ranges of `n` bytes that lie `n` or more apart both ways round do not meet. -/
theorem ranges_apart {src dst : Addr} {n : Nat} (h : n ≤ (dst - src).toNat) (h' : n ≤ (src - dst).toNat) :
    RangesAllowed src dst n := by
  refine .inr fun j k hj hk he => ?_
  have := (partialOverlap_eq_true src dst n).2 ⟨?_, j, k, hj, hk, he⟩
  · unfold partialOverlap at this
    simp only [decide_eq_true_eq] at this
    omega
  · rintro rfl
    simp only [BitVec.sub_self, BitVec.toNat_zero] at h
    omega

theorem witness_DecoderFollowsOpcodeMap :
    decode 0x2517000000000000 = .ok (.ark 23) ∧
    ∃ row ∈ opcodeMap, rowSelects row 0x2517000000000000 = true := by decide

/-- A word for each clause of R96, at the edge of its range. -/
theorem witness_IllegalWordFailsAndChangesNothingElse :
    IllegalWord 0x0000000000000000 ∧ IllegalWord 0x5400000000000000 ∧ IllegalWord 0x0100000100000000 ∧
    IllegalWord 0x0101000000000000 ∧ IllegalWord 0x0201000000000000 ∧ IllegalWord 0x2001010000000000 ∧
    IllegalWord 0x2101000000000000 ∧ IllegalWord 0x2001000000000001 ∧ IllegalWord 0x2000000000000000 ∧
    IllegalWord 0x2017000000000000 ∧ IllegalWord 0x2518000000000000 ∧ IllegalWord 0x1004000000000000 ∧
    IllegalWord 0x1000020000000000 ∧ IllegalWord 0x3110000000000000 ∧ IllegalWord 0x0504000000000000 ∧
    IllegalWord 0x0500000000000160 ∧ IllegalWord 0x0501000000000018 ∧ IllegalWord 0x0502000000000040 ∧
    IllegalWord 0x05030000000002E0 ∧
    (State.reset.hostIssue 0x2017000000000000).pending = 0x2017000000000000 :: [] := by
  refine ⟨?_, ?_, ?_, ?_, ?_, ?_, ?_, ?_, ?_, ?_, ?_, ?_, ?_, ?_, ?_, ?_, ?_, ?_, ?_, rfl⟩ <;>
    (dsimp only [IllegalWord]; decide +kernel)

/-- The legal words beside them. -/
theorem witness_LegalWord :
    ¬ IllegalWord 0x0100000000000000 ∧ ¬ IllegalWord 0x02000000FFFFFFFF ∧ ¬ IllegalWord 0x2001000000000000 ∧
    ¬ IllegalWord 0x2016000000000000 ∧ ¬ IllegalWord 0x2517000000000000 ∧ ¬ IllegalWord 0x1003010000000000 ∧
    ¬ IllegalWord 0x310F000000000000 ∧ ¬ IllegalWord 0x050000000000015F ∧ ¬ IllegalWord 0x05030000000002DF := by
  refine ⟨?_, ?_, ?_, ?_, ?_, ?_, ?_, ?_, ?_⟩ <;> (dsimp only [IllegalWord]; decide +kernel)

theorem witness_StepRunsDecodedCommand :
    (State.reset.hostIssue 0x2517000000000000).pending = 0x2517000000000000 :: [] ∧
    decode 0x2517000000000000 = .ok (.ark 23) ∧ (Instr.ark 23).wellFormed = true := by decide

theorem witness_OutOfRangeOperandsFailIllegal : (Instr.romrd 3 736).wellFormed = false := by decide

theorem witness_IdleStepWaits : State.reset.pending = [] := rfl

/-- A failing BENC, and a CTXINIT that fails E_NOCAP. -/
theorem witness_FailureChangesOnlyStatusAndPc :
    (∃ t, exec .benc State.reset = .next t ∧ t.res ≠ 0) ∧
    (∃ t, exec .ctxinit { State.reset with capUsable := false } = .next t ∧ t.res = 2) :=
  ⟨⟨_, rfl, by decide +kernel⟩, ⟨_, rfl, by decide +kernel⟩⟩

theorem witness_FailureCauseAndPriority :
    (∃ t, exec .nop State.reset = .next t) ∧ resultCode .benc State.reset = 1 ∧
    resultCode (.fround 0) State.reset = 4 ∧ resultCode .vxpose State.reset = 3 ∧
    resultCode .ctxinit { State.reset with capUsable := false } = 2 := by
  refine ⟨⟨_, rfl⟩, rfl, rfl, ?_, rfl⟩
  have h : (0 : Word) ≠ Config.ctxTag := fun h => Config.ctxTag_ne_zero h.symm
  simp [resultCode, Instr.wellFormed, Instr.mnemonic, needContext, State.reset]
  exact h

/-- A state in which every register holds something. -/
def dirty : State :=
  { ctx1 with
    sReg := t0, sk := ts, ck := ts, kss := Mat.ofFn fun _ _ => 1, tag := 1, src := 1, dst := 1, cnt := 1 }

/-- Each register is changed by one of its commands. -/
theorem witness_RegistersWrittenOnlyByTheirCommands :
    (∃ t, exec .shrows dirty = .next t ∧ t.sReg ≠ dirty.sReg) ∧
    (∃ t, exec .kwipe dirty = .next t ∧ t.sk ≠ dirty.sk) ∧
    (∃ t, exec .keysched dirty = .next t ∧ t.kss ≠ dirty.kss) ∧
    (∃ t, exec .ctxclr dirty = .next t ∧ t.v ≠ dirty.v ∧ t.bk ≠ dirty.bk ∧ t.brc ≠ dirty.brc ∧ t.ck ≠ dirty.ck ∧
      t.tag ≠ dirty.tag) ∧
    (∃ t, exec (.setsrc 0) dirty = .next t ∧ t.src ≠ dirty.src) ∧
    (∃ t, exec (.setdst 0) dirty = .next t ∧ t.dst ≠ dirty.dst) ∧
    (∃ t, exec (.setcnt 0) dirty = .next t ∧ t.cnt ≠ dirty.cnt) ∧
    (∃ t, exec .ctxinit dirty = .next t ∧ t.capV ≠ dirty.capV) :=
  ⟨⟨_, rfl, by decide +kernel⟩, ⟨_, rfl, by decide +kernel⟩, ⟨_, rfl, by decide +kernel⟩,
    ⟨_, exec_ctxclr _, by decide +kernel⟩, ⟨_, rfl, by decide +kernel⟩, ⟨_, rfl, by decide +kernel⟩,
    ⟨_, rfl, by decide +kernel⟩,
    ⟨_, rfl, by
      cases h : dirty.capUsable <;>
        simp_all [latchCapability, State.unlessFails, buildContext, State.succeed, State.fail, dirty, ctx1,
          State.reset]⟩⟩

/-- The last byte stored, the first after it, and a command that stores nothing. -/
theorem witness_MemoryWrittenOnlyInOutputRange :
    (∃ t, exec .stblk atT0 = .next t) ∧ storeSize .stblk atT0 ≤ ((0x40 : Addr) - atT0.dst).toNat ∧
    ¬ storeSize .stblk atT0 ≤ ((0x3F : Addr) - atT0.dst).toNat ∧
    (∃ t, exec .ldblk atT0 = .next t) ∧ storeSize .ldblk atT0 ≤ ((0 : Addr) - atT0.dst).toNat :=
  ⟨⟨_, rfl⟩, by decide +kernel, by decide +kernel, ⟨_, rfl⟩, by decide +kernel⟩

/-- Two memories that differ just above the 64 bytes ENC reads. -/
theorem witness_MemoryReadOnlyInInputRange :
    (∃ t, exec .enc State.reset = .next t) ∧
    (∀ a : Addr, (a - State.reset.src).toNat < loadSize .enc State.reset →
      Memory.byteAt [(64, 1)] a = State.reset.mem.byteAt a) ∧
    Memory.byteAt [(64, 1)] 64 ≠ State.reset.mem.byteAt 64 := by
  refine ⟨⟨_, rfl⟩, fun a ha => ?_, by decide +kernel⟩
  have h : a.toNat < 64 := by
    have h0 : (a - State.reset.src) = a := BitVec.sub_zero a
    rw [h0] at ha; exact ha
  simp [Memory.byteAt, Memory.read, State.reset, h]

theorem witness_CapabilityIsLatchedOnce :
    (∃ t, exec .ctxinit { State.reset with capV := true } = .next t) ∧
    (∃ t, exec .ctxinit State.reset = .next t) ∧ State.reset.capV = false ∧
    (∃ t, exec .nop State.reset = .next t) := ⟨⟨_, rfl⟩, ⟨_, rfl⟩, rfl, ⟨_, rfl⟩⟩

theorem witness_ErrSeenRecordsEveryFailure :
    ∃ t, runAll [.nop, .benc, .nop] State.reset = .next t ∧ t.errSeen = true ∧ t.res = 0 :=
  ⟨_, rfl, by decide +kernel⟩

/-- A state with a pending NOP and a non-zero SRC meets the invariant. -/
theorem witness_StepKeepsInv :
    let s : State := { State.reset with src := 0x2000, pending := [0x0100000000000000] }
    Inv s ∧ ∃ t, step s = .next t := by
  refine ⟨⟨⟨by decide, by decide⟩, by decide, fun h => absurd rfl h, by decide, .inl rfl,
    fun h => absurd h.symm Config.ctxTag_ne_zero, fun h => absurd h.symm Config.ctxTag_ne_zero,
    fun _ => ⟨?_, ?_, ?_⟩⟩, _, rfl⟩ <;> intros <;> simp [State.reset]

/-- The last byte of memory and, wrapped, the first. -/
theorem witness_MemoryReadsWhatWasWritten : ([1, 2] : List Byte).length ≤ 2 ^ 32 ∧ 1 < 2 ∧
    (Memory.writeBytes [] 0xFFFFFFFF [1, 2]).readBytes 0xFFFFFFFF 2 = [1, 2] := by decide +kernel

theorem witness_RotationsAreTheNumberFormulas :
    ror 1 1 = 0x80000000 ∧ ror 1 31 = 2 ∧ rol 1 31 = 0x80000000 ∧ 1 ≤ 31 ∧ 31 ≤ 31 := by decide +kernel

theorem witness_MixerCommandsMixOneColumn : mixerCommands.length = 6 := rfl

theorem witness_ScalarInversesRestoreS :
    (Instr.mixg 3 1, Instr.imixg 3 1) ∈ scalarInverses ∧ (Instr.fround 22, Instr.iround 22) ∈ scalarInverses ∧
    (Instr.ark 23, Instr.ark 23) ∈ scalarInverses := by decide +kernel

/-- Squeeze steps 22 and 23, on either side of the last permutation. -/
theorem witness_KssqzSqueezesOneSubkey : (22 : Fin 24).val < 23 ∧ (23 : Fin 24).val = 23 ∧ (0 : Fin 24) ≠ 23 := by
  decide

/-- The same key bytes at two places, in states that differ otherwise. -/
theorem witness_KeyScheduleIsDeterministic :
    let s : State := State.reset.hostWrite 0 [7]
    let s' : State := { dirty with src := 0x1000, mem := [(0x1000, 7), (0x1020, 9)] }
    ∀ k, k < 32 → s.mem.byteAt (offset s.src k) = s'.mem.byteAt (offset s'.src k) := by decide +kernel

theorem witness_CtxinitBuildsTheContextOrFails :
    let s : State := { State.reset with capUsable := true }
    let s' : State := { State.reset with capV := true, capUsable := true }
    (if s.capV then s.capQ else s.capUsable) = true ∧
    (if s'.capV then s'.capQ else s'.capUsable) = false := by decide +kernel

/-- A run with no CTXINIT, a state in which CTXINIT fails, and a command for each of the three codes. -/
theorem witness_CtxclrLeavesNoResidue :
    Instr.ctxinit ∉ [Instr.keysched, .setsrc 64, .vload] ∧
    (let s : State := { State.reset with capV := true }; (if s.capV then s.capQ else s.capUsable) = false) ∧
    Instr.benc.mnemonic ∈ needContext ∧ lacksOperand .benc State.reset = true ∧
    Instr.vxpose.mnemonic ∈ needContext ∧ lacksOperand .vxpose State.reset = false ∧
    (Instr.vsubc 0).mnemonic ∈ needContext ∧ (Instr.vsubc 0).wellFormed = false := by decide +kernel

theorem witness_VectorCommandsIgnoreTheCurrentSchedule :
    Instr.vxpose.mnemonic ∈ needContext ∧ (∃ t, exec .vxpose valid = .next t) ∧ Instr.benc.mnemonic ∈ needContext ∧
    exec .benc (validFor 0x2000 0x2040 2) = .refused .partialOverlap := by
  refine ⟨by decide, ⟨_, rfl⟩, by decide, ?_⟩
  rcases batchCommand_cases .encrypt (validFor 0x2000 0x2040 2) with ⟨f, hf, -⟩ | ⟨-, -, h⟩ | ⟨-, hp, -⟩
  · rw [vectorCheck_pass rfl (by decide +kernel) (by decide +kernel) (by decide +kernel)] at hf; cases hf
  · exact h
  · exact absurd hp (by decide +kernel)

theorem witness_TransposeCommandsHaveTheClosedForms : ContextValid valid := rfl

theorem witness_RawLoadAndStore :
    ContextValid (validFor 1 0xFFFFFFFF 0) ∧ (validFor 1 0xFFFFFFFF 0).src ≠ 0 ∧
    (validFor 1 0xFFFFFFFF 0).dst ≠ 0 := ⟨rfl, by decide +kernel, by decide +kernel⟩

theorem witness_VectorLoadAndStoreBlocks :
    ContextValid (validFor 0xFFFFFFFF 1 0) ∧ (validFor 0xFFFFFFFF 1 0).src ≠ 0 ∧
    (validFor 0xFFFFFFFF 1 0).dst ≠ 0 := ⟨rfl, by decide +kernel, by decide +kernel⟩

theorem witness_VectorXorsReadTheContext : ContextValid valid := rfl

theorem witness_VectorMixAndShiftActLaneWise : ContextValid valid := rfl

theorem witness_VectorRoundsEqualStageCommands : ContextValid valid := rfl

theorem witness_VectorEngineMatchesScalarEngine : ContextValid valid ∧ ContextOf ts valid :=
  ⟨rfl, valid_contextOf⟩

theorem witness_VectorInversesRestoreV :
    (Instr.vxpose, Instr.vixpose) ∈ vectorInverses ∧ (Instr.viround 22, Instr.vfround 22) ∈ vectorInverses ∧
    (Instr.vark 23, Instr.vark 23) ∈ vectorInverses ∧ ContextValid valid :=
  ⟨by decide +kernel, by decide +kernel, by decide +kernel, rfl⟩

/-- Two states that agree in lane 0 of V and differ in lane 1 and in S. -/
theorem witness_LanesAreIndependent :
    let s' : State := { valid with sReg := t0, v := Mat.ofFn fun _ l => if l = 0 then 0 else 1 }
    Instr.venc8 ∈ roundCommands ∧ Instr.vsubc 22 ∈ roundCommands ∧ ContextValid valid ∧ ContextValid s' ∧
    (∀ n : Fin 16, valid.v.word n 0 = s'.v.word n 0) ∧ valid.v.word 0 1 ≠ s'.v.word 0 1 ∧
    (∀ (k : Fin 24) (n : Fin 16), (valid.bk[k.val]).word n 0 = (s'.bk[k.val]).word n 0) ∧
    (∀ (r : Fin 22) (n : Fin 16), (valid.brc[r.val]).word n 0 = (s'.brc[r.val]).word n 0) :=
  ⟨by decide +kernel, by decide +kernel, rfl, rfl, by decide +kernel, by decide +kernel, fun _ _ => rfl, fun _ _ => rfl⟩

/-- A count with a group and a tail, one without a tail, one without a group, and the largest whose ranges do
not wrap onto themselves. -/
theorem witness_BatchCompletesAndLeavesItsResidue :
    (∀ c ∈ [(1 : Word), 7, 8, 9, 64], ContextValid (validFor 0x2000 0x3000 c) ∧ c ≠ 0 ∧
      RangesAllowed 0x2000 0x3000 (64 * c.toNat)) ∧
    (9 : Word).toNat % 8 ≠ 0 ∧ 8 ≤ (9 : Word).toNat ∧ (8 : Word).toNat % 8 = 0 ∧ (7 : Word).toNat < 8 ∧
    RangesAllowed 0x2000 0x2000 (64 * (0x4000000 : Word).toNat) ∧ 64 * (0x4000000 : Word).toNat ≤ 2 ^ 32 := by
  refine ⟨?_, by decide, by decide, by decide, by decide, .inl rfl, by decide⟩
  simp only [List.forall_mem_cons, List.not_mem_nil, false_implies, implies_true, and_true]
  exact ⟨⟨rfl, by decide, ranges_apart (by decide) (by decide)⟩,
    ⟨rfl, by decide, ranges_apart (by decide) (by decide)⟩, ⟨rfl, by decide, ranges_apart (by decide) (by decide)⟩,
    ⟨rfl, by decide, ranges_apart (by decide) (by decide)⟩, ⟨rfl, by decide, ranges_apart (by decide) (by decide)⟩⟩

/-- A count with a group and a tail whose ranges do not wrap, and in place the largest count of all. -/
theorem witness_BatchEqualsScalarPerBlock :
    let s := validFor 0x2000 0x3000 9
    let s' := validFor 0x2000 0x2000 0xFFFFFFFF
    (ContextValid s ∧ ContextOf ts s ∧ s.src ≠ 0 ∧ s.dst ≠ 0 ∧ s.cnt ≠ 0 ∧ 64 * s.cnt.toNat ≤ 2 ^ 32 ∧
      RangesAllowed s.src s.dst (64 * s.cnt.toNat)) ∧
    ContextValid s' ∧ ContextOf ts s' ∧ s'.src ≠ 0 ∧ s'.dst ≠ 0 ∧ s'.cnt ≠ 0 ∧
    RangesAllowed s'.src s'.dst (64 * s'.cnt.toNat) :=
  ⟨⟨rfl, validFor_contextOf _ _ _, by decide +kernel, by decide +kernel, by decide +kernel, by decide +kernel,
    ranges_apart (src := 0x2000) (dst := 0x3000) (n := 576) (by decide) (by decide)⟩,
    rfl, validFor_contextOf _ _ _, by decide +kernel, by decide +kernel, by decide +kernel, .inl rfl⟩

/-- Ranges that share one byte, on either side, and ranges that only touch. -/
theorem witness_PartialOverlapIsRefused :
    let s := validFor 0x2000 0x203F 1
    ContextValid s ∧ s.src ≠ 0 ∧ s.dst ≠ 0 ∧ s.cnt ≠ 0 ∧ s.src ≠ s.dst ∧
    (∃ j k, j < 64 * s.cnt.toNat ∧ k < 64 * s.cnt.toNat ∧ offset s.src j = offset s.dst k) ∧
    RangesAllowed 0x2000 0x2040 64 :=
  ⟨rfl, by decide +kernel, by decide +kernel, by decide +kernel, by decide +kernel,
    ⟨63, 0, by decide +kernel, by decide +kernel, by decide +kernel⟩, ranges_apart (by decide) (by decide)⟩

theorem witness_BatchRoundTrip :
    let s := validFor 0x2000 0x3000 9
    let out : Addr := 0x4000
    ContextValid s ∧ ContextOf ts s ∧ s.src ≠ 0 ∧ s.dst ≠ 0 ∧ s.cnt ≠ 0 ∧ out ≠ 0 ∧
    RangesAllowed s.src s.dst (64 * s.cnt.toNat) ∧ RangesAllowed s.dst out (64 * s.cnt.toNat) :=
  ⟨rfl, validFor_contextOf _ _ _, by decide +kernel, by decide +kernel, by decide +kernel, by decide,
    ranges_apart (src := 0x2000) (dst := 0x3000) (n := 576) (by decide) (by decide),
    ranges_apart (src := 0x3000) (dst := 0x4000) (n := 576) (by decide) (by decide)⟩

end Sys2Proof.Tests
end

section
/-! Decoding inverts encoding, and what a step does with the next word (00_scope.md R7, R27, 30_encoding.md
R94, R95). -/

namespace Sys2Proof

section
open Sys2Proof.Laws.EncodeSelects

/-- The EncodeSelects family, gathered over the constructors of Instr. -/
theorem encode_selects (i : Instr) : Statement i :=
  match i with
  | .nop => nop
  | .setsrc imm => setsrc imm
  | .setdst imm => setdst imm
  | .setcnt imm => setcnt imm
  | .romrd t imm => romrd t imm
  | .mixg c w => mixg c w
  | .mixh c w => mixh c w
  | .mixk c w => mixk c w
  | .imixg c w => imixg c w
  | .imixh c w => imixh c w
  | .imixk c w => imixk c w
  | .subc r => subc r
  | .colmix => colmix
  | .icolmix => icolmix
  | .shrows => shrows
  | .ishrows => ishrows
  | .ark k => ark k
  | .fround r => fround r
  | .iround r => iround r
  | .ldblk => ldblk
  | .stblk => stblk
  | .enc => enc
  | .dec => dec
  | .ksinit => ksinit
  | .ksprnd j => ksprnd j
  | .ksperm => ksperm
  | .kssqz k => kssqz k
  | .keysched => keysched
  | .kwipe => kwipe
  | .ldsk => ldsk
  | .stsk => stsk
  | .ctxinit => ctxinit
  | .ctxclr => ctxclr
  | .vldraw => vldraw
  | .vxpose => vxpose
  | .vixpose => vixpose
  | .vstraw => vstraw
  | .vload => vload
  | .vstore => vstore
  | .vsubc r => vsubc r
  | .vcolmix => vcolmix
  | .vicolmix => vicolmix
  | .vshrows => vshrows
  | .vishrows => vishrows
  | .vark k => vark k
  | .vfround r => vfround r
  | .viround r => viround r
  | .venc8 => venc8
  | .vdec8 => vdec8
  | .benc => benc
  | .bdec => bdec

end

/-- A legal command's word decodes to it (R93, R95). -/
theorem decode_encode {i : Instr} (hw : i.wellFormed = true) : decode (encode i) = .ok i := by
  obtain ⟨f, hrow, hunused⟩ := encode_selects i
  exact (decode_eq_ok _ i).2 ⟨f, hrow, hunused, hw⟩

/-- A command word handed over as a number is that word again. -/
@[simp] theorem wordOfBits_toNat (w : Cmd) : wordOfBits 64 w.toNat = w := by
  rw [wordOfBits, Nat.mod_eq_of_lt w.isLt, BitVec.ofNat_toNat, BitVec.setWidth_eq]

end Sys2Proof

namespace Sys2Proof.Machine

/-- A fetched word that decodes to `i` runs as `i` (R95). -/
theorem step_of_decode_ok {s s' : State} {w : Cmd} {i : Instr} (hf : fetch s = some (w, s'))
    (hd : decode w = .ok i) : step s = exec i s' := by
  simp only [step, hf, hd]

/-- The next word of a list that is not exhausted. -/
theorem fetch_of_pending_cons {s : State} {w : Cmd} {ws : List Cmd} (h : s.pending = w :: ws) :
    fetch s = some (w, { s with pending := ws }) := by
  simp only [fetch, h]

/-- Settles O5: both parts are `step_of_decode_ok`, for the word at the head of the list and for the word
`withFetchWord` places, which `decode_encode` decodes. -/
theorem stepRunsDecodedCommand : Obligations.StepRunsDecodedCommand := by
  unfold Obligations.StepRunsDecodedCommand
  constructor
  · intro s w ws i hp hd
    exact step_of_decode_ok (fetch_of_pending_cons hp) hd
  · intro s i hw
    have hd : decode (wordOfBits 64 (encode i).toNat) = .ok i := by
      rw [wordOfBits_toNat, decode_encode hw]
    exact step_of_decode_ok (fetch_withFetchWord s 64 _) hd

/-! The rotations as numbers, bit by bit, and as each other's inverse (00_scope.md R9). -/

/-- The formula of R9 for the right rotation, reduced modulo 2^32 once at the end. -/
theorem ror_toNat (x : Word) (r : Nat) :
    (ror x r).toNat = (x.toNat >>> r ||| x.toNat <<< (32 - r)) % 2 ^ 32 := by
  have hlow : x.toNat >>> r % 2 ^ 32 = x.toNat >>> r :=
    Nat.mod_eq_of_lt (lt_of_le_of_lt (Nat.shiftRight_le _ _) x.isLt)
  rw [ror, BitVec.toNat_or, BitVec.toNat_ushiftRight, BitVec.toNat_shiftLeft, Nat.or_mod_two_pow, hlow]

/-- A left rotation is the right rotation by the remaining bits. -/
theorem rol_eq_ror (x : Word) {r : Nat} (hr : r ≤ 32) : rol x r = ror x (32 - r) := by
  rw [rol, ror, Nat.sub_sub_self hr, BitVec.or_comm]

theorem rol_toNat (x : Word) {r : Nat} (hr : r ≤ 32) :
    (rol x r).toNat = (x.toNat <<< r ||| x.toNat >>> (32 - r)) % 2 ^ 32 := by
  rw [rol_eq_ror x hr, ror_toNat, Nat.sub_sub_self hr, Nat.or_comm]

/-- Bit `n` of a right rotation is bit `n + r`, counted round the word. -/
theorem getLsbD_ror (x : Word) {r n : Nat} (hr : r ≤ 32) (hn : n < 32) :
    (ror x r).getLsbD n = x.getLsbD (if n < 32 - r then n + r else n + r - 32) := by
  rw [ror, BitVec.getLsbD_or, BitVec.getLsbD_ushiftRight, BitVec.getLsbD_shiftLeft]
  split
  case isTrue h => simp [h, Nat.add_comm]
  case isFalse h =>
    have hout : x.getLsbD (r + n) = false := BitVec.getLsbD_of_ge x _ (by omega)
    have hidx : n - (32 - r) = n + r - 32 := by omega
    simp [hout, h, hn, hidx]

/-- Two rotations that together turn the word once round leave it as it was. -/
theorem ror_ror_complement (x : Word) {r : Nat} (hr : r ≤ 32) : ror (ror x r) (32 - r) = x := by
  apply BitVec.eq_of_getLsbD_eq
  intro n hn
  rw [getLsbD_ror _ (Nat.sub_le 32 r) hn, getLsbD_ror x hr (by split <;> omega)]
  congr 1
  split_ifs <;> omega

@[simp] theorem rol_ror (x : Word) {r : Nat} (hr : r ≤ 32) : rol (ror x r) r = x := by
  rw [rol_eq_ror _ hr, ror_ror_complement x hr]

@[simp] theorem ror_rol (x : Word) {r : Nat} (hr : r ≤ 32) : ror (rol x r) r = x := by
  have h := ror_ror_complement x (Nat.sub_le 32 r)
  rwa [Nat.sub_sub_self hr, ← rol_eq_ror x hr] at h

/-- Every amount of the three sets is in 1..31 (R5, R9). -/
theorem rotation_bounds (X : MixSet) (n : Fin 4) : 1 ≤ rotation X n ∧ rotation X n ≤ 31 := by
  cases X <;> revert n <;> decide

/-- Settles O23: the formulas by `ror_toNat` and `rol_toNat`, the inverse laws by `rol_ror` and `ror_rol`, and
the table of amounts by evaluation. -/
theorem rotationsAreTheNumberFormulas : Obligations.RotationsAreTheNumberFormulas := by
  unfold Obligations.RotationsAreTheNumberFormulas
  refine ⟨?_, by decide, rotation_bounds⟩
  intro x r _ hr
  have hr' : r ≤ 32 := by omega
  exact ⟨ror_toNat x r, rol_toNat x hr', rol_ror x hr', ror_rol x hr'⟩

end Sys2Proof.Machine
end

section
/-! How a command that completes ends: STATUS, pc, the "written by" column of R20, the capability latch, and
ERRSEEN over a run (10_state.md R20 to R29, 60_exceptions.md R290 to R302). -/

namespace Sys2Proof.Machine

open Sys2Proof.Claims

/-! ### How a command that completes ends -/

/-- The next state of a command: the state it started in with a failure recorded, CTXINIT's failure with the
answer latched, or the success of an effect inside the command's frame. -/
theorem exec_next_cases {i : Instr} {s t : State} (h : exec i s = .next t) :
    (∃ f, t = s.fail f) ∨ (i = .ctxinit ∧ t = (latchCapability s).fail .nocap) ∨
      ∃ e, Changes i s e ∧ t = e.succeed := by
  have hends := exec_ends i s
  rw [h] at hends
  cases hends with
  | illegal hw => exact .inl ⟨_, rfl⟩
  | check u f hw hu hf => exact .inl ⟨f, rfl⟩
  | nocap hi hq => exact .inr (.inl ⟨hi, rfl⟩)
  | done e hw hc hp hq he => exact .inr (.inr ⟨e, he, rfl⟩)

/-- The one outcome that is not a next state is the refusal of a batch whose ranges overlap partially (R70). -/
theorem exec_next_or_overlap (i : Instr) (s : State) :
    (∃ t, exec i s = .next t) ∨ ((i = .benc ∨ i = .bdec) ∧ exec i s = .refused .partialOverlap) := by
  have hends := exec_ends i s
  generalize exec i s = o at hends ⊢
  cases hends with
  | illegal hw => exact .inl ⟨_, rfl⟩
  | check u f hw hu hf => exact .inl ⟨_, rfl⟩
  | nocap hi hq => exact .inl ⟨_, rfl⟩
  | overlap hi hc hp => exact .inr ⟨hi, rfl⟩
  | done e hw hc hp hq he => exact .inl ⟨_, rfl⟩

/-- A command has at most one next state. -/
theorem exec_next_unique {i : Instr} {s t u : State} (ht : exec i s = .next t) (hu : exec i s = .next u) : t = u :=
  Host.Outcome.next.inj (ht.symm.trans hu)

theorem failureCode_bounds (f : Failure) : 1 ≤ (failureCode f).toNat ∧ (failureCode f).toNat ≤ 4 := by
  cases f <;> decide

/-- STATUS and pc after a command: OK with ERRSEEN kept, or a code in 1..4 with ERRSEEN set; pc is one on
(R27, R28, R291, R292). -/
theorem exec_next_status {i : Instr} {s t : State} (h : exec i s = .next t) :
    t.pc = s.pc + 1 ∧
      ((t.res = 0 ∧ t.errSeen = s.errSeen) ∨ (1 ≤ t.res.toNat ∧ t.res.toNat ≤ 4 ∧ t.errSeen = true)) := by
  rcases exec_next_cases h with ⟨f, rfl⟩ | ⟨-, rfl⟩ | ⟨e, he, rfl⟩
  · obtain ⟨hlow, hhigh⟩ := failureCode_bounds f
    exact ⟨rfl, .inr ⟨hlow, hhigh, rfl⟩⟩
  · have hpc : (latchCapability s).pc = s.pc := by rw [latchCapability_eq]
    exact ⟨by rw [State.fail_pc, hpc], .inr ⟨by simp [failureCode], by simp [failureCode], rfl⟩⟩
  · obtain ⟨herr, hpc, -, -⟩ := changes_keep he
    exact ⟨by rw [State.succeed_pc, hpc], .inl ⟨rfl, herr⟩⟩

/-- Settles O8: `exec_next_or_overlap` gives the next state, `exec_next_status` what it holds. -/
theorem everyCommandEndsInSuccessOrFailure : Obligations.EveryCommandEndsInSuccessOrFailure := by
  unfold Obligations.EveryCommandEndsInSuccessOrFailure
  intro i s
  rcases exec_next_or_overlap i s with ⟨t, ht⟩ | hoverlap
  · exact .inl ⟨t, ht, exec_next_status ht⟩
  · exact .inr hoverlap

/-! ### Which command writes which register -/

/-- The "written by" column of R20 as a relation between the state before a command and after it. -/
structure WritesOnlyItsRegisters (i : Instr) (s t : State) : Prop where
  sReg : t.sReg ≠ s.sReg → i.mnemonic ∈ writesS
  sk : t.sk ≠ s.sk → i.mnemonic ∈ ["KSSQZ", "KEYSCHED", "LDSK", "KWIPE"]
  kss : t.kss ≠ s.kss → i.mnemonic ∈ ["KSINIT", "KSPRND", "KSPERM", "KSSQZ", "KEYSCHED"]
  v : t.v ≠ s.v → i.mnemonic ∈ writesV
  bk : t.bk ≠ s.bk → i.mnemonic ∈ ["CTXINIT", "CTXCLR"]
  brc : t.brc ≠ s.brc → i.mnemonic ∈ ["CTXINIT", "CTXCLR"]
  ck : t.ck ≠ s.ck → i.mnemonic ∈ ["CTXINIT", "CTXCLR"]
  tag : t.tag ≠ s.tag → i.mnemonic ∈ ["CTXINIT", "CTXCLR"]
  src : t.src ≠ s.src → i.mnemonic = "SETSRC"
  dst : t.dst ≠ s.dst → i.mnemonic = "SETDST"
  cnt : t.cnt ≠ s.cnt → i.mnemonic = "SETCNT"
  caps : t.capQ ≠ s.capQ ∨ t.capV ≠ s.capV → i.mnemonic = "CTXINIT"

/-- The frame of a command's effect stays inside the command's rows of R20. -/
theorem changes_writesOnlyItsRegisters {i : Instr} {s e : State} (h : Changes i s e) :
    WritesOnlyItsRegisters i s e := by
  cases i with
  | nop => rw [h]; constructor <;> simp
  | setsrc x => rw [h]; constructor <;> simp [Instr.mnemonic]
  | setdst x => rw [h]; constructor <;> simp [Instr.mnemonic]
  | setcnt x => rw [h]; constructor <;> simp [Instr.mnemonic]
  | romrd | stblk | stsk | vstraw => rw [h]; constructor <;> simp
  | mixg | mixh | mixk | imixg | imixh | imixk | subc | colmix | icolmix | shrows | ishrows | ark | fround | iround
  | ldblk | enc | dec => rw [h]; constructor <;> simp [Instr.mnemonic, writesS]
  | ksinit | ksprnd | ksperm | kssqz | keysched | kwipe | ldsk => rw [h]; constructor <;> simp [Instr.mnemonic]
  | ctxinit => rw [h]; constructor <;> simp [Instr.mnemonic]
  | ctxclr => rw [h]; constructor <;> simp [Instr.mnemonic, writesV]
  | vldraw | vxpose | vixpose | vload | vstore | vsubc | vcolmix | vicolmix | vshrows | vishrows | vark | vfround
  | viround | venc8 | vdec8 => rw [h]; constructor <;> simp [Instr.mnemonic, writesV]
  | benc | bdec => rw [h]; constructor <;> simp [Instr.mnemonic, writesS, writesV]

theorem fail_writesOnlyItsRegisters (i : Instr) (s : State) (f : Failure) :
    WritesOnlyItsRegisters i s (s.fail f) := by
  constructor <;> simp

theorem latch_writesOnlyItsRegisters (s : State) (f : Failure) :
    WritesOnlyItsRegisters .ctxinit s ((latchCapability s).fail f) := by
  rw [latchCapability_eq]
  constructor <;> simp [Instr.mnemonic]

theorem exec_writesOnlyItsRegisters {i : Instr} {s t : State} (h : exec i s = .next t) :
    WritesOnlyItsRegisters i s t := by
  rcases exec_next_cases h with ⟨f, rfl⟩ | ⟨rfl, rfl⟩ | ⟨e, he, rfl⟩
  · exact fail_writesOnlyItsRegisters i s f
  · exact latch_writesOnlyItsRegisters s .nocap
  · obtain ⟨hS, hsk, hkss, hv, hbk, hbrc, hck, htag, hsrc, hdst, hcnt, hcaps⟩ := changes_writesOnlyItsRegisters he
    exact ⟨hS, hsk, hkss, hv, hbk, hbrc, hck, htag, hsrc, hdst, hcnt, hcaps⟩

/-- No command touches the host's list or the input `cap_usable` (R27, R37). -/
theorem exec_next_host {i : Instr} {s t : State} (h : exec i s = .next t) :
    t.pending = s.pending ∧ t.capUsable = s.capUsable := by
  rcases exec_next_cases h with ⟨f, rfl⟩ | ⟨-, rfl⟩ | ⟨e, he, rfl⟩
  · exact ⟨rfl, rfl⟩
  · rw [latchCapability_eq]; exact ⟨rfl, rfl⟩
  · obtain ⟨-, -, hpending, hcap⟩ := changes_keep he
    exact ⟨hpending, hcap⟩

/-- Settles O11: the registers by `exec_writesOnlyItsRegisters`, the host's side by `exec_next_host`. -/
theorem registersWrittenOnlyByTheirCommands : Obligations.RegistersWrittenOnlyByTheirCommands := by
  unfold Obligations.RegistersWrittenOnlyByTheirCommands
  intro i s t h
  obtain ⟨hS, hsk, hkss, hv, hbk, hbrc, hck, htag, hsrc, hdst, hcnt, hcaps⟩ := exec_writesOnlyItsRegisters h
  exact ⟨hS, hsk, hkss, hv, hbk, hbrc, hck, htag, hsrc, hdst, hcnt, hcaps, exec_next_host h⟩

/-! ### The capability latch -/

theorem eq_ctxinit_of_mnemonic {i : Instr} (h : i.mnemonic = "CTXINIT") : i = .ctxinit := by
  cases i <;> simp [Instr.mnemonic] at h ⊢

theorem exec_keeps_caps {i : Instr} {s t : State} (h : exec i s = .next t) (hi : i ≠ .ctxinit) :
    t.capQ = s.capQ ∧ t.capV = s.capV := by
  have hcaps := (exec_writesOnlyItsRegisters h).caps
  by_contra hne
  exact hi (eq_ctxinit_of_mnemonic (hcaps (not_and_or.mp hne)))

/-- CTXINIT leaves the answer it went by, sampled, whether it succeeds or fails (R211). -/
theorem exec_ctxinit_caps {s t : State} (h : exec .ctxinit s = .next t) :
    t.capQ = (if s.capV then s.capQ else s.capUsable) ∧ t.capV = true := by
  rw [← latchCapability_capQ]
  have hlatched : (latchCapability s).capV = true := by rw [latchCapability_eq]
  cases hq : (latchCapability s).capQ with
  | false =>
    obtain rfl := exec_next_unique h (exec_ctxinit_nocap s hq)
    exact ⟨hq, hlatched⟩
  | true =>
    obtain rfl := exec_next_unique h (exec_ctxinit s hq)
    exact ⟨hq, hlatched⟩

/-- Settles O14: `exec_ctxinit_caps` for CTXINIT, `exec_keeps_caps` for every other command. -/
theorem capabilityIsLatchedOnce : Obligations.CapabilityIsLatchedOnce := by
  unfold Obligations.CapabilityIsLatchedOnce
  intro i s t h
  by_cases hi : i = .ctxinit
  · subst hi
    obtain ⟨hq, hv⟩ := exec_ctxinit_caps h
    exact ⟨fun hs => ⟨by simp [hq, hs], hv⟩, fun hs _ => ⟨by simp [hq, hs], hv⟩, fun _ hne => absurd rfl hne⟩
  · obtain ⟨hq, hv⟩ := exec_keeps_caps h hi
    exact ⟨fun hs => ⟨hq, hv.trans hs⟩, fun _ hctx => absurd hctx hi, fun hs _ => ⟨hq, hv.trans hs⟩⟩

/-! ### ERRSEEN over a run -/

/-- ERRSEEN is clear after a command exactly when it was clear before and the command ended with OK. -/
theorem exec_noFailureRecorded_iff {i : Instr} {s t : State} (h : exec i s = .next t) :
    NoFailureRecorded t ↔ NoFailureRecorded s ∧ t.res = 0 := by
  unfold NoFailureRecorded
  obtain ⟨-, ⟨hres, herr⟩ | ⟨hlow, -, herr⟩⟩ := exec_next_status h
  · rw [herr, and_iff_left hres]
  · have hne : t.res ≠ 0 := fun h0 => by simp [h0] at hlow
    exact iff_of_false (by simp [herr]) fun hok => hne hok.2

/-- A run of a command and the rest completes through the command's next state. -/
theorem runAll_cons_next {i : Instr} {is : List Instr} {s t : State} (h : runAll (i :: is) s = .next t) :
    ∃ u, exec i s = .next u ∧ runAll is u = .next t := by
  cases he : exec i s with
  | next u => exact ⟨u, rfl, runAll_cons is he ▸ h⟩
  | fault f => simp [runAll, he] at h
  | refused r => simp [runAll, he] at h

/-- The first `n + 1` commands of a run end with OK exactly when the first command does and, from its next state,
so do the `n` that follow. -/
theorem initialRuns_ok_cons_iff {i : Instr} {s u : State} (is : List Instr) (he : exec i s = .next u) :
    (∀ k, k < is.length + 1 → ∃ w, runAll ((i :: is).take (k + 1)) s = .next w ∧ w.res = 0) ↔
      u.res = 0 ∧ ∀ k, k < is.length → ∃ w, runAll (is.take (k + 1)) u = .next w ∧ w.res = 0 := by
  rw [Nat.forall_lt_succ_left]
  have hfirst : runAll ((i :: is).take (0 + 1)) s = .next u := by
    rw [List.take_succ_cons, List.take_zero, runAll_single he]
  have hrest (k : Nat) : runAll ((i :: is).take (k + 1 + 1)) s = runAll (is.take (k + 1)) u := by
    rw [List.take_succ_cons, runAll_cons _ he]
  simp only [hfirst, hrest, Host.Outcome.next.injEq, exists_eq_left']

/-- Settles O15, by induction on the commands: `exec_noFailureRecorded_iff` for the first, the hypothesis for the
rest. -/
theorem errSeenRecordsEveryFailure : Obligations.ErrSeenRecordsEveryFailure := by
  unfold Obligations.ErrSeenRecordsEveryFailure
  intro is
  induction is with
  | nil =>
    intro s t h
    obtain rfl : s = t := Host.Outcome.next.inj h
    simp
  | cons i is ih =>
    intro s t h
    obtain ⟨u, he, hrun⟩ := runAll_cons_next h
    rw [ih u t hrun, exec_noFailureRecorded_iff he, and_assoc, List.length_cons, initialRuns_ok_cons_iff is he]

end Sys2Proof.Machine
end

section
/-! The invariant of Safety.lean along a step (10_state.md R25 to R29, 20_memory.md R62, 43_vector_batch.md R211,
R212, 60_exceptions.md R297, R298). -/

namespace Sys2Proof.Machine

/-! ### Memory stays in its canonical form -/

/-- ROMRD stores the ROM word at DST, or fails (R274). -/
theorem exec_romrd_mem_wf {x : BitVec 8} {imm : Word} {s t : State} (h : exec (.romrd x imm) s = .next t)
    (hm : s.mem.wf) : t.mem.wf := by
  cases hx : romWord Config.params x imm with
  | none =>
    have hfail : exec (.romrd x imm) s = .next (s.fail .illegal) := by
      show execRomrd x imm s = _
      rw [execRomrd, hx, State.withOperand_none]
    obtain rfl := exec_next_unique h hfail
    exact hm
  | some w =>
    obtain rfl := exec_next_unique h (exec_romrd s hx)
    exact Memory.wf_writeWord s.mem s.dst w hm

/-- A store of the vector family whose checks pass or fail. -/
theorem vectorOp_mem_wf {s e : State} (u : Uses) (hm : s.mem.wf) (he : e.mem.wf) : (s.vectorOp u e).mem.wf := by
  rcases s.vectorOp_cases u e with ⟨f, -, h⟩ | ⟨-, h⟩
  · rw [h]; exact hm
  · rw [h]; exact he

theorem batchCommand_mem_wf {d : Direction} {s t : State} (h : batchCommand d s = .next t) (hm : s.mem.wf) :
    t.mem.wf := by
  rcases batchCommand_cases d s with ⟨f, -, hb⟩ | ⟨-, -, hb⟩ | ⟨-, -, hb⟩
  · obtain rfl := Host.Outcome.next.inj (h.symm.trans hb)
    exact hm
  · cases h.symm.trans hb
  · obtain rfl := Host.Outcome.next.inj (h.symm.trans hb)
    exact wf_batch _ d s hm

/-- Every command keeps the canonical form of memory: the storing commands through `Memory.write`, the others by
leaving memory as it is (R62, log entry 3). -/
theorem exec_keeps_mem_wf {i : Instr} {s t : State} (h : exec i s = .next t) (hm : s.mem.wf) : t.mem.wf := by
  cases i with
  | romrd x imm => exact exec_romrd_mem_wf h hm
  | stblk => obtain rfl := exec_next_unique h (exec_stblk s); exact wf_storeMat _ _ _ hm
  | enc => obtain rfl := exec_next_unique h (exec_enc s); exact wf_storeMat _ _ _ hm
  | dec => obtain rfl := exec_next_unique h (exec_dec s); exact wf_storeMat _ _ _ hm
  | stsk => obtain rfl := exec_next_unique h (exec_stsk s); exact wf_storeSchedule _ _ _ hm
  | vstraw =>
    obtain rfl := Host.Outcome.next.inj h
    exact vectorOp_mem_wf _ hm (wf_storeMat _ _ _ hm)
  | vstore =>
    obtain rfl := Host.Outcome.next.inj h
    exact vectorOp_mem_wf _ hm (wf_storeMat _ _ _ hm)
  | benc => exact batchCommand_mem_wf (d := .encrypt) h hm
  | bdec => exact batchCommand_mem_wf (d := .decrypt) h hm
  | _ =>
    have hmem : t.mem = s.mem := by
      rcases exec_next_cases h with ⟨f, rfl⟩ | ⟨-, rfl⟩ | ⟨e, he, rfl⟩
      · rfl
      · rw [latchCapability_eq]; rfl
      · rw [he]; rfl
    rw [hmem]; exact hm

/-! ### The operations on the context keep the invariant -/

/-- The context of 10_state.md R25 and the pair of R29 are in `t` as in `s`. -/
structure SameContext (s t : State) : Prop where
  bk : t.bk = s.bk
  brc : t.brc = s.brc
  ck : t.ck = s.ck
  tag : t.tag = s.tag
  capQ : t.capQ = s.capQ
  capV : t.capV = s.capV

/-- The invariant is about memory, STATUS and what `SameContext` compares, and about nothing else. -/
theorem Inv.of_sameContext {s t : State} (hs : Inv s) (hc : SameContext s t) (hmem : t.mem.wf)
    (hle : t.res.toNat ≤ 4) (herr : t.res ≠ 0 → t.errSeen = true) : Inv t where
  mem_wf := hmem
  res_le := hle
  res_errSeen := herr
  capQ_capV := by rw [hc.capQ, hc.capV]; exact hs.capQ_capV
  tag_cases := by rw [hc.tag]; exact hs.tag_cases
  valid_capQ := by rw [hc.tag, hc.capQ]; exact hs.valid_capQ
  valid_context := fun hvalid => by
    have c := hs.valid_context (hc.tag ▸ hvalid)
    exact ⟨by rw [hc.bk, hc.ck]; exact c.bk, by rw [hc.brc]; exact c.brc, rfl⟩
  clear_context := fun hzero => by
    have c := hs.clear_context (hc.tag ▸ hzero)
    exact ⟨by rw [hc.bk]; exact c.bk, by rw [hc.brc]; exact c.brc, by rw [hc.ck]; exact c.ck⟩

theorem inv_succeed {s : State} (hs : Inv s) : Inv s.succeed :=
  hs.of_sameContext ⟨rfl, rfl, rfl, rfl, rfl, rfl⟩ hs.mem_wf (Nat.zero_le 4) fun h => absurd rfl h

theorem inv_fail {s : State} (f : Failure) (hs : Inv s) : Inv (s.fail f) :=
  hs.of_sameContext ⟨rfl, rfl, rfl, rfl, rfl, rfl⟩ hs.mem_wf (failureCode_bounds f).2 fun _ => rfl

/-- The invariant says nothing of the host's list. -/
theorem inv_pending {s : State} (ws : List Cmd) (hs : Inv s) : Inv { s with pending := ws } :=
  hs.of_sameContext ⟨rfl, rfl, rfl, rfl, rfl, rfl⟩ hs.mem_wf hs.res_le hs.res_errSeen

/-- Under a valid context an answer is sampled already, so latching keeps it (R29, R297). -/
theorem inv_latchCapability {s : State} (hs : Inv s) : Inv (latchCapability s) := by
  rw [latchCapability_eq]
  exact {
    mem_wf := hs.mem_wf
    res_le := hs.res_le
    res_errSeen := hs.res_errSeen
    capQ_capV := fun _ => rfl
    tag_cases := hs.tag_cases
    valid_capQ := fun h => by
      have hq : s.capQ = true := hs.valid_capQ h
      simp [hs.capQ_capV hq, hq]
    valid_context := fun h => have c := hs.valid_context h; ⟨c.bk, c.brc, rfl⟩
    clear_context := fun h => have c := hs.clear_context h; ⟨c.bk, c.brc, c.ck⟩ }

/-- What CTXINIT builds is the context of SK (R25, R211). -/
theorem contextOf_buildContext (s : State) : ContextOf s.sk (buildContext Config.params s) where
  bk _ _ _ := broadcastKeys_word _ _ _ _
  brc r n l := by
    have hindex : 16 * r.val + 4 * (n.val / 4) + n.val % 4 = 16 * r.val + n.val := by omega
    exact (broadcastConstants_word _ r n l).trans (by simp only [blockWord, roundChunk_word, hindex])
  ck := rfl

/-- With the answer "usable", building the context keeps the invariant (R211, R297). -/
theorem inv_buildContext {s : State} (hs : Inv s) (hq : s.capQ = true) : Inv (buildContext Config.params s) where
  mem_wf := hs.mem_wf
  res_le := hs.res_le
  res_errSeen := hs.res_errSeen
  capQ_capV := hs.capQ_capV
  tag_cases := .inr rfl
  valid_capQ := fun _ => hq
  valid_context := fun _ => contextOf_buildContext s
  clear_context := fun h => absurd h Config.params.ctxTag_ne_zero

theorem contextClear_clearContext (s : State) : ContextClear (clearContext s) where
  bk _ _ _ := by simp [clearContext]
  brc _ _ _ := by simp [clearContext]
  ck _ _ _ := by simp [clearContext]

/-- The cleared tag is not `CTX_TAG`, and nothing is left of the context (R212, R298). -/
theorem inv_clearContext {s : State} (hs : Inv s) : Inv (clearContext s) where
  mem_wf := hs.mem_wf
  res_le := hs.res_le
  res_errSeen := hs.res_errSeen
  capQ_capV := hs.capQ_capV
  tag_cases := .inl rfl
  valid_capQ := fun h => absurd h.symm Config.params.ctxTag_ne_zero
  valid_context := fun h => absurd h.symm Config.params.ctxTag_ne_zero
  clear_context := fun _ => contextClear_clearContext s

/-! ### The commands and the step keep the invariant -/

theorem exec_ctxinit_keeps_inv {s t : State} (hs : Inv s) (h : exec .ctxinit s = .next t) : Inv t := by
  have hlatched := inv_latchCapability hs
  cases hq : (latchCapability s).capQ with
  | false =>
    obtain rfl := exec_next_unique h (exec_ctxinit_nocap s hq)
    exact inv_fail .nocap hlatched
  | true =>
    obtain rfl := exec_next_unique h (exec_ctxinit s hq)
    exact inv_succeed (inv_buildContext hlatched hq)

theorem exec_ctxclr_keeps_inv {s t : State} (hs : Inv s) (h : exec .ctxclr s = .next t) : Inv t := by
  obtain rfl := exec_next_unique h (exec_ctxclr s)
  exact inv_succeed (inv_clearContext hs)

theorem mnemonic_not_context {i : Instr} (hinit : i ≠ .ctxinit) (hclr : i ≠ .ctxclr) :
    i.mnemonic ∉ ["CTXINIT", "CTXCLR"] := by
  cases i <;> simp [Instr.mnemonic] at hinit hclr ⊢

/-- A command other than CTXINIT and CTXCLR leaves the context and CAPS alone (R20). -/
theorem exec_sameContext {i : Instr} {s t : State} (h : exec i s = .next t) (hinit : i ≠ .ctxinit)
    (hclr : i ≠ .ctxclr) : SameContext s t := by
  have hi := mnemonic_not_context hinit hclr
  have hwrites := exec_writesOnlyItsRegisters h
  obtain ⟨hcapQ, hcapV⟩ := exec_keeps_caps h hinit
  exact {
    bk := not_not.mp (mt hwrites.bk hi)
    brc := not_not.mp (mt hwrites.brc hi)
    ck := not_not.mp (mt hwrites.ck hi)
    tag := not_not.mp (mt hwrites.tag hi)
    capQ := hcapQ
    capV := hcapV }

theorem exec_other_keeps_inv {i : Instr} {s t : State} (hs : Inv s) (h : exec i s = .next t)
    (hinit : i ≠ .ctxinit) (hclr : i ≠ .ctxclr) : Inv t := by
  have hmem := exec_keeps_mem_wf h hs.mem_wf
  refine hs.of_sameContext (exec_sameContext h hinit hclr) hmem ?_ ?_
  all_goals obtain ⟨-, ⟨hres, -⟩ | ⟨-, hhigh, herr⟩⟩ := exec_next_status h
  · rw [hres]; exact Nat.zero_le 4
  · exact hhigh
  · exact fun hne => absurd hres hne
  · exact fun _ => herr

theorem exec_keeps_inv {i : Instr} {s t : State} (hs : Inv s) (h : exec i s = .next t) : Inv t := by
  by_cases hinit : i = .ctxinit
  · subst hinit; exact exec_ctxinit_keeps_inv hs h
  by_cases hclr : i = .ctxclr
  · subst hclr; exact exec_ctxclr_keeps_inv hs h
  exact exec_other_keeps_inv hs h hinit hclr

/-- A step waits, runs the command it fetched, or fails E_ILLEGAL on the word it fetched (R95, R96, R332). -/
theorem step_cases (s : State) :
    step s = .next s ∨ ∃ ws, (∃ i, step s = exec i { s with pending := ws }) ∨
      step s = .next (State.fail { s with pending := ws } .illegal) := by
  rcases fetch_cases s with ⟨-, hf⟩ | ⟨w, ws, -, hf⟩
  · exact .inl (by simp only [step, hf])
  · refine .inr ⟨ws, ?_⟩
    rcases decode_cases w with ⟨i, hd, -⟩ | ⟨e, hd⟩
    · exact .inl ⟨i, step_of_decode_ok hf hd⟩
    · exact .inr (by simp only [step, hf, hd])

/-- Settles O19: a step waits, fails or runs a command (`step_cases`), and each keeps the invariant. -/
theorem stepKeepsInv : Obligations.StepKeepsInv := by
  unfold Obligations.StepKeepsInv
  intro s t hs h
  rcases step_cases s with hwait | ⟨ws, ⟨i, hrun⟩ | hfail⟩
  · obtain rfl := Host.Outcome.next.inj (hwait.symm.trans h)
    exact hs
  · exact exec_keeps_inv (inv_pending ws hs) (hrun.symm.trans h)
  · obtain rfl := Host.Outcome.next.inj (hfail.symm.trans h)
    exact inv_fail .illegal (inv_pending ws hs)

end Sys2Proof.Machine
end

section
/-! The state after reset, the host's read ports, and the vector commands: they never read the current schedule, and
under the context of a schedule they are the scalar functions of that schedule in every lane (10_state.md R25, R28,
R29, R36, 43_vector_batch.md R227 to R231, 70_reset_and_hazards.md R330). -/

namespace Sys2Proof.Machine

open Sys2Proof.Claims

/-! ### Reset and the read ports -/

/-- Settles O16: the matrices by `Mat.word_zero`, the other registers by the definition of reset. -/
theorem resetIsAllZero : Obligations.ResetIsAllZero := by
  unfold Obligations.ResetIsAllZero
  have hclear : ContextClear State.reset :=
    ⟨fun _ _ _ => by simp [State.reset], fun _ _ _ => by simp [State.reset], fun _ _ _ => by simp [State.reset]⟩
  refine ⟨fun _ _ => ?_, fun _ _ _ => ?_, fun _ _ => ?_, fun _ _ => ?_, hclear, rfl, rfl, rfl, rfl, rfl, rfl, rfl,
    rfl, rfl⟩
  all_goals simp [State.reset]

theorem toNat_zero_append {m n : Nat} (x : BitVec n) : ((0 : BitVec m) ++ x).toNat = x.toNat := by
  rw [BitVec.toNat_append]
  simp

/-- STATUS as a number: RES in bits 2:0, ERRSEEN in bit 4 (R28). -/
theorem statusWord_toNat (s : State) : (statusWord s).toNat = s.res.toNat + 16 * s.errSeen.toNat := by
  have hres : s.res.toNat < 2 ^ (1 + 3) := lt_trans s.res.isLt (by decide)
  rw [statusWord, toNat_zero_append, BitVec.toNat_append, toNat_zero_append, ← Nat.shiftLeft_add_eq_or_of_lt hres,
    Nat.shiftLeft_eq, BitVec.toNat_ofBool]
  omega

/-- CAPS as a number: CAPQ in bit 0, CAPV in bit 1 (R29). -/
theorem capsWord_toNat (s : State) : (capsWord s).toNat = s.capQ.toNat + 2 * s.capV.toNat := by
  unfold capsWord
  cases s.capQ <;> cases s.capV <;> rfl

/-- Settles O17: the two packed words by `statusWord_toNat` and `capsWord_toNat`, the rest by the port's table. -/
theorem hostReadPorts : Obligations.HostReadPorts := by
  unfold Obligations.HostReadPorts
  intro s
  refine ⟨statusWord_toNat s, rfl, rfl, rfl, capsWord_toNat s, ?_⟩
  intro n hn
  obtain ⟨m, rfl⟩ := Nat.exists_eq_add_of_le' hn
  rfl

/-! ### The vector commands and the current schedule -/

/-- The state with another current schedule, SK and KSS. -/
def State.withSchedule (ks : Schedule) (k : Mat 4 8) (s : State) : State := { s with sk := ks, kss := k }

/-- A command's answer with its next state under another current schedule. -/
def answerWithSchedule (ks : Schedule) (k : Mat 4 8) :
    Host.Outcome State Fault Refusal → Host.Outcome State Fault Refusal
  | .next t => .next (t.withSchedule ks k)
  | .fault f => .fault f
  | .refused r => .refused r

section
variable (ks : Schedule) (k : Mat 4 8) (s : State)

theorem withSchedule_fail (f : Failure) : (s.withSchedule ks k).fail f = (s.fail f).withSchedule ks k := rfl

theorem withSchedule_succeed : (s.withSchedule ks k).succeed = s.succeed.withSchedule ks k := rfl

/-- The checks of R238 look at TAG and the operand registers only. -/
theorem withSchedule_vectorCheck (tag : Word) (u : Uses) :
    vectorCheck tag u (s.withSchedule ks k) = vectorCheck tag u s := rfl

/-- A vector command does not read the current schedule when its effect does not. -/
theorem withSchedule_vectorOp (u : Uses) {e e' : State} (he : e' = e.withSchedule ks k) :
    (s.withSchedule ks k).vectorOp u e' = (s.vectorOp u e).withSchedule ks k := by
  subst he
  rcases s.vectorOp_cases u e with ⟨f, hf, h⟩ | ⟨hn, h⟩
  · rw [h, State.vectorOp, withSchedule_vectorCheck, hf, State.unlessFails_some, withSchedule_fail]
  · rw [h, State.vectorOp, withSchedule_vectorCheck, hn, State.unlessFails_none, withSchedule_succeed]

theorem withSchedule_vectorOpWith {α : Type} (o : Option α) {effect effect' : α → State}
    (he : ∀ x, effect' x = (effect x).withSchedule ks k) :
    (s.withSchedule ks k).vectorOpWith o effect' = (s.vectorOpWith o effect).withSchedule ks k := by
  cases o with
  | none => exact withSchedule_fail ks k s .illegal
  | some x => exact withSchedule_vectorOp ks k s {} (he x)

theorem withSchedule_batchGroups (d : Direction) (n : Nat) :
    batchGroups d n (s.withSchedule ks k) = (batchGroups d n s).withSchedule ks k := by
  induction n with
  | zero => rfl
  | succ n ih => rw [batchGroups, ih, batchGroups]; rfl

/-- The tail runs the scalar engine with the cached schedule CK, not with SK (R233). -/
theorem withSchedule_batchTail (P : Params) (d : Direction) (g n : Nat) :
    batchTail P d g n (s.withSchedule ks k) = (batchTail P d g n s).withSchedule ks k := by
  induction n with
  | zero => rfl
  | succ n ih => rw [batchTail, ih, batchTail]; rfl

theorem withSchedule_batch (P : Params) (d : Direction) :
    batch P d (s.withSchedule ks k) = (batch P d s).withSchedule ks k := by
  have hcnt : (s.withSchedule ks k).cnt = s.cnt := rfl
  rw [batch, hcnt, withSchedule_batchGroups, withSchedule_batchTail, batch]

theorem withSchedule_batchCommand (d : Direction) :
    batchCommand d (s.withSchedule ks k) = answerWithSchedule ks k (batchCommand d s) := by
  have hcheck := withSchedule_vectorCheck ks k s Config.params.ctxTag { src := true, dst := true, cnt := true }
  have hsrc : (s.withSchedule ks k).src = s.src := rfl
  have hdst : (s.withSchedule ks k).dst = s.dst := rfl
  have hcnt : (s.withSchedule ks k).cnt = s.cnt := rfl
  rcases batchCommand_cases d s with ⟨f, hf, h⟩ | ⟨hn, hp, h⟩ | ⟨hn, hp, h⟩
  · rw [h, batchCommand, hcheck, hf]; rfl
  · rw [h, batchCommand, hcheck, hn, hsrc, hdst, hcnt, hp]; rfl
  · rw [h, batchCommand, hcheck, hn, hsrc, hdst, hcnt, hp, withSchedule_batch]; rfl

/-- The eighteen commands 0x42 to 0x53 answer the same under another current schedule, which they leave alone (R25,
R227, R341). -/
theorem exec_withSchedule {i : Instr} (hi : i.mnemonic ∈ needContext) :
    exec i (s.withSchedule ks k) = answerWithSchedule ks k (exec i s) := by
  cases i with
  | vldraw | vxpose | vixpose | vstraw | vload | vstore | vcolmix | vicolmix | vshrows | vishrows | venc8 | vdec8 =>
    exact congrArg Host.Outcome.next (withSchedule_vectorOp ks k s _ rfl)
  | vsubc r | vfround r | viround r =>
    exact congrArg Host.Outcome.next (withSchedule_vectorOpWith ks k s (roundOf r) fun _ => rfl)
  | vark n => exact congrArg Host.Outcome.next (withSchedule_vectorOpWith ks k s (subkeyOf n) fun _ => rfl)
  | benc => exact withSchedule_batchCommand ks k s .encrypt
  | bdec => exact withSchedule_batchCommand ks k s .decrypt
  | _ => simp [Instr.mnemonic, needContext] at hi

end

/-- Settles O46: `exec_withSchedule` read on a next state and on a refusal. -/
theorem vectorCommandsIgnoreTheCurrentSchedule : Obligations.VectorCommandsIgnoreTheCurrentSchedule := by
  unfold Obligations.VectorCommandsIgnoreTheCurrentSchedule
  intro i s ks k hi
  have hexec := exec_withSchedule ks k s hi
  constructor
  · intro t ht
    rw [ht] at hexec
    exact hexec
  · intro r hr
    rw [hr] at hexec
    exact hexec

/-! ### The lanes under the context of a schedule -/

theorem roundOf_roundNo (r : Fin 22) : roundOf (roundNo r) = some r := by
  revert r; decide

section
variable {s : State} {ks : Schedule} (h : ContextOf ks s)
include h

theorem laneM_bk_of_contextOf (k : Fin 24) (l : Fin 8) : laneM s.bk[k.val] l = ks[k.val] :=
  Mat.ext_word fun i j => by rw [laneM_word, h.bk, blockWord_wordNo]

theorem laneM_brc_of_contextOf (r : Fin 22) (l : Fin 8) : laneM s.brc[r.val] l = roundChunk Config.params r :=
  Mat.ext_word fun i j => by
    rw [laneM_word, h.brc, roundChunk_word]
    congr 1
    simp only [wordNo, Nat.add_assoc]

theorem laneM_addRoundKey_of_contextOf (k : Fin 24) (V : WideFile) (l : Fin 8) :
    laneM (wideAddRoundKey s.bk k V) l = addRoundKey ks k (laneM V l) := by
  rw [laneM_wideAddRoundKey, laneM_bk_of_contextOf h, addRoundKey]

theorem laneM_fwdRound_of_contextOf (r : Fin 22) (V : WideFile) (l : Fin 8) :
    laneM (wideFwdRound s.bk s.brc r V) l = fwdRound Config.params ks r (laneM V l) := by
  rw [laneM_wideFwdRound, laneM_bk_of_contextOf h, laneM_brc_of_contextOf h, fwdRound, addRoundKey, subConstants]

theorem laneM_invRound_of_contextOf (r : Fin 22) (V : WideFile) (l : Fin 8) :
    laneM (wideInvRound s.bk s.brc r V) l = invRound Config.params ks r (laneM V l) := by
  rw [laneM_wideInvRound, laneM_bk_of_contextOf h, laneM_brc_of_contextOf h, invRound, addRoundKey, subConstants]

theorem laneM_encrypt_of_contextOf (V : WideFile) (l : Fin 8) :
    laneM (wideEncrypt s.bk s.brc V) l = encrypt Config.params ks (laneM V l) := by
  have hloop := roundsUp_map (laneM · l) (wideFwdRound s.bk s.brc) (fwdRound Config.params ks)
    fun r W => laneM_fwdRound_of_contextOf h r W l
  rw [wideEncrypt, laneM_addRoundKey_of_contextOf h, hloop, laneM_addRoundKey_of_contextOf h, encrypt]

theorem laneM_decrypt_of_contextOf (V : WideFile) (l : Fin 8) :
    laneM (wideDecrypt s.bk s.brc V) l = decrypt Config.params ks (laneM V l) := by
  have hloop := roundsDown_map (laneM · l) (wideInvRound s.bk s.brc) (invRound Config.params ks)
    fun r W => laneM_invRound_of_contextOf h r W l
  rw [wideDecrypt, laneM_addRoundKey_of_contextOf h, hloop, laneM_addRoundKey_of_contextOf h, decrypt]

end

/-- A valid context is all a vector command without operand registers asks for (R238). -/
theorem vectorCheck_of_contextValid {s : State} (h : ContextValid s) :
    vectorCheck Config.params.ctxTag {} s = none :=
  vectorCheck_pass h (by simp) (by simp) (by simp)

/-- Settles O54: each command leaves its wide function of V, which the lemmas above read lane by lane. -/
theorem vectorEngineMatchesScalarEngine : Obligations.VectorEngineMatchesScalarEngine := by
  unfold Obligations.VectorEngineMatchesScalarEngine
  intro s ks hvalid h
  have hcheck := vectorCheck_of_contextValid hvalid
  refine ⟨fun r => ?_, fun r => ?_, ?_, ?_⟩
  · exact ⟨_, exec_vfround s (roundOf_roundNo r) hcheck, laneM_fwdRound_of_contextOf h r s.v⟩
  · exact ⟨_, exec_viround s (roundOf_roundNo r) hcheck, laneM_invRound_of_contextOf h r s.v⟩
  · exact ⟨_, exec_venc8 s hcheck, laneM_encrypt_of_contextOf h s.v⟩
  · exact ⟨_, exec_vdec8 s hcheck, laneM_decrypt_of_contextOf h s.v⟩

end Sys2Proof.Machine
end

section
/-! Reads and writes of bytes and of a block's image, and the commands that move one block (20_memory.md R61 to R67,
R69, 41_scalar_round.md R158 to R161). -/

namespace Sys2Proof.Machine

open Sys2Proof.Claims

/-! ### Bytes and block images -/

@[simp] theorem Memory.length_readBytes (m : Memory) (a : Addr) (n : Nat) : (m.readBytes a n).length = n := by
  simp [Memory.readBytes]

theorem Memory.getElem?_readBytes (m : Memory) (a : Addr) {n k : Nat} (hk : k < n) :
    (m.readBytes a n)[k]? = some (m.byteAt (offset a k)) := by
  simp [Memory.readBytes, offset, hk]

/-- A write of at most 2^32 bytes meets no address twice, so each keeps the byte of its place (R62). -/
theorem stores_writeBytes (m : Memory) (a : Addr) (bs : List Byte) (hn : bs.length ≤ 2 ^ 32) :
    Stores m a bs.length (fun k => bs[k.val]) (m.writeBytes a bs) := by
  refine ⟨fun k => ?_, fun x hx => Memory.byteAt_writeBytes_outside bs m a x hn hx⟩
  have hplace : (offset a k.val - a).toNat = k.val := addr_add_sub a k.val (by omega)
  rw [Memory.byteAt_writeBytes bs m a _ hn, dif_pos (by omega)]
  simp only [hplace]

/-- Settles O20: reads by the length and the elements of `readBytes`, writes by `stores_writeBytes`. -/
theorem memoryReadsWhatWasWritten : Obligations.MemoryReadsWhatWasWritten := by
  unfold Obligations.MemoryReadsWhatWasWritten
  exact ⟨fun m a n => ⟨m.length_readBytes a n, fun _ => m.getElem?_readBytes a⟩, stores_writeBytes⟩

/-- The word `MemRead32` gives is the number its four bytes stand for (R12, R63). -/
theorem Memory.readWord_toNat (m : Memory) (a : Addr) : (m.readWord a).toNat = wordAt m a :=
  le32_toNat _ _ _ _

/-- Storing a block writes its image, byte by byte, and nothing else (R67). -/
theorem stores_storeMat (m : Memory) (a : Addr) (X : Block) : Stores m a 64 (blockByte X) (storeMat m a X) := by
  refine ⟨fun k => ?_, fun x hx => byteAt_storeMat_outside m a x X (by decide) hx⟩
  have hplace : k.val = 4 * (4 * (k.val / 16) + k.val % 16 / 4) + k.val % 4 := by omega
  have hbyte := byteAt_storeMat_word m a X (by decide) ⟨k.val / 16, by omega⟩ ⟨k.val % 16 / 4, by omega⟩
    (k.val % 4) (by omega)
  rwa [← hplace] at hbyte

/-! ### The commands that move one block -/

/-- Settles O31: LDBLK word by word through `loadBlock_word`, STBLK through `stores_storeMat`. -/
theorem blockTransfersAreLittleEndian : Obligations.BlockTransfersAreLittleEndian := by
  unfold Obligations.BlockTransfersAreLittleEndian
  intro s
  refine ⟨⟨_, exec_ldblk s, rfl, fun i j => ?_⟩, ⟨_, exec_stblk s, rfl, stores_storeMat s.mem s.dst s.sReg⟩⟩
  have haddr : 4 * (4 * i.val + j.val) = 16 * i.val + 4 * j.val := by omega
  rw [State.succeed_sReg, loadBlock_word, haddr, Memory.readWord_toNat, offset]

/-- Settles O32: the block at SRC is read before `cipherCommand` stores its cipher, so the store is all there is to
say of memory (R69). -/
theorem encAndDecTransformOneBlock : Obligations.EncAndDecTransformOneBlock := by
  unfold Obligations.EncAndDecTransformOneBlock
  intro s
  exact ⟨⟨_, exec_enc s, rfl, rfl, stores_storeMat s.mem s.dst _⟩,
    ⟨_, exec_dec s, rfl, rfl, stores_storeMat s.mem s.dst _⟩⟩

/-! ### The refusal of partial overlap -/

/-- A refused command is a batch whose checks pass and whose ranges overlap partially (R70). -/
theorem exec_refused_cases {i : Instr} {s : State} {r : Refusal} (h : exec i s = .refused r) :
    r = .partialOverlap ∧ (i = .benc ∨ i = .bdec) ∧
      vectorCheck Config.params.ctxTag { src := true, dst := true, cnt := true } s = none ∧
      partialOverlap s.src s.dst (64 * s.cnt.toNat) = true := by
  have hends := exec_ends i s
  rw [h] at hends
  cases hends with
  | overlap hi hc hp => exact ⟨rfl, hi, hc, hp⟩

theorem batchCommand_of_overlap (d : Direction) {s : State}
    (hc : vectorCheck Config.params.ctxTag { src := true, dst := true, cnt := true } s = none)
    (hp : partialOverlap s.src s.dst (64 * s.cnt.toNat) = true) : batchCommand d s = .refused .partialOverlap := by
  simp only [batchCommand, hc, hp, if_true]

theorem exec_refused_iff {i : Instr} {s : State} {r : Refusal} :
    exec i s = .refused r ↔ r = .partialOverlap ∧ (i = .benc ∨ i = .bdec) ∧
      vectorCheck Config.params.ctxTag { src := true, dst := true, cnt := true } s = none ∧
      partialOverlap s.src s.dst (64 * s.cnt.toNat) = true := by
  refine ⟨exec_refused_cases, ?_⟩
  rintro ⟨rfl, rfl | rfl, hc, hp⟩
  · exact batchCommand_of_overlap .encrypt hc hp
  · exact batchCommand_of_overlap .decrypt hc hp

/-- The checks of a batch: a valid context, and SRC, DST and CNT not 0 (R238). -/
theorem batchCheck_eq_none (s : State) :
    vectorCheck Config.params.ctxTag { src := true, dst := true, cnt := true } s = none ↔
      ContextValid s ∧ s.src ≠ 0 ∧ s.dst ≠ 0 ∧ s.cnt ≠ 0 := by
  rw [vectorCheck_eq_none, nullOperand_eq_false, ContextValid, and_comm]
  simp only [forall_const]

/-- Settles O59: `exec_refused_iff`, with the checks and the overlap in the statement's terms. -/
theorem partialOverlapIsRefused : Obligations.PartialOverlapIsRefused := by
  unfold Obligations.PartialOverlapIsRefused
  intro i s r
  rw [exec_refused_iff, batchCheck_eq_none, partialOverlap_eq_true]
  simp only [and_assoc, offset]

end Sys2Proof.Machine
end

section
/-! The ranges of a command: what it writes outside its output range (nothing), and what it reads outside its input
range (nothing), batches of every length among them (20_memory.md R62, R68, R69, R74, 43_vector_batch.md R233). -/

namespace Sys2Proof.Machine

open Sys2Proof.Claims

/-! ### The sizes of the ranges (R68) -/

@[simp] theorem loadSize_ldblk (s : State) : loadSize .ldblk s = 64 := by simp [loadSize, Instr.mnemonic]
@[simp] theorem loadSize_enc (s : State) : loadSize .enc s = 64 := by simp [loadSize, Instr.mnemonic]
@[simp] theorem loadSize_dec (s : State) : loadSize .dec s = 64 := by simp [loadSize, Instr.mnemonic]
@[simp] theorem loadSize_ksinit (s : State) : loadSize .ksinit s = 32 := by simp [loadSize, Instr.mnemonic]
@[simp] theorem loadSize_keysched (s : State) : loadSize .keysched s = 32 := by simp [loadSize, Instr.mnemonic]
@[simp] theorem loadSize_ldsk (s : State) : loadSize .ldsk s = 1536 := by simp [loadSize, Instr.mnemonic]
@[simp] theorem loadSize_vldraw (s : State) : loadSize .vldraw s = 512 := by simp [loadSize, Instr.mnemonic]
@[simp] theorem loadSize_vload (s : State) : loadSize .vload s = 512 := by simp [loadSize, Instr.mnemonic]

@[simp] theorem loadSize_benc (s : State) : loadSize .benc s = 64 * s.cnt.toNat := by
  simp [loadSize, Instr.mnemonic]

@[simp] theorem loadSize_bdec (s : State) : loadSize .bdec s = 64 * s.cnt.toNat := by
  simp [loadSize, Instr.mnemonic]

@[simp] theorem storeSize_stblk (s : State) : storeSize .stblk s = 64 := by simp [storeSize, Instr.mnemonic]
@[simp] theorem storeSize_enc (s : State) : storeSize .enc s = 64 := by simp [storeSize, Instr.mnemonic]
@[simp] theorem storeSize_dec (s : State) : storeSize .dec s = 64 := by simp [storeSize, Instr.mnemonic]
@[simp] theorem storeSize_stsk (s : State) : storeSize .stsk s = 1536 := by simp [storeSize, Instr.mnemonic]
@[simp] theorem storeSize_vstraw (s : State) : storeSize .vstraw s = 512 := by simp [storeSize, Instr.mnemonic]
@[simp] theorem storeSize_vstore (s : State) : storeSize .vstore s = 512 := by simp [storeSize, Instr.mnemonic]

@[simp] theorem storeSize_romrd (x : BitVec 8) (imm : Word) (s : State) : storeSize (.romrd x imm) s = 4 := by
  simp [storeSize, Instr.mnemonic]

@[simp] theorem storeSize_benc (s : State) : storeSize .benc s = 64 * s.cnt.toNat := by
  simp [storeSize, Instr.mnemonic]

@[simp] theorem storeSize_bdec (s : State) : storeSize .bdec s = 64 * s.cnt.toNat := by
  simp [storeSize, Instr.mnemonic]

/-- The commands with an output range (R68). -/
def storingCommands : List String :=
  ["STBLK", "ENC", "DEC", "STSK", "ROMRD", "VSTRAW", "VSTORE", "BENC", "BDEC"]

theorem storeSize_eq_zero {i : Instr} (hi : i.mnemonic ∉ storingCommands) (s : State) : storeSize i s = 0 := by
  simp only [storingCommands, List.mem_cons, List.not_mem_nil, or_false, not_or] at hi
  simp [storeSize, hi]

/-! ### Stores and the bytes outside them -/

/-- An address at least `b` bytes above `a` is that much nearer to `a + b`; there is no wrap between them. -/
theorem addr_sub_add (x a : Addr) {b : Nat} (h : b ≤ (x - a).toNat) :
    (x - (a + BitVec.ofNat 32 b)).toNat = (x - a).toNat - b := by
  have hx := x.isLt
  have ha := a.isLt
  simp only [BitVec.toNat_sub, BitVec.toNat_add, BitVec.toNat_ofNat] at h ⊢
  omega

/-- `m'` is `m` at every address that is not one of the `n` from `a` up. -/
def SameOutside (a : Addr) (n : Nat) (m m' : Memory) : Prop :=
  ∀ x : Addr, n ≤ (x - a).toNat → m'.byteAt x = m.byteAt x

theorem SameOutside.refl (a : Addr) (n : Nat) (m : Memory) : SameOutside a n m m := fun _ _ => rfl

theorem SameOutside.of_stores {m m' : Memory} {a : Addr} {n : Nat} {f : Fin n → Byte} (h : Stores m a n f m') :
    SameOutside a n m m' := h.2

/-- A store of a matrix stays in its own bytes. -/
theorem sameOutside_storeMat {r c : Nat} (m : Memory) (a : Addr) (X : Mat r c) (hn : 4 * (r * c) ≤ 2 ^ 32) :
    SameOutside a (4 * (r * c)) m (storeMat m a X) :=
  fun x hx => byteAt_storeMat_outside m a x X hn hx

theorem sameOutside_storeBlock (m : Memory) (a : Addr) (X : Block) : SameOutside a 64 m (storeMat m a X) :=
  sameOutside_storeMat m a X (by decide)

theorem sameOutside_storeWide (m : Memory) (a : Addr) (V : WideFile) : SameOutside a 512 m (storeMat m a V) :=
  sameOutside_storeMat m a V (by decide)

theorem sameOutside_storeSchedule (m : Memory) (a : Addr) (ks : Schedule) :
    SameOutside a 1536 m (storeSchedule m a ks) := fun x hx => by
  rw [byteAt_storeSchedule, if_neg (by omega)]

theorem sameOutside_writeWord (m : Memory) (a : Addr) (w : Word) : SameOutside a 4 m (m.writeWord a w) :=
  .of_stores (stores_writeBytes m a (bytes4 w) (by simp [bytes4]))

/-- One more image, `n` bytes up, after a write of the `n` bytes below it. -/
theorem SameOutside.storeMat {r c n : Nat} {m m' : Memory} {a : Addr} (h : SameOutside a n m m') (X : Mat r c)
    (hn : 4 * (r * c) ≤ 2 ^ 32) :
    SameOutside a (n + 4 * (r * c)) m (storeMat m' (a + BitVec.ofNat 32 n) X) := fun x hx => by
  have hplace := addr_sub_add x a (b := n) (by omega)
  rw [sameOutside_storeMat m' _ X hn x (by omega), h x (by omega)]

/-! ### What commands leave outside the output range -/

theorem batchGroups_dst (d : Direction) (n : Nat) (s : State) : (batchGroups d n s).dst = s.dst :=
  by rw [batchGroups_frame]

theorem batchTail_dst (P : Params) (d : Direction) (g n : Nat) (s : State) : (batchTail P d g n s).dst = s.dst :=
  by rw [batchTail_frame]

theorem sameOutside_batchGroups (d : Direction) (n : Nat) (s : State) :
    SameOutside s.dst (512 * n) s.mem (batchGroups d n s).mem := by
  induction n with
  | zero => exact .refl _ _ _
  | succ n ih =>
    rw [batchGroups, batchGroup, batchGroups_dst]
    exact ih.storeMat (r := 16) (c := 8) _ (by decide)

theorem sameOutside_batchTail (P : Params) (d : Direction) {g n : Nat} {s : State} {m : Memory}
    (h : SameOutside s.dst (512 * g) m s.mem) :
    SameOutside s.dst (512 * g + 64 * n) m (batchTail P d g n s).mem := by
  induction n with
  | zero => exact h
  | succ n ih =>
    rw [batchTail, batchTailBlock, batchTail_dst]
    exact ih.storeMat (r := 4) (c := 4) _ (by decide)

/-- A batch of any count writes into its `64 * CNT` bytes at DST only (R68, R233). -/
theorem sameOutside_batch (P : Params) (d : Direction) (s : State) :
    SameOutside s.dst (64 * s.cnt.toNat) s.mem (batch P d s).mem := by
  have hgroups := sameOutside_batchGroups d (s.cnt.toNat / 8) s
  rw [← batchGroups_dst d (s.cnt.toNat / 8) s] at hgroups
  have htail := sameOutside_batchTail P d (n := s.cnt.toNat % 8) hgroups
  have hsize : 512 * (s.cnt.toNat / 8) + 64 * (s.cnt.toNat % 8) = 64 * s.cnt.toNat := by omega
  rwa [hsize, batchGroups_dst] at htail

theorem sameOutside_batchCommand {d : Direction} {s t : State} (h : batchCommand d s = .next t) :
    SameOutside s.dst (64 * s.cnt.toNat) s.mem t.mem := by
  rcases batchCommand_cases d s with ⟨f, -, hb⟩ | ⟨-, -, hb⟩ | ⟨-, -, hb⟩
  · obtain rfl := Host.Outcome.next.inj (h.symm.trans hb)
    exact .refl _ _ _
  · cases h.symm.trans hb
  · obtain rfl := Host.Outcome.next.inj (h.symm.trans hb)
    exact sameOutside_batch _ d s

/-- A vector command leaves the memory of its effect, or memory as it was. -/
theorem sameOutside_vectorOp {s e : State} (u : Uses) {a : Addr} {n : Nat} (he : SameOutside a n s.mem e.mem) :
    SameOutside a n s.mem (s.vectorOp u e).mem := by
  rcases s.vectorOp_cases u e with ⟨f, -, h⟩ | ⟨-, h⟩
  · rw [h]; exact .refl _ _ _
  · rw [h]; exact he

theorem sameOutside_withOperand {α : Type} {s : State} (o : Option α) {e : α → State} {a : Addr} {n : Nat}
    (he : ∀ x, SameOutside a n s.mem (e x).mem) : SameOutside a n s.mem (s.withOperand o e).mem := by
  rcases s.withOperand_cases o e with ⟨-, h⟩ | ⟨x, -, h⟩
  · rw [h]; exact .refl _ _ _
  · rw [h]; exact he x

/-- Every command changes bytes of its output range only: the storing commands by what they store, the others by
leaving memory as it is (R62, R68). -/
theorem exec_sameOutside {i : Instr} {s t : State} (h : exec i s = .next t) :
    SameOutside s.dst (storeSize i s) s.mem t.mem := by
  cases i with
  | romrd x imm =>
    obtain rfl := Host.Outcome.next.inj h
    rw [storeSize_romrd]
    exact sameOutside_withOperand _ fun w => sameOutside_writeWord s.mem s.dst w
  | stblk =>
    obtain rfl := exec_next_unique h (exec_stblk s)
    rw [storeSize_stblk]
    exact sameOutside_storeBlock _ _ _
  | enc =>
    obtain rfl := exec_next_unique h (exec_enc s)
    rw [storeSize_enc]
    exact sameOutside_storeBlock _ _ _
  | dec =>
    obtain rfl := exec_next_unique h (exec_dec s)
    rw [storeSize_dec]
    exact sameOutside_storeBlock _ _ _
  | stsk =>
    obtain rfl := exec_next_unique h (exec_stsk s)
    rw [storeSize_stsk]
    exact sameOutside_storeSchedule _ _ _
  | vstraw =>
    obtain rfl := Host.Outcome.next.inj h
    rw [storeSize_vstraw]
    exact sameOutside_vectorOp _ (sameOutside_storeWide _ _ _)
  | vstore =>
    obtain rfl := Host.Outcome.next.inj h
    rw [storeSize_vstore]
    exact sameOutside_vectorOp _ (sameOutside_storeWide _ _ _)
  | benc => rw [storeSize_benc]; exact sameOutside_batchCommand (d := .encrypt) h
  | bdec => rw [storeSize_bdec]; exact sameOutside_batchCommand (d := .decrypt) h
  | _ =>
    have hmem : t.mem = s.mem := by
      rcases exec_next_cases h with ⟨f, rfl⟩ | ⟨-, rfl⟩ | ⟨e, he, rfl⟩
      · rfl
      · rw [latchCapability_eq]; rfl
      · rw [he]; rfl
    rw [hmem]; exact .refl _ _ _

/-- Settles O12, which is `exec_sameOutside` read at one address. -/
theorem memoryWrittenOnlyInOutputRange : Obligations.MemoryWrittenOnlyInOutputRange := by
  unfold Obligations.MemoryWrittenOnlyInOutputRange
  intro i s t h
  exact exec_sameOutside h

/-! ### Loads and stores of memories that agree on a range -/

/-- `m` and `m'` hold the same bytes at the `n` addresses from `a` up. -/
def AgreeOn (a : Addr) (n : Nat) (m m' : Memory) : Prop :=
  ∀ x : Addr, (x - a).toNat < n → m'.byteAt x = m.byteAt x

theorem AgreeOn.of_size_zero {a : Addr} {n : Nat} (m m' : Memory) (hn : n = 0) : AgreeOn a n m m' :=
  fun _ hx => absurd hx (by omega)

/-- Images of the range load the same from either memory. -/
theorem AgreeOn.loadMat_eq {a : Addr} {n : Nat} {m m' : Memory} (h : AgreeOn a n m m') {r c b : Nat}
    (hb : b + 4 * (r * c) ≤ n) :
    loadMat r c m' (a + BitVec.ofNat 32 b) = loadMat r c m (a + BitVec.ofNat 32 b) := by
  refine loadMat_congr r c m' m _ _ fun k hk => h _ ?_
  rw [addr_add_add, BitVec.add_comm, BitVec.add_sub_cancel, BitVec.toNat_ofNat]
  exact lt_of_le_of_lt (Nat.mod_le _ _) (by omega)

theorem AgreeOn.loadMat_start_eq {a : Addr} {n : Nat} {m m' : Memory} (h : AgreeOn a n m m') {r c : Nat}
    (hn : 4 * (r * c) ≤ n) : loadMat r c m' a = loadMat r c m a := by
  simpa using h.loadMat_eq (b := 0) (r := r) (c := c) (by omega)

theorem AgreeOn.loadSchedule_eq {a : Addr} {m m' : Memory} (h : AgreeOn a 1536 m m') :
    loadSchedule m' a = loadSchedule m a := by
  refine Vector.ext fun k hk => ?_
  rw [loadSchedule_getElem, loadSchedule_getElem]
  exact h.loadMat_eq (by omega)

theorem AgreeOn.loadBlock_eq {a : Addr} {m m' : Memory} (h : AgreeOn a 64 m m') : loadBlock m' a = loadBlock m a :=
  h.loadMat_start_eq (by decide)

theorem AgreeOn.loadKey_eq {a : Addr} {m m' : Memory} (h : AgreeOn a 32 m m') : loadMat 1 8 m' a = loadMat 1 8 m a :=
  h.loadMat_start_eq (by decide)

theorem AgreeOn.loadWide_eq {a : Addr} {m m' : Memory} (h : AgreeOn a 512 m m') :
    loadMat 16 8 m' a = loadMat 16 8 m a :=
  h.loadMat_start_eq (by decide)

/-- The same bytes written at the same place leave an address that agreed in agreement. -/
theorem byteAt_writeBytes_congr {m m' : Memory} {x : Addr} (a : Addr) (bs : List Byte)
    (h : m'.byteAt x = m.byteAt x) : (m'.writeBytes a bs).byteAt x = (m.writeBytes a bs).byteAt x := by
  induction bs generalizing m m' a with
  | nil => exact h
  | cons b bs ih =>
    refine ih (a + 1) ?_
    rw [Memory.byteAt, Memory.byteAt, Memory.read_write, Memory.read_write]
    exact if_congr Iff.rfl rfl h

/-- The bytes written are the same whatever memory they are written into. -/
theorem agreeOn_writeBytes (m m' : Memory) (a : Addr) (bs : List Byte) (hn : bs.length ≤ 2 ^ 32) :
    AgreeOn a bs.length (m.writeBytes a bs) (m'.writeBytes a bs) := fun x hx => by
  rw [Memory.byteAt_writeBytes bs m' a x hn, Memory.byteAt_writeBytes bs m a x hn, dif_pos hx, dif_pos hx]

theorem agreeOn_storeMat {r c : Nat} (m m' : Memory) (a : Addr) (X : Mat r c) (hn : 4 * (r * c) ≤ 2 ^ 32) :
    AgreeOn a (4 * (r * c)) (storeMat m a X) (storeMat m' a X) := by
  have h := agreeOn_writeBytes m m' a (matBytes X) (by rwa [length_matBytes])
  rwa [length_matBytes] at h

theorem agreeOn_storeBlock (m m' : Memory) (a : Addr) (X : Block) :
    AgreeOn a 64 (storeMat m a X) (storeMat m' a X) := agreeOn_storeMat m m' a X (by decide)

theorem agreeOn_storeWide (m m' : Memory) (a : Addr) (V : WideFile) :
    AgreeOn a 512 (storeMat m a V) (storeMat m' a V) := agreeOn_storeMat m m' a V (by decide)

theorem agreeOn_writeWord (m m' : Memory) (a : Addr) (w : Word) :
    AgreeOn a 4 (m.writeWord a w) (m'.writeWord a w) := agreeOn_writeBytes m m' a (bytes4 w) (by simp [bytes4])

theorem agreeOn_storeSchedule (m m' : Memory) (a : Addr) (ks : Schedule) :
    AgreeOn a 1536 (storeSchedule m a ks) (storeSchedule m' a ks) := fun x hx => by
  rw [byteAt_storeSchedule, byteAt_storeSchedule, if_pos hx, if_pos hx]

/-- A store of the same image keeps what agreed, wherever it goes. -/
theorem AgreeOn.storeMat {r c n : Nat} {m m' : Memory} {a : Addr} (h : AgreeOn a n m m') (b : Addr) (X : Mat r c) :
    AgreeOn a n (storeMat m b X) (storeMat m' b X) :=
  fun x hx => byteAt_writeBytes_congr b (matBytes X) (h x hx)

/-- A store of the same image right after the range lengthens what agrees. -/
theorem AgreeOn.append_storeMat {r c n : Nat} {m m' : Memory} {a : Addr} (h : AgreeOn a n m m') (X : Mat r c)
    (hn : 4 * (r * c) ≤ 2 ^ 32) :
    AgreeOn a (n + 4 * (r * c)) (Machine.storeMat m (a + BitVec.ofNat 32 n) X)
      (Machine.storeMat m' (a + BitVec.ofNat 32 n) X) := fun x hx => by
  by_cases hlt : (x - a).toNat < n
  · exact h.storeMat _ X x hlt
  · have hplace := addr_sub_add x a (b := n) (by omega)
    exact agreeOn_storeMat m m' _ X hn x (by omega)

/-! ### Commands on another memory -/

/-- The state with another memory. -/
def State.withMem (s : State) (m : Memory) : State := { s with mem := m }

/-- `t'` is `t` but for memory, and unless the command failed both hold the same `n` bytes from `a` up. -/
structure Alike (a : Addr) (n : Nat) (t t' : State) : Prop where
  frame : t' = t.withMem t'.mem
  output : t.res = 0 → AgreeOn a n t.mem t'.mem

/-- Two answers are alike: the same refusal, or next states that are. -/
inductive AlikeOutcomes (a : Addr) (n : Nat) :
    Host.Outcome State Fault Refusal → Host.Outcome State Fault Refusal → Prop
  | next {t t' : State} (h : Alike a n t t') : AlikeOutcomes a n (.next t) (.next t')
  | refused (r : Refusal) : AlikeOutcomes a n (.refused r) (.refused r)

section
variable {a : Addr} {n : Nat} (s : State) (m : Memory)

/-- Failures leave memory alone, and are no writes (R292). -/
theorem alike_fail (f : Failure) : Alike a n (s.fail f) ((s.withMem m).fail f) where
  frame := rfl
  output := fun h => absurd h (by cases f <;> simp [failureCode])

variable {s m}

theorem alike_succeed {e e' : State} (he : e' = e.withMem e'.mem) (ho : AgreeOn a n e.mem e'.mem) :
    Alike a n e.succeed e'.succeed where
  frame := congrArg State.succeed he
  output := fun _ => ho

/-- The check of R238 looks at no memory. -/
theorem vectorCheck_withMem (tag : Word) (u : Uses) : vectorCheck tag u (s.withMem m) = vectorCheck tag u s := rfl

theorem alike_withOperand {α : Type} (o : Option α) {e e' : α → State}
    (he : ∀ x, e' x = (e x).withMem (e' x).mem) (ho : ∀ x, AgreeOn a n (e x).mem (e' x).mem) :
    Alike a n (s.withOperand o e) ((s.withMem m).withOperand o e') := by
  cases o with
  | none => exact alike_fail s m .illegal
  | some x => exact alike_succeed (he x) (ho x)

theorem alike_vectorOp (u : Uses) {e e' : State} (he : e' = e.withMem e'.mem) (ho : AgreeOn a n e.mem e'.mem) :
    Alike a n (s.vectorOp u e) ((s.withMem m).vectorOp u e') := by
  rw [State.vectorOp, State.vectorOp, vectorCheck_withMem]
  cases vectorCheck Config.params.ctxTag u s with
  | none => exact alike_succeed he ho
  | some f => exact alike_fail s m f

theorem alike_vectorOpWith {α : Type} (o : Option α) {e e' : α → State}
    (he : ∀ x, e' x = (e x).withMem (e' x).mem) (ho : ∀ x, AgreeOn a n (e x).mem (e' x).mem) :
    Alike a n (s.vectorOpWith o e) ((s.withMem m).vectorOpWith o e') := by
  cases o with
  | none => exact alike_fail s m .illegal
  | some x => exact alike_vectorOp {} (he x) (ho x)

end

theorem latchCapability_withMem (s : State) (m : Memory) :
    latchCapability (s.withMem m) = (latchCapability s).withMem m := by
  rw [latchCapability_eq, latchCapability_eq]; rfl

/-- CTXINIT reads and writes no memory (R211). -/
theorem alike_ctxinit {a : Addr} {n : Nat} (s : State) (m : Memory) (hn : n = 0) :
    AlikeOutcomes a n (exec .ctxinit s) (exec .ctxinit (s.withMem m)) := by
  have hlatch := latchCapability_withMem s m
  cases hq : (latchCapability s).capQ with
  | false =>
    rw [exec_ctxinit_nocap s hq, exec_ctxinit_nocap (s.withMem m) (by rw [hlatch]; exact hq), hlatch]
    exact .next (alike_fail _ m .nocap)
  | true =>
    rw [exec_ctxinit s hq, exec_ctxinit (s.withMem m) (by rw [hlatch]; exact hq), hlatch]
    exact .next (alike_succeed rfl (.of_size_zero _ _ hn))

/-! ### Batches on another memory -/

/-- Between two blocks of a batch whose input range is `n` bytes, run on two memories: the states differ in memory
only, and the memories agree on the input range and on the `k` bytes of output written so far. -/
structure AlikeBatch (n k : Nat) (t t' : State) : Prop where
  frame : t' = t.withMem t'.mem
  input : AgreeOn t.src n t.mem t'.mem
  output : AgreeOn t.dst k t.mem t'.mem

section
variable {n : Nat} {t t' : State}

theorem alikeBatch_start {m : Memory} (h : AgreeOn t.src n t.mem m) : AlikeBatch n 0 t (t.withMem m) where
  frame := rfl
  input := h
  output := .of_size_zero _ _ rfl

/-- A group loads the same registers from both memories and stores the same image into both. -/
theorem AlikeBatch.group {g : Nat} (h : AlikeBatch n (512 * g) t t') (d : Direction) (hn : 512 * (g + 1) ≤ n) :
    AlikeBatch n (512 * (g + 1)) (batchGroup d g t) (batchGroup d g t') := by
  have hload := h.input.loadMat_eq (r := 16) (c := 8) (b := 512 * g) (by omega)
  obtain ⟨hframe, hin, hout⟩ := h
  generalize t'.mem = m at hframe hin hout hload
  subst hframe
  have hgroup : batchGroup d g (t.withMem m) = (batchGroup d g t).withMem
      (storeMat m (t.dst + BitVec.ofNat 32 (512 * g)) (batchGroup d g t).v) := by
    simp only [batchGroup, State.withMem, hload]
  rw [hgroup]
  exact ⟨rfl, hin.storeMat _ _, hout.append_storeMat (r := 16) (c := 8) _ (by decide)⟩

theorem AlikeBatch.tailBlock {g k : Nat} (h : AlikeBatch n (512 * g + 64 * k) t t') (P : Params) (d : Direction)
    (hn : 512 * g + 64 * (k + 1) ≤ n) :
    AlikeBatch n (512 * g + 64 * (k + 1)) (batchTailBlock P d g k t) (batchTailBlock P d g k t') := by
  have hload : loadBlock t'.mem (t.src + BitVec.ofNat 32 (512 * g + 64 * k)) =
      loadBlock t.mem (t.src + BitVec.ofNat 32 (512 * g + 64 * k)) := h.input.loadMat_eq (by omega)
  obtain ⟨hframe, hin, hout⟩ := h
  generalize t'.mem = m at hframe hin hout hload
  subst hframe
  have hblock : batchTailBlock P d g k (t.withMem m) = (batchTailBlock P d g k t).withMem
      (storeMat m (t.dst + BitVec.ofNat 32 (512 * g + 64 * k)) (batchTailBlock P d g k t).sReg) := by
    simp only [batchTailBlock, State.withMem, hload]
  rw [hblock]
  exact ⟨rfl, hin.storeMat _ _, hout.append_storeMat (r := 4) (c := 4) _ (by decide)⟩

theorem AlikeBatch.groups (h : AlikeBatch n 0 t t') (d : Direction) {g : Nat} (hn : 512 * g ≤ n) :
    AlikeBatch n (512 * g) (batchGroups d g t) (batchGroups d g t') := by
  induction g with
  | zero => exact h
  | succ g ih => exact (ih (by omega)).group d hn

theorem AlikeBatch.tail {g k : Nat} (h : AlikeBatch n (512 * g) t t') (P : Params) (d : Direction)
    (hn : 512 * g + 64 * k ≤ n) :
    AlikeBatch n (512 * g + 64 * k) (batchTail P d g k t) (batchTail P d g k t') := by
  induction k with
  | zero => exact h
  | succ k ih => exact (ih (by omega)).tailBlock P d hn

end

/-- A batch of any count reads its input range only, in place or not: what agrees on it at the start agrees on it
throughout, for both runs store the same images at the same places (R69, R233). -/
theorem alikeBatch_batch (P : Params) (d : Direction) {s : State} {m : Memory}
    (h : AgreeOn s.src (64 * s.cnt.toNat) s.mem m) :
    AlikeBatch (64 * s.cnt.toNat) (64 * s.cnt.toNat) (batch P d s) (batch P d (s.withMem m)) := by
  have hsize : 512 * (s.cnt.toNat / 8) + 64 * (s.cnt.toNat % 8) = 64 * s.cnt.toNat := by omega
  have hgroups := (alikeBatch_start h).groups d (g := s.cnt.toNat / 8) (by omega)
  have htail := hgroups.tail P d (k := s.cnt.toNat % 8) (by omega)
  rwa [hsize] at htail

theorem alike_batchCommand (d : Direction) {s : State} {m : Memory}
    (h : AgreeOn s.src (64 * s.cnt.toNat) s.mem m) :
    AlikeOutcomes s.dst (64 * s.cnt.toNat) (batchCommand d s) (batchCommand d (s.withMem m)) := by
  rcases batchCommand_cases d s with ⟨f, hf, hb⟩ | ⟨hc, hp, hb⟩ | ⟨hc, hp, hb⟩
  · have hb' : batchCommand d (s.withMem m) = .next ((s.withMem m).fail f) := by
      rw [batchCommand, vectorCheck_withMem, hf]
    rw [hb, hb']
    exact .next (alike_fail s m f)
  · rw [hb, batchCommand_of_overlap d (s := s.withMem m) hc hp]
    exact .refused _
  · rw [hb, next_batchCommand d (s.withMem m) hc hp]
    have hbatch := alikeBatch_batch Config.params d h
    have hdst : (batch Config.params d s).dst = s.dst := by rw [batch_frame]
    have hout := hbatch.output
    rw [hdst] at hout
    exact .next (alike_succeed hbatch.frame hout)

/-! ### Every command on another memory -/

/-- ENC and DEC take one block from the input range and put one into the output range (R69). -/
theorem alike_cipherCommand {f : Block → Block} {s : State} {m : Memory} (h : AgreeOn s.src 64 s.mem m) :
    AlikeOutcomes s.dst 64 (.next (cipherCommand f s).succeed) (.next (cipherCommand f (s.withMem m)).succeed) := by
  have hcipher : cipherCommand f (s.withMem m) =
      (cipherCommand f s).withMem (storeMat m s.dst (f (loadBlock s.mem s.src))) := by
    simp only [cipherCommand, State.withMem, h.loadBlock_eq]
  rw [hcipher]
  exact .next (alike_succeed rfl (agreeOn_storeBlock _ _ _ _))

/-- A command that stores nothing answers alike on two memories that agree on its input range: its checks and its
effect look at registers and, when it loads, at the bytes of that range (R68, R238). -/
theorem exec_alike_of_not_storing {i : Instr} {s : State} {m : Memory} (hi : i.mnemonic ∉ storingCommands)
    (h : AgreeOn s.src (loadSize i s) s.mem m) :
    AlikeOutcomes s.dst (storeSize i s) (exec i s) (exec i (s.withMem m)) := by
  have hn := storeSize_eq_zero hi s
  cases i with
  | nop | setsrc | setdst | setcnt | colmix | icolmix | shrows | ishrows | ksperm | kwipe | ctxclr =>
    exact .next (alike_succeed rfl (.of_size_zero _ _ hn))
  | mixg | mixh | mixk | imixg | imixh | imixk | subc | ark | fround | iround | ksprnd | kssqz =>
    exact .next (alike_withOperand _ (fun _ => rfl) fun _ => .of_size_zero _ _ hn)
  | ctxinit => exact alike_ctxinit s m hn
  | vxpose | vixpose | vcolmix | vicolmix | vshrows | vishrows | venc8 | vdec8 =>
    exact .next (alike_vectorOp _ rfl (.of_size_zero _ _ hn))
  | vsubc | vark | vfround | viround =>
    exact .next (alike_vectorOpWith _ (fun _ => rfl) fun _ => .of_size_zero _ _ hn)
  | ldblk =>
    rw [loadSize_ldblk] at h
    exact .next (alike_succeed (congrArg (fun X => ({ s with sReg := X, mem := m } : State)) h.loadBlock_eq)
      (.of_size_zero _ _ hn))
  | ksinit =>
    rw [loadSize_ksinit] at h
    exact .next (alike_succeed
      (congrArg (fun X => ({ s with kss := sponge0 Config.params X, mem := m } : State)) h.loadKey_eq)
      (.of_size_zero _ _ hn))
  | keysched =>
    rw [loadSize_keysched] at h
    exact .next (alike_succeed
      (congrArg (fun X => ({ s with sk := keySchedule Config.params X, kss := Mat.zero, mem := m } : State))
        h.loadKey_eq)
      (.of_size_zero _ _ hn))
  | ldsk =>
    rw [loadSize_ldsk] at h
    exact .next (alike_succeed (congrArg (fun ks => ({ s with sk := ks, mem := m } : State)) h.loadSchedule_eq)
      (.of_size_zero _ _ hn))
  | vldraw =>
    rw [loadSize_vldraw] at h
    exact .next (alike_vectorOp _ (congrArg (fun V => ({ s with v := V, mem := m } : State)) h.loadWide_eq)
      (.of_size_zero _ _ hn))
  | vload =>
    rw [loadSize_vload] at h
    exact .next (alike_vectorOp _ (congrArg (fun V => ({ s with v := transpose V, mem := m } : State)) h.loadWide_eq)
      (.of_size_zero _ _ hn))
  | _ => simp [Instr.mnemonic, storingCommands] at hi

/-- A storing command writes the same bytes into two memories that agree on its input range (R68, R69). -/
theorem exec_alike_of_storing {i : Instr} {s : State} {m : Memory} (hi : i.mnemonic ∈ storingCommands)
    (h : AgreeOn s.src (loadSize i s) s.mem m) :
    AlikeOutcomes s.dst (storeSize i s) (exec i s) (exec i (s.withMem m)) := by
  cases i with
  | romrd x imm =>
    rw [storeSize_romrd]
    exact .next (alike_withOperand _ (fun _ => rfl) fun w => agreeOn_writeWord s.mem m s.dst w)
  | stblk =>
    rw [storeSize_stblk]
    exact .next (alike_succeed rfl (agreeOn_storeBlock _ _ _ _))
  | stsk =>
    rw [storeSize_stsk]
    exact .next (alike_succeed rfl (agreeOn_storeSchedule _ _ _ _))
  | vstraw =>
    rw [storeSize_vstraw]
    exact .next (alike_vectorOp _ rfl (agreeOn_storeWide _ _ _ _))
  | vstore =>
    rw [storeSize_vstore]
    exact .next (alike_vectorOp _ rfl (agreeOn_storeWide _ _ _ _))
  | enc =>
    rw [loadSize_enc] at h
    rw [storeSize_enc]
    exact alike_cipherCommand h
  | dec =>
    rw [loadSize_dec] at h
    rw [storeSize_dec]
    exact alike_cipherCommand h
  | benc =>
    rw [loadSize_benc] at h
    rw [storeSize_benc]
    exact alike_batchCommand .encrypt h
  | bdec =>
    rw [loadSize_bdec] at h
    rw [storeSize_bdec]
    exact alike_batchCommand .decrypt h
  | _ => simp [Instr.mnemonic, storingCommands] at hi

theorem exec_alike {i : Instr} {s : State} {m : Memory} (h : AgreeOn s.src (loadSize i s) s.mem m) :
    AlikeOutcomes s.dst (storeSize i s) (exec i s) (exec i (s.withMem m)) := by
  by_cases hi : i.mnemonic ∈ storingCommands
  · exact exec_alike_of_storing hi h
  · exact exec_alike_of_not_storing hi h

/-- Settles O13: `exec_alike`, and `exec_sameOutside` for the bytes of the other memory outside the output range. -/
theorem memoryReadOnlyInInputRange : Obligations.MemoryReadOnlyInInputRange := by
  unfold Obligations.MemoryReadOnlyInInputRange
  intro i s t m ht h
  have halike : AlikeOutcomes s.dst (storeSize i s) (exec i s) (exec i (s.withMem m)) := exec_alike h
  rw [ht] at halike
  generalize ho : exec i (s.withMem m) = o at halike
  cases halike with
  | next hnext => exact ⟨_, ho, hnext.frame, hnext.output, exec_sameOutside ho⟩

end Sys2Proof.Machine
end

section
/-! The decoder against the encoder, the opcode map and the list of illegal words (30_encoding.md R90 to R96).
The commands fall into seven classes by the fields that carry an operand and the ranges of those operands;
what the decoder does with a word depends only on the class of its opcode. -/

namespace Sys2Proof

open Sys2Proof.Claims

/-! ### The word of a format -/

/-- The word that carries the operands a format uses and 0 in every other field (R91). -/
def Format.word (f : Format) (op a b : BitVec 8) (imm : Word) : Cmd :=
  match f with
  | .n => cmdWord op 0 0 0
  | .a => cmdWord op a 0 0
  | .ab => cmdWord op a b 0
  | .i => cmdWord op 0 0 imm
  | .ai => cmdWord op a 0 imm

theorem fieldZ_of_unusedFieldsZero {f : Format} {w : Cmd} (h : unusedFieldsZero f w = true) : fieldZ w = 0 := by
  simp only [unusedFieldsZero, Bool.and_eq_true, decide_eq_true_eq] at h
  exact h.1

/-- A word whose unused fields are 0 is the word its format makes of its fields (R91). -/
theorem Format.word_fields {f : Format} {w : Cmd} (h : unusedFieldsZero f w = true) :
    f.word (fieldOp w) (fieldA w) (fieldB w) (fieldImm w) = w := by
  have hword := cmdWord_fields w (fieldZ_of_unusedFieldsZero h)
  cases f <;> simp_all [unusedFieldsZero, Format.word]

/-! ### The seven classes of commands -/

/-- The operands of a command: which there are and their ranges (R91, R93). -/
inductive OperandClass where
  /-- no operand -/
  | none
  /-- any immediate -/
  | imm
  /-- a ROM table and an index into it -/
  | romWord
  /-- a column and the relabel flag -/
  | mixer
  /-- a round number -/
  | round
  /-- a subkey number or a squeeze step -/
  | upTo23
  /-- an internal round of the key schedule -/
  | internalRound
  deriving DecidableEq

namespace OperandClass

/-- The opcodes of the class, as the statement of R96 lists them. -/
def opcodes : OperandClass → List Nat
  | none => opsN
  | imm => opsI
  | romWord => [0x05]
  | mixer => opsMix
  | round => opsRound
  | upTo23 => ops24
  | internalRound => [0x31]

/-- The format of the class (R91, R94). -/
def format : OperandClass → Format
  | none => .n
  | imm => .i
  | romWord => .ai
  | mixer => .ab
  | round => .a
  | upTo23 => .a
  | internalRound => .a

/-- The operands in the fields are inside the ranges of the class (R93). -/
def legal (k : OperandClass) (a b : BitVec 8) (imm : Word) : Bool :=
  match k with
  | none => true
  | .imm => true
  | romWord => legalRomIndex a imm
  | mixer => legalColumn a && legalRelabel b
  | round => legalRound a
  | upTo23 => legalSubkey a
  | internalRound => legalInternalRound a

/-- The mask the opcode map prints for the class (R94). -/
def mask : OperandClass → Cmd
  | none => 0xFFFFFFFFFFFFFFFF
  | imm => 0xFFFFFFFF00000000
  | romWord => 0xFFFCFFFF00000000
  | mixer => 0xFFFCFEFFFFFFFFFF
  | round => 0xFFE0FFFFFFFFFFFF
  | upTo23 => 0xFFE0FFFFFFFFFFFF
  | internalRound => 0xFFF0FFFFFFFFFFFF

/-- The range condition the opcode map prints for the class (R94). -/
def condition : OperandClass → RangeCondition
  | romWord => .romIndex
  | round => .round
  | upTo23 => .upTo23
  | _ => .none

def all : List OperandClass := [none, imm, romWord, mixer, round, upTo23, internalRound]

theorem mem_all (k : OperandClass) : k ∈ all := by
  cases k <;> decide

/-- An opcode is in one class only. -/
theorem eq_of_mem_opcodes {k k' : OperandClass} {n : Nat} (h : n ∈ k.opcodes) (h' : n ∈ k'.opcodes) : k' = k := by
  have hdisjoint : ∀ k ∈ all, ∀ k' ∈ all, ∀ n ∈ k.opcodes, n ∈ k'.opcodes → k' = k := by decide
  exact hdisjoint k (mem_all k) k' (mem_all k') n h h'

theorem mem_opcodes_iff {k : OperandClass} {n : Nat} (h : n ∈ k.opcodes) (k' : OperandClass) :
    n ∈ k'.opcodes ↔ k' = k :=
  ⟨eq_of_mem_opcodes h, fun e => e ▸ h⟩

/-- The row of an opcode of the class: its format, its ranges, and the word of its command. -/
theorem rowOf_map {k : OperandClass} {op : BitVec 8} (h : op.toNat ∈ k.opcodes) (a b : BitVec 8) (imm : Word) :
    (rowOf op a b imm).map (fun p => (p.1, p.2.wellFormed, encode p.2)) =
      some (k.format, k.legal a b imm, k.format.word op a b imm) := by
  have hrows : k.opcodes.map (fun n => (rowOf (.ofNat 8 n) a b imm).map fun p => (p.1, p.2.wellFormed, encode p.2)) =
      k.opcodes.map fun n => some (k.format, k.legal a b imm, k.format.word (.ofNat 8 n) a b imm) := by
    cases k <;> rfl
  simpa using List.map_inj_left.1 hrows _ h

theorem exists_rowOf {k : OperandClass} {op : BitVec 8} (h : op.toNat ∈ k.opcodes) (a b : BitVec 8) (imm : Word) :
    ∃ i, rowOf op a b imm = some (k.format, i) ∧ i.wellFormed = k.legal a b imm ∧
      encode i = k.format.word op a b imm := by
  obtain ⟨⟨f, i⟩, hrow, hi⟩ := Option.map_eq_some_iff.1 (rowOf_map h a b imm)
  obtain ⟨rfl, hwf, henc⟩ : f = k.format ∧ _ := by simpa using hi
  exact ⟨i, hrow, hwf, henc⟩

/-- An opcode of no class is in no row (R94). -/
theorem rowOf_eq_none {op : BitVec 8} (h : ∀ k : OperandClass, op.toNat ∉ k.opcodes) (a b : BitVec 8) (imm : Word) :
    rowOf op a b imm = .none := by
  have hall : ∀ k ∈ all, op.toNat ∉ k.opcodes := fun k _ => h k
  unfold rowOf
  split
  case h_52 => rfl
  all_goals
    rename_i hop
    rw [hop] at hall
    exact absurd hall (by decide)

end OperandClass

/-! ### Decoding by class -/

/-- What the decoder accepts of the words with an opcode of a class (R95). -/
theorem decode_isOk_iff {w : Cmd} {k : OperandClass} (hk : (fieldOp w).toNat ∈ k.opcodes) :
    (∃ i, decode w = .ok i) ↔
      unusedFieldsZero k.format w = true ∧ k.legal (fieldA w) (fieldB w) (fieldImm w) = true := by
  obtain ⟨i, hrow, hwf, -⟩ := OperandClass.exists_rowOf hk (fieldA w) (fieldB w) (fieldImm w)
  rw [← hwf]
  constructor
  · rintro ⟨j, hj⟩
    obtain ⟨f, hsel, hunused, hlegal⟩ := (decode_eq_ok w j).1 hj
    obtain ⟨rfl, rfl⟩ : f = k.format ∧ j = i := by simpa using hsel.symm.trans hrow
    exact ⟨hunused, hlegal⟩
  · rintro ⟨hunused, hlegal⟩
    exact ⟨i, (decode_eq_ok w i).2 ⟨_, hrow, hunused, hlegal⟩⟩

/-- A decoded word has an opcode of some class. -/
theorem exists_class_of_decode {w : Cmd} {i : Instr} (h : decode w = .ok i) :
    ∃ k : OperandClass, (fieldOp w).toNat ∈ k.opcodes := by
  by_contra hno
  obtain ⟨f, hsel, -, -⟩ := (decode_eq_ok w i).1 h
  rw [selectRow, OperandClass.rowOf_eq_none (not_exists.1 hno)] at hsel
  cases hsel

/-! ### Decoding and encoding agree -/

/-- A decoded word is the encoding of its command. -/
theorem encode_of_decode {w : Cmd} {i : Instr} (h : decode w = .ok i) : encode i = w := by
  obtain ⟨k, hk⟩ := exists_class_of_decode h
  obtain ⟨f, hsel, hunused, -⟩ := (decode_eq_ok w i).1 h
  obtain ⟨j, hrow, -, henc⟩ := OperandClass.exists_rowOf hk (fieldA w) (fieldB w) (fieldImm w)
  obtain ⟨rfl, rfl⟩ : f = k.format ∧ i = j := by simpa using hsel.symm.trans hrow
  exact henc.trans (Format.word_fields hunused)

theorem decode_of_encode {w : Cmd} {i : Instr} (hw : i.wellFormed = true) (he : encode i = w) : decode w = .ok i :=
  he ▸ decode_encode hw

/-- Settles O1: from the word to the command by `encode_of_decode`, back by `decode_encode`. -/
theorem decodeEncodeAgree : Obligations.DecodeEncodeAgree := by
  unfold Obligations.DecodeEncodeAgree
  intro w i
  constructor
  · intro h
    obtain ⟨-, -, -, hw⟩ := (decode_eq_ok w i).1 h
    exact ⟨hw, encode_of_decode h⟩
  · rintro ⟨hw, he⟩
    exact decode_of_encode hw he

/-- Settles O4: the legal words are encodings of legal commands, the illegal ones are refused by evaluation. -/
theorem sampleWordsDecode : Obligations.SampleWordsDecode := by
  unfold Obligations.SampleWordsDecode
  refine ⟨?_, ?_, ?_, ?_, ?_, ?_, ?_, ?_, ?_, by decide, by decide, by decide⟩
  all_goals exact decode_of_encode rfl (by decide)

/-! ### The opcode map -/

/-- Two words with the same five fields are equal. -/
theorem eq_iff_fields (v w : Cmd) :
    v = w ↔ fieldOp v = fieldOp w ∧ fieldA v = fieldA w ∧ fieldB v = fieldB w ∧ fieldZ v = fieldZ w ∧
      fieldImm v = fieldImm w := by
  constructor
  · rintro rfl
    exact ⟨rfl, rfl, rfl, rfl, rfl⟩
  · simp only [fieldOp, fieldA, fieldB, fieldZ, fieldImm, ← BitVec.toNat_inj, field_toNat]
    omega

/-- Masking a word masks each field. -/
theorem and_eq_iff_fields (w m p : Cmd) :
    w &&& m = p ↔ fieldOp w &&& fieldOp m = fieldOp p ∧ fieldA w &&& fieldA m = fieldA p ∧
      fieldB w &&& fieldB m = fieldB p ∧ fieldZ w &&& fieldZ m = fieldZ p ∧
      fieldImm w &&& fieldImm m = fieldImm p := by
  rw [eq_iff_fields]
  simp only [fieldOp, fieldA, fieldB, fieldZ, fieldImm, BitVec.extractLsb'_and]

theorem byte_and_ones (a : BitVec 8) : a &&& 0xFF#8 = a := BitVec.and_allOnes

theorem word_and_ones (x : Word) : x &&& 0xFFFFFFFF#32 = x := BitVec.and_allOnes

/-- The ranges of R93 that a mask states in full. -/
theorem legalColumn_iff_masked (c : BitVec 8) : legalColumn c = true ↔ c &&& 0xFC#8 = 0#8 := by
  revert c; decide

theorem legalRelabel_iff_masked (w : BitVec 8) : legalRelabel w = true ↔ w &&& 0xFE#8 = 0#8 := by
  revert w; decide

theorem legalInternalRound_iff_masked (j : BitVec 8) : legalInternalRound j = true ↔ j &&& 0xF0#8 = 0#8 := by
  revert j; decide

/-- The ranges of R93 that a mask states in part, the range condition of the row being the rest. -/
theorem masked_of_legalRound {r : BitVec 8} : legalRound r = true → r &&& 0xE0#8 = 0#8 := by
  revert r; decide

theorem masked_of_le_23 {k : BitVec 8} : k.toNat ≤ 23 → k &&& 0xE0#8 = 0#8 := by
  revert k; decide

theorem masked_of_legalRomIndex {t : BitVec 8} {imm : Word} (h : legalRomIndex t imm = true) : t &&& 0xFC#8 = 0#8 := by
  have htable : ∀ t : BitVec 8, romLength t ≠ 0 → t &&& 0xFC#8 = 0#8 := by decide
  have hlt : imm.toNat < romLength t := of_decide_eq_true h
  exact htable t (by omega)

/-- Match, mask and condition of a class say the opcode, the zero fields and the ranges (R91, R93, R94). -/
theorem rowSelects_iff_of_class (m : String) (k : OperandClass) (op : BitVec 8) (w : Cmd) :
    rowSelects ⟨m, cmdWord op 0 0 0, k.mask, k.condition⟩ w = true ↔
      fieldOp w = op ∧ unusedFieldsZero k.format w = true ∧ k.legal (fieldA w) (fieldB w) (fieldImm w) = true := by
  simp only [rowSelects, Bool.and_eq_true, decide_eq_true_eq, and_eq_iff_fields, fieldOp_cmdWord, fieldA_cmdWord,
    fieldB_cmdWord, fieldZ_cmdWord, fieldImm_cmdWord, unusedFieldsZero]
  have hround := @masked_of_legalRound (fieldA w)
  have hupTo23 := @masked_of_le_23 (fieldA w)
  have hrom := @masked_of_legalRomIndex (fieldA w) (fieldImm w)
  cases k
  all_goals
    simp only [OperandClass.condition, OperandClass.format, OperandClass.legal, meetsCondition, Bool.and_eq_true,
      decide_eq_true_eq, legalSubkey, legalColumn_iff_masked, legalRelabel_iff_masked, legalInternalRound_iff_masked]
    generalize fieldOp w = o, fieldA w = a, fieldB w = b, fieldZ w = z, fieldImm w = x at *
    simp only [OperandClass.mask, fieldOp, fieldA, fieldB, fieldZ, fieldImm, BitVec.ofNat_eq_ofNat,
      BitVec.reduceExtractLsb', byte_and_ones, word_and_ones, BitVec.and_zero]
    tauto

/-- Each row of the opcode map has the mask and the condition of the class of its opcode. -/
theorem opcodeMap_row {row : OpcodeRow} (h : row ∈ opcodeMap) :
    ∃ k : OperandClass, (fieldOp row.pattern).toNat ∈ k.opcodes ∧
      row = ⟨row.mnemonic, cmdWord (fieldOp row.pattern) 0 0 0, k.mask, k.condition⟩ := by
  have hrows : ∀ row ∈ opcodeMap, ∃ k ∈ OperandClass.all, (fieldOp row.pattern).toNat ∈ k.opcodes ∧
      row = ⟨row.mnemonic, cmdWord (fieldOp row.pattern) 0 0 0, k.mask, k.condition⟩ := by decide +kernel
  obtain ⟨k, -, hk⟩ := hrows row h
  exact ⟨k, hk⟩

/-- Every opcode of a class has its row in the opcode map. -/
theorem exists_row_of_class {k : OperandClass} {op : BitVec 8} (h : op.toNat ∈ k.opcodes) :
    ∃ row ∈ opcodeMap, fieldOp row.pattern = op := by
  have hrows : ∀ k ∈ OperandClass.all, ∀ n ∈ k.opcodes, ∃ row ∈ opcodeMap, fieldOp row.pattern = .ofNat 8 n := by
    decide +kernel
  simpa using hrows k k.mem_all _ h

/-- The mnemonic of a row of the opcode map is that of the command the decoder reads from its opcode. -/
theorem mnemonic_of_rowOf {row : OpcodeRow} (h : row ∈ opcodeMap) {a b : BitVec 8} {imm : Word} {f : Format}
    {i : Instr} (hi : rowOf (fieldOp row.pattern) a b imm = some (f, i)) : i.mnemonic = row.mnemonic := by
  have hrows : opcodeMap.map (fun r => (rowOf (fieldOp r.pattern) a b imm).map fun p => p.2.mnemonic) =
      opcodeMap.map fun r => some r.mnemonic := by rfl
  simpa [hi] using List.map_inj_left.1 hrows row h

/-- A row selects the words of its opcode that the decoder accepts. -/
theorem rowSelects_iff {row : OpcodeRow} (h : row ∈ opcodeMap) (w : Cmd) :
    rowSelects row w = true ↔ fieldOp w = fieldOp row.pattern ∧ ∃ i, decode w = .ok i := by
  obtain ⟨k, hk, hrow⟩ := opcodeMap_row h
  rw [hrow, rowSelects_iff_of_class, fieldOp_cmdWord]
  refine and_congr_right fun hop => ?_
  rw [decode_isOk_iff (hop ▸ hk)]

theorem mnemonic_of_decode {row : OpcodeRow} (h : row ∈ opcodeMap) {w : Cmd} {i : Instr}
    (hop : fieldOp w = fieldOp row.pattern) (hi : decode w = .ok i) : i.mnemonic = row.mnemonic := by
  obtain ⟨f, hsel, -, -⟩ := (decode_eq_ok w i).1 hi
  rw [selectRow, hop] at hsel
  exact mnemonic_of_rowOf h hsel

/-- No two rows of the opcode map have the same opcode. -/
theorem row_eq_of_opcode_eq {row row' : OpcodeRow} (h : row ∈ opcodeMap) (h' : row' ∈ opcodeMap)
    (hop : fieldOp row.pattern = fieldOp row'.pattern) : row = row' := by
  have hnodup : (opcodeMap.map fun r => fieldOp r.pattern).Nodup := by decide +kernel
  exact List.inj_on_of_nodup_map hnodup h h' hop

/-- Settles O2: a row selects a word when the opcode is the row's and the word decodes (`rowSelects_iff`), and the
opcode fixes the row. -/
theorem decoderFollowsOpcodeMap : Obligations.DecoderFollowsOpcodeMap := by
  unfold Obligations.DecoderFollowsOpcodeMap
  intro w
  refine ⟨?_, ?_, ?_⟩
  · intro i hi
    obtain ⟨k, hk⟩ := exists_class_of_decode hi
    obtain ⟨row, hrow, hop⟩ := exists_row_of_class hk
    exact ⟨row, hrow, (mnemonic_of_decode hrow hop.symm hi).symm, (rowSelects_iff hrow w).2 ⟨hop.symm, i, hi⟩⟩
  · intro row hrow hsel
    obtain ⟨hop, i, hi⟩ := (rowSelects_iff hrow w).1 hsel
    exact ⟨i, hi, mnemonic_of_decode hrow hop hi⟩
  · intro row hrow row' hrow' hsel hsel'
    obtain ⟨hop, -⟩ := (rowSelects_iff hrow w).1 hsel
    obtain ⟨hop', -⟩ := (rowSelects_iff hrow' w).1 hsel'
    exact row_eq_of_opcode_eq hrow hrow' (hop.symm.trans hop')

/-! ### Illegal words -/

/-- The length of a ROM table, by either of its definitions (R30). -/
theorem romLength_eq (t : BitVec 8) : romLength t = tableLength t.toNat := by
  revert t
  decide +kernel

theorem tableLength_eq_zero {n : Nat} (h : 3 < n) : tableLength n = 0 := by
  unfold tableLength
  split_ifs <;> omega

/-- A word whose opcode is in no class is illegal by R96's first clause. -/
theorem illegalWord_of_no_class {w : Cmd} (h : ∀ k : OperandClass, (fieldOp w).toNat ∉ k.opcodes) : IllegalWord w :=
  .inl ⟨h .none, h .round, h .upTo23, h .mixer, h .imm, fun e => h .internalRound (List.mem_singleton.2 e),
    fun e => h .romWord (List.mem_singleton.2 e)⟩

/-- The lists of R96 that hold an opcode of a class. -/
theorem OperandClass.listed_iff {k : OperandClass} {n : Nat} (h : n ∈ k.opcodes) :
    (n ∈ opsN ↔ none = k) ∧ (n ∈ opsI ↔ imm = k) ∧ (n = 0x05 ↔ romWord = k) ∧ (n ∈ opsMix ↔ mixer = k) ∧
      (n ∈ opsRound ↔ round = k) ∧ (n ∈ ops24 ↔ upTo23 = k) ∧ (n = 0x31 ↔ internalRound = k) :=
  ⟨mem_opcodes_iff h none, mem_opcodes_iff h imm, List.mem_singleton.symm.trans (mem_opcodes_iff h romWord),
    mem_opcodes_iff h mixer, mem_opcodes_iff h round, mem_opcodes_iff h upTo23,
    List.mem_singleton.symm.trans (mem_opcodes_iff h internalRound)⟩

/-- The other clauses of R96 for a word with an opcode of a class. -/
theorem illegalWord_iff_of_class {w : Cmd} {k : OperandClass} (hk : (fieldOp w).toNat ∈ k.opcodes) :
    IllegalWord w ↔
      ¬ (unusedFieldsZero k.format w = true ∧ k.legal (fieldA w) (fieldB w) (fieldImm w) = true) := by
  obtain ⟨hN, hI, hRom, hMix, hRound, h24, hInternal⟩ := OperandClass.listed_iff (n := (w.extractLsb' 56 8).toNat) hk
  unfold IllegalWord unusedFieldsZero fieldA fieldB fieldZ fieldImm
  generalize w.extractLsb' 56 8 = op, w.extractLsb' 48 8 = a, w.extractLsb' 40 8 = b, w.extractLsb' 32 8 = z,
    w.extractLsb' 0 32 = x at *
  simp only [ne_eq, hN, hI, hRom, hMix, hRound, h24, hInternal]
  have htable := @tableLength_eq_zero a.toNat
  cases k
  all_goals
    simp only [reduceCtorEq, not_true_eq_false, not_false_eq_true, true_and, and_true, false_and, and_false, or_false,
      false_or, OperandClass.format, OperandClass.legal, legalRound, legalSubkey, legalColumn, legalRelabel,
      legalInternalRound, legalRomIndex, romLength_eq, Bool.and_eq_true, decide_eq_true_eq, ← BitVec.toNat_inj,
      BitVec.ofNat_eq_ofNat, BitVec.toNat_ofNat]
    omega

theorem illegalWord_iff (w : Cmd) : IllegalWord w ↔ ¬ ∃ i, decode w = .ok i := by
  by_cases h : ∃ k : OperandClass, (fieldOp w).toNat ∈ k.opcodes
  · obtain ⟨k, hk⟩ := h
    rw [illegalWord_iff_of_class hk, decode_isOk_iff hk]
  · exact iff_of_true (illegalWord_of_no_class (not_exists.1 h)) fun ⟨_, hi⟩ => h (exists_class_of_decode hi)

end Sys2Proof

namespace Sys2Proof.Machine

open Sys2Proof.Claims

/-- A fetched word that is no command fails E_ILLEGAL (R96). -/
theorem step_of_decode_error {s s' : State} {w : Cmd} {e : Illegal} (hf : fetch s = some (w, s'))
    (hd : decode w = .error e) : step s = .next (s'.fail .illegal) := by
  simp only [step, hf, hd]

/-- Settles O3: the illegal words are those that do not decode (`illegalWord_iff`). -/
theorem illegalWordFailsAndChangesNothingElse : Obligations.IllegalWordFailsAndChangesNothingElse := by
  unfold Obligations.IllegalWordFailsAndChangesNothingElse
  intro w ws s hp
  rw [illegalWord_iff]
  refine ⟨fun hno => ?_, not_not.1⟩
  obtain ⟨i, hi, -⟩ | ⟨e, he⟩ := decode_cases w
  · exact absurd ⟨i, hi⟩ hno
  · exact step_of_decode_error (fetch_of_pending_cons hp) he

end Sys2Proof.Machine
end

section
/-! The mixes and the commands that undo each other: every stage of the scalar engine has a two-sided inverse, so a
command followed by its partner leaves S as it was (40_arx_mixers.md R120 to R130, 41_scalar_round.md R141 to R148,
R162). -/

namespace Sys2Proof.Machine

open Function Sys2Proof.Claims

/-! ### The mixes against the listings -/

theorem mix_eq_mixListing (X : MixSet) (a b c d : Word) :
    mix X ⟨a, b, c, d⟩ =
      mixListing (rotation X 0) (rotation X 1) (rotation X 2) (rotation X 3) a b c d := rfl

theorem imix_eq_imixListing (X : MixSet) (a b c d : Word) :
    imix X ⟨a, b, c, d⟩ =
      imixListing (rotation X 0) (rotation X 1) (rotation X 2) (rotation X 3) a b c d := rfl

/-- Settles O24: the four stages of a mix are the listing's statements, at each set's rotation amounts. -/
theorem mixFunctionsFollowTheListings : Obligations.MixFunctionsFollowTheListings := by
  unfold Obligations.MixFunctionsFollowTheListings
  intro a b c d
  exact ⟨mix_eq_mixListing .g a b c d, mix_eq_mixListing .h a b c d, mix_eq_mixListing .k a b c d,
    imix_eq_imixListing .g a b c d, imix_eq_imixListing .h a b c d, imix_eq_imixListing .k a b c d⟩

/-! ### The stages of a mix and their inverses -/

section
variable {r : Nat} (hr : r ≤ 32)
include hr

/-- The rotation, the XOR and the addition of a stage are each undone (R122). -/
theorem unstageA_stageA : LeftInverse (unstageA r) (stageA r) := fun q => by
  simp [unstageA, stageA, rol_ror _ hr]

theorem stageA_unstageA : LeftInverse (stageA r) (unstageA r) := fun q => by
  simp [unstageA, stageA, ror_rol _ hr]

theorem unstageC_stageC : LeftInverse (unstageC r) (stageC r) := fun q => by
  simp [unstageC, stageC, rol_ror _ hr]

theorem stageC_unstageC : LeftInverse (stageC r) (unstageC r) := fun q => by
  simp [unstageC, stageC, ror_rol _ hr]

end

theorem rotation_le_32 (X : MixSet) (n : Fin 4) : rotation X n ≤ 32 :=
  (rotation_bounds X n).2.trans (by decide)

/-- The inverse mix takes the four stages back, the last one first (R122, R123). -/
theorem imix_mix (X : MixSet) : LeftInverse (imix X) (mix X) := fun q => by
  have h := rotation_le_32 X
  rw [imix, mix, unstageC_stageC (h 3), unstageA_stageA (h 2), unstageC_stageC (h 1), unstageA_stageA (h 0)]

theorem mix_imix (X : MixSet) : LeftInverse (mix X) (imix X) := fun q => by
  have h := rotation_le_32 X
  rw [mix, imix, stageA_unstageA (h 0), stageC_unstageC (h 1), stageA_unstageA (h 2), stageC_unstageC (h 3)]

/-- Settles O25: the two inverse laws are `imix_mix` and `mix_imix`, and a two-sided inverse makes a bijection. -/
theorem mixersInvertEachOther : Obligations.MixersInvertEachOther := by
  unfold Obligations.MixersInvertEachOther
  intro X
  exact ⟨imix_mix X, mix_imix X, bijective_iff_has_inverse.2 ⟨imix X, imix_mix X, mix_imix X⟩⟩

/-! ### The mixer commands -/

theorem mixOperands_columnNo_zero (c : Fin 4) : mixOperands (columnNo c) 0 = some (c, false) := by
  revert c; decide

theorem mixOperands_columnNo_one (c : Fin 4) : mixOperands (columnNo c) 1 = some (c, true) := by
  revert c; decide

/-- A mixer command with legal operands mixes its column of S with its function and ends with OK (R130). -/
theorem exec_of_mem_mixerCommands {p : (BitVec 8 → BitVec 8 → Instr) × (Quad → Quad)} (hp : p ∈ mixerCommands)
    {c w : BitVec 8} {n : Fin 4} {b : Bool} (h : mixOperands c w = some (n, b)) (s : State) :
    exec (p.1 c w) s = .next ({ s with sReg := mixColumn p.2 n b s.sReg } : State).succeed := by
  simp only [mixerCommands, List.mem_cons, List.not_mem_nil, or_false] at hp
  rcases hp with rfl | rfl | rfl | rfl | rfl | rfl
  · exact exec_mixg s h
  · exact exec_mixh s h
  · exact exec_mixk s h
  · exact exec_imixg s h
  · exact exec_imixh s h
  · exact exec_imixk s h

theorem mixColumn_word_of_ne (f : Quad → Quad) (w : Bool) (X : Block) {c j : Fin 4} (h : j ≠ c) (i : Fin 4) :
    (mixColumn f c w X).word i j = X.word i j := by
  rw [← quadAt_column, column_mixColumn_other f c j w X h, quadAt_column]

/-- With the flag set, the column read with row 2 playing `a` is `f` of what it was so read (R130). -/
theorem relabel_column_mixColumn (f : Quad → Quad) (c : Fin 4) (X : Block) :
    relabel (column (mixColumn f c true X) c) = f (relabel (column X c)) := by
  rw [column_mixColumn_same, relabelled, if_pos rfl, relabel_relabel]

/-- Settles O26: `exec_of_mem_mixerCommands` gives the next state, `column_mixColumn_same` and
`relabel_column_mixColumn` its mixed column in the roles of the two flags, `mixColumn_word_of_ne` the rest of S. -/
theorem mixerCommandsMixOneColumn : Obligations.MixerCommandsMixOneColumn := by
  unfold Obligations.MixerCommandsMixOneColumn
  intro p hp c s
  constructor
  · refine ⟨_, exec_of_mem_mixerCommands hp (mixOperands_columnNo_zero c) s, rfl, ?_, ?_⟩
    · exact column_mixColumn_same p.2 c false s.sReg
    · exact fun i j hj => mixColumn_word_of_ne p.2 false s.sReg hj i
  · refine ⟨_, exec_of_mem_mixerCommands hp (mixOperands_columnNo_one c) s, rfl, ?_, ?_⟩
    · exact relabel_column_mixColumn p.2 c s.sReg
    · exact fun i j hj => mixColumn_word_of_ne p.2 true s.sReg hj i

/-! ### The scalar stages and their inverses -/

section
variable {f g : Quad → Quad} (h : LeftInverse g f)
include h

/-- Relabelling before and after keeps an inverse an inverse (R130). -/
theorem relabelled_leftInverse (w : Bool) : LeftInverse (relabelled w g) (relabelled w f) := fun q => by
  cases w with
  | false => exact h q
  | true => simp only [relabelled, if_true, relabel_relabel, h (relabel q)]

theorem mixColumn_leftInverse (c : Fin 4) (w : Bool) : LeftInverse (mixColumn g c w) (mixColumn f c w) := fun X =>
  Mat.ext_column fun j => by
    by_cases hj : j = c
    · subst hj
      rw [column_mixColumn_same, column_mixColumn_same, relabelled_leftInverse h w]
    · rw [column_mixColumn_other g c j w _ hj, column_mixColumn_other f c j w X hj]

theorem mapColumns_leftInverse {c : Nat} :
    LeftInverse (mapColumns g : Mat 4 c → Mat 4 c) (mapColumns f) := fun X => by
  rw [mapColumns_comp]
  exact mapColumns_id _ X h

end

/-- The inverse column mix takes the four mixes of a column back in reverse order (R142). -/
theorem iColMix1_colMix1 : LeftInverse iColMix1 colMix1 := fun q => by
  rw [iColMix1, colMix1, relabelled_leftInverse (imix_mix .g) true, relabelled_leftInverse (imix_mix .h) true,
    imix_mix .h, imix_mix .g]

theorem colMix1_iColMix1 : LeftInverse colMix1 iColMix1 := fun q => by
  rw [colMix1, iColMix1, mix_imix .g, mix_imix .h, relabelled_leftInverse (mix_imix .h) true,
    relabelled_leftInverse (mix_imix .g) true]

theorem invColumnMix_columnMix : LeftInverse invColumnMix columnMix := mapColumns_leftInverse iColMix1_colMix1

theorem columnMix_invColumnMix : LeftInverse columnMix invColumnMix := mapColumns_leftInverse colMix1_iColMix1

theorem invShiftRows_shiftRows : LeftInverse invShiftRows shiftRows := fun X =>
  Mat.ext_word fun i j => by
    rw [invShiftRows_word, shiftRows_word]
    exact congrArg (X.word i) (Fin.ext (by dsimp only; omega))

theorem shiftRows_invShiftRows : LeftInverse shiftRows invShiftRows := fun X =>
  Mat.ext_word fun i j => by
    rw [shiftRows_word, invShiftRows_word]
    exact congrArg (X.word i) (Fin.ext (by dsimp only; omega))

/-- The inverse round takes the four stages of the round back in reverse order (R148). -/
theorem invRound_fwdRound (P : Params) (ks : Schedule) (r : Fin 22) :
    LeftInverse (invRound P ks r) (fwdRound P ks r) := fun X => by
  rw [invRound, fwdRound, addRoundKey_addRoundKey, invShiftRows_shiftRows, invColumnMix_columnMix,
    subConstants_subConstants]

theorem fwdRound_invRound (P : Params) (ks : Schedule) (r : Fin 22) :
    LeftInverse (fwdRound P ks r) (invRound P ks r) := fun X => by
  rw [fwdRound, invRound, subConstants_subConstants, columnMix_invColumnMix, shiftRows_invShiftRows,
    addRoundKey_addRoundKey]

/-! ### Commands that act on S alone -/

/-- The command completes in every state and replaces S by a function of S and the schedule SK. -/
def ActsOnS (i : Instr) (f : Schedule → Block → Block) : Prop :=
  ∀ s : State, exec i s = .next ({ s with sReg := f s.sk s.sReg } : State).succeed

/-- Two commands act on S by functions that, under any one schedule, are each other's inverse. -/
structure InverseOnS (i j : Instr) (f g : Schedule → Block → Block) : Prop where
  fst : ActsOnS i f
  snd : ActsOnS j g
  left : ∀ ks, LeftInverse (g ks) (f ks)
  right : ∀ ks, LeftInverse (f ks) (g ks)

section
variable {i j : Instr} {f g : Schedule → Block → Block}

theorem InverseOnS.symm (h : InverseOnS i j f g) : InverseOnS j i g f := ⟨h.snd, h.fst, h.right, h.left⟩

/-- The second command finds the schedule of the first, so it restores S. -/
theorem InverseOnS.runAll_eq (h : InverseOnS i j f g) (s : State) :
    runAll [i, j] s = .next { s with res := 0, pc := s.pc + 2 } := by
  rw [runAll_cons _ (h.fst s), runAll_single (h.snd _)]
  simp only [State.succeed, h.left s.sk s.sReg]

end

theorem subkeyOf_keyNo (k : Fin 24) : subkeyOf (keyNo k) = some k := by
  revert k; decide

/-- The commands of a set's mix and of its inverse, on one column with one flag. -/
theorem inverseOnS_mix (X : MixSet) {i j : Instr} {n : Fin 4} {b : Bool}
    (hi : ActsOnS i fun _ => mixColumn (mix X) n b) (hj : ActsOnS j fun _ => mixColumn (imix X) n b) :
    InverseOnS i j (fun _ => mixColumn (mix X) n b) (fun _ => mixColumn (imix X) n b) :=
  ⟨hi, hj, fun _ => mixColumn_leftInverse (imix_mix X) n b, fun _ => mixColumn_leftInverse (mix_imix X) n b⟩

theorem inverseOnS_colmix : InverseOnS .colmix .icolmix (fun _ => columnMix) (fun _ => invColumnMix) :=
  ⟨exec_colmix, exec_icolmix, fun _ => invColumnMix_columnMix, fun _ => columnMix_invColumnMix⟩

theorem inverseOnS_shrows : InverseOnS .shrows .ishrows (fun _ => shiftRows) (fun _ => invShiftRows) :=
  ⟨exec_shrows, exec_ishrows, fun _ => invShiftRows_shiftRows, fun _ => shiftRows_invShiftRows⟩

theorem inverseOnS_fround (r : Fin 22) : InverseOnS (.fround (roundNo r)) (.iround (roundNo r))
    (fun ks => fwdRound Config.params ks r) (fun ks => invRound Config.params ks r) :=
  ⟨fun s => exec_fround s (roundOf_roundNo r), fun s => exec_iround s (roundOf_roundNo r),
    fun ks => invRound_fwdRound Config.params ks r, fun ks => fwdRound_invRound Config.params ks r⟩

theorem inverseOnS_subc (r : Fin 22) : InverseOnS (.subc (roundNo r)) (.subc (roundNo r))
    (fun _ => subConstants Config.params r) (fun _ => subConstants Config.params r) :=
  have hexec s := exec_subc s (roundOf_roundNo r)
  have hself _ := subConstants_subConstants Config.params r
  ⟨hexec, hexec, hself, hself⟩

theorem inverseOnS_ark (k : Fin 24) : InverseOnS (.ark (keyNo k)) (.ark (keyNo k))
    (fun ks => addRoundKey ks k) (fun ks => addRoundKey ks k) :=
  have hexec s := exec_ark s (subkeyOf_keyNo k)
  have hself ks := addRoundKey_addRoundKey ks k
  ⟨hexec, hexec, hself, hself⟩

/-! ### The pairs of R162 -/

/-- The two commands are inverse to each other by some functions on S. -/
def UndoOnS (p : Instr × Instr) : Prop := ∃ f g, InverseOnS p.1 p.2 f g

theorem InverseOnS.undo {i j : Instr} {f g : Schedule → Block → Block} (h : InverseOnS i j f g) : UndoOnS (i, j) :=
  ⟨f, g, h⟩

theorem undoOnS_of_mem_mixerPairs {c w : BitVec 8} {n : Fin 4} {b : Bool} (h : mixOperands c w = some (n, b)) :
    ∀ p ∈ mixerPairs c w, UndoOnS p := by
  have hg := inverseOnS_mix .g (fun s => exec_mixg s h) (fun s => exec_imixg s h)
  have hh := inverseOnS_mix .h (fun s => exec_mixh s h) (fun s => exec_imixh s h)
  have hk := inverseOnS_mix .k (fun s => exec_mixk s h) (fun s => exec_imixk s h)
  simp only [mixerPairs, List.forall_mem_cons]
  exact ⟨hg.undo, hh.undo, hk.undo, hg.symm.undo, hh.symm.undo, hk.symm.undo, List.forall_mem_nil _⟩

theorem undoOnS_of_mem_roundPairs (r : Fin 22) : ∀ p ∈ roundPairs (roundNo r), UndoOnS p := by
  simp only [roundPairs, List.forall_mem_cons]
  exact ⟨(inverseOnS_fround r).undo, (inverseOnS_fround r).symm.undo, (inverseOnS_subc r).undo,
    List.forall_mem_nil _⟩

theorem undoOnS_of_mem_scalarInverses : ∀ p ∈ scalarInverses, UndoOnS p := by
  simp only [scalarInverses, List.forall_mem_append, List.forall_mem_cons, List.forall_mem_flatMap,
    List.forall_mem_map]
  refine ⟨⟨⟨fun c _ => ?_, ?_⟩, fun r _ => undoOnS_of_mem_roundPairs r⟩, fun k _ => (inverseOnS_ark k).undo⟩
  · exact ⟨undoOnS_of_mem_mixerPairs (mixOperands_columnNo_zero c),
      undoOnS_of_mem_mixerPairs (mixOperands_columnNo_one c)⟩
  · exact ⟨inverseOnS_colmix.undo, inverseOnS_colmix.symm.undo, inverseOnS_shrows.undo, inverseOnS_shrows.symm.undo,
      List.forall_mem_nil _⟩

/-- Settles O36: each pair of the list acts on S by inverse functions, so running it restores S. -/
theorem scalarInversesRestoreS : Obligations.ScalarInversesRestoreS := by
  unfold Obligations.ScalarInversesRestoreS
  intro p hp s
  obtain ⟨f, g, h⟩ := undoOnS_of_mem_scalarInverses p hp
  exact h.runAll_eq s

end Sys2Proof.Machine
end

section
/-! Runs of commands that act on S alone, and the scalar rounds and ciphers as runs of their stage commands
(41_scalar_round.md R140 to R162). -/

namespace Sys2Proof.Machine

open Function Sys2Proof.Claims

/-! ### Runs of commands that act on S -/

/-- The state after `n` commands have succeeded that left `X` in S and changed no other register; with no command
run, STATUS.RES is still as it was. -/
def State.afterOnS (s : State) (X : Block) (n : Nat) : State :=
  { s with sReg := X, res := if n = 0 then s.res else 0, pc := s.pc + n }

theorem State.afterOnS_afterOnS (s : State) (X Y : Block) (m n : Nat) :
    (s.afterOnS X m).afterOnS Y n = s.afterOnS Y (m + n) := by
  have hres : (if n = 0 then (if m = 0 then s.res else 0) else 0) = if m + n = 0 then s.res else 0 := by
    rw [← ite_and]
    simp only [Nat.add_eq_zero_iff, and_comm]
  simp only [State.afterOnS, hres, Nat.add_assoc]

/-- The list of commands completes in every state and replaces S by a function of S and the schedule SK. -/
def RunsOnS (is : List Instr) (f : Schedule → Block → Block) : Prop :=
  ∀ s : State, runAll is s = .next (s.afterOnS (f s.sk s.sReg) is.length)

theorem RunsOnS.nil : RunsOnS [] fun _ X => X := fun _ => rfl

theorem ActsOnS.run {i : Instr} {f : Schedule → Block → Block} (h : ActsOnS i f) : RunsOnS [i] f :=
  fun s => runAll_single (h s)

/-- No command of a run writes SK, so the second part finds the schedule of the first. -/
theorem RunsOnS.append {as bs : List Instr} {f g : Schedule → Block → Block} (hf : RunsOnS as f)
    (hg : RunsOnS bs g) : RunsOnS (as ++ bs) fun ks X => g ks (f ks X) := fun s => by
  rw [runAll_append as bs (hf s), hg, State.afterOnS_afterOnS, List.length_append]
  rfl

theorem ActsOnS.cons {i : Instr} {is : List Instr} {f g : Schedule → Block → Block} (hf : ActsOnS i f)
    (hg : RunsOnS is g) : RunsOnS (i :: is) fun ks X => g ks (f ks X) :=
  hf.run.append hg

/-- One run for each element of a list, in its order, folds their functions over the list. -/
theorem RunsOnS.flatMap {α : Type} {c : α → List Instr} {F : α → Schedule → Block → Block}
    (h : ∀ r, RunsOnS (c r) (F r)) (l : List α) :
    RunsOnS (l.flatMap c) fun ks X => l.foldl (fun Y r => F r ks Y) X := by
  induction l with
  | nil => exact .nil
  | cons r l ih => exact (h r).append ih

theorem RunsOnS.map {α : Type} {c : α → Instr} {F : α → Schedule → Block → Block}
    (h : ∀ r, ActsOnS (c r) (F r)) (l : List α) :
    RunsOnS (l.map c) fun ks X => l.foldl (fun Y r => F r ks Y) X := by
  rw [List.map_eq_flatMap]
  exact .flatMap (fun r => (h r).run) l

/-- A command and a run of `n + 1` commands that act on S by one function end in states that differ in pc only. -/
theorem RunsOnS.exec_eq {is : List Instr} {i : Instr} {f : Schedule → Block → Block} (h : RunsOnS is f)
    (hi : ActsOnS i f) (s : State) {n : Nat} (hn : is.length = n + 1) :
    ∃ t, runAll is s = .next t ∧ t = { s with sReg := t.sReg, res := 0, pc := s.pc + (n + 1) } ∧
      exec i s = .next { t with pc := s.pc + 1 } :=
  ⟨s.afterOnS (f s.sk s.sReg) (n + 1), hn ▸ h s, rfl, hi s⟩

/-! ### The XOR stages -/

theorem actsOnS_subc (r : Fin 22) : ActsOnS (.subc (roundNo r)) fun _ => subConstants Config.params r :=
  (inverseOnS_subc r).fst

theorem actsOnS_ark (k : Fin 24) : ActsOnS (.ark (keyNo k)) fun ks => addRoundKey ks k :=
  (inverseOnS_ark k).fst

/-- Settles O27: both commands leave the XOR of S with a matrix, which `matXor_word` reads word by word. -/
theorem subcAndArkXorTheState : Obligations.SubcAndArkXorTheState := by
  unfold Obligations.SubcAndArkXorTheState
  intro s
  constructor
  · intro r
    refine ⟨_, actsOnS_subc r s, rfl, fun i j => ?_⟩
    simp only [State.succeed_sReg, subConstants, matXor_word, roundChunk_word]
    rfl
  · intro k
    refine ⟨_, actsOnS_ark k s, rfl, fun i j => ?_⟩
    simp only [State.succeed_sReg, addRoundKey, matXor_word]

/-! ### The column mixes as mixer commands -/

/-- `F` applied to one column. -/
def onColumn (F : Quad → Quad) (c : Fin 4) (X : Block) : Block := setColumn X c (F (column X c))

theorem column_onColumn (F : Quad → Quad) (c j : Fin 4) (X : Block) :
    column (onColumn F c X) j = if j = c then F (column X j) else column X j := by
  split
  case isTrue h => subst h; exact column_setColumn_same X j _
  case isFalse h => exact column_setColumn_other X c j _ h

theorem onColumn_onColumn (F G : Quad → Quad) (c : Fin 4) (X : Block) :
    onColumn G c (onColumn F c X) = onColumn (fun q => G (F q)) c X :=
  Mat.ext_column fun j => by
    simp only [column_onColumn]
    split <;> rfl

/-- A loop over distinct columns has applied `F` to each of them once. -/
theorem column_foldl_onColumn (F : Quad → Quad) {l : List (Fin 4)} (hl : l.Nodup) (X : Block) (j : Fin 4) :
    column (l.foldl (fun Y c => onColumn F c Y) X) j = if j ∈ l then F (column X j) else column X j := by
  induction l generalizing X with
  | nil => rfl
  | cons c l ih =>
    obtain ⟨hc, hl⟩ := List.nodup_cons.1 hl
    rw [List.foldl_cons, ih hl, column_onColumn]
    by_cases hj : j = c
    · subst hj
      rw [if_neg hc, if_pos rfl, if_pos List.mem_cons_self]
    · simp only [List.mem_cons, hj, false_or, if_false]

/-- One after the other or all at once: the columns do not interact (R141). -/
theorem foldl_onColumn (F : Quad → Quad) (X : Block) :
    (List.finRange 4).foldl (fun Y c => onColumn F c Y) X = mapColumns F X :=
  Mat.ext_column fun j => by
    rw [column_foldl_onColumn F (List.nodup_finRange 4), if_pos (List.mem_finRange j), column_mapColumns]

/-- Runs that apply `F` to one column, for every column in turn, apply it to all columns. -/
theorem runsOnS_columns {is : Fin 4 → List Instr} {F : Quad → Quad}
    (h : ∀ c, RunsOnS (is c) fun _ => onColumn F c) :
    RunsOnS ((List.finRange 4).flatMap is) fun _ => mapColumns F := by
  have hrun := RunsOnS.flatMap h (List.finRange 4)
  simp only [foldl_onColumn] at hrun
  exact hrun

/-- A command on one column before a run on it. -/
theorem ActsOnS.cons_onColumn {i : Instr} {is : List Instr} {F G : Quad → Quad} {c : Fin 4}
    (hF : ActsOnS i fun _ => onColumn F c) (hG : RunsOnS is fun _ => onColumn G c) :
    RunsOnS (i :: is) fun _ => onColumn (fun q => G (F q)) c := by
  have hrun := hF.cons hG
  simp only [onColumn_onColumn] at hrun
  exact hrun

section
variable {i : BitVec 8 → BitVec 8 → Instr} {f : Quad → Quad} (h : (i, f) ∈ mixerCommands) (c : Fin 4)
include h

/-- A mixer command on column `c` (R130), by the definition of `mixColumn`. -/
theorem actsOnS_mixer_zero : ActsOnS (i (columnNo c) 0) fun _ => onColumn f c :=
  fun s => exec_of_mem_mixerCommands h (mixOperands_columnNo_zero c) s

/-- The same with the roles relabelled. -/
theorem actsOnS_mixer_one : ActsOnS (i (columnNo c) 1) fun _ => onColumn (relabelled true f) c :=
  fun s => exec_of_mem_mixerCommands h (mixOperands_columnNo_one c) s

end

/-- The four mixes of R141 on a column are, in their order, those of `colMix1`. -/
theorem runsOnS_columnMix :
    RunsOnS ((List.finRange 4).flatMap fun c =>
      [.mixg (columnNo c) 0, .mixh (columnNo c) 0, .mixh (columnNo c) 1, .mixg (columnNo c) 1])
      fun _ => columnMix := by
  have hg : (Instr.mixg, mix .g) ∈ mixerCommands := by simp [mixerCommands]
  have hh : (Instr.mixh, mix .h) ∈ mixerCommands := by simp [mixerCommands]
  refine runsOnS_columns (F := colMix1) fun c => ?_
  have hlast := (actsOnS_mixer_one hg c).run
  have hcolumn := (actsOnS_mixer_zero hg c).cons_onColumn <| (actsOnS_mixer_zero hh c).cons_onColumn <|
    (actsOnS_mixer_one hh c).cons_onColumn hlast
  exact hcolumn

/-- The four inverse mixes of R142 on a column are, in their order, those of `iColMix1`. -/
theorem runsOnS_invColumnMix :
    RunsOnS ((List.finRange 4).flatMap fun c =>
      [.imixg (columnNo c) 1, .imixh (columnNo c) 1, .imixh (columnNo c) 0, .imixg (columnNo c) 0])
      fun _ => invColumnMix := by
  have hg : (Instr.imixg, imix .g) ∈ mixerCommands := by simp [mixerCommands]
  have hh : (Instr.imixh, imix .h) ∈ mixerCommands := by simp [mixerCommands]
  refine runsOnS_columns (F := iColMix1) fun c => ?_
  have hlast := (actsOnS_mixer_zero hg c).run
  have hcolumn := (actsOnS_mixer_one hg c).cons_onColumn <| (actsOnS_mixer_one hh c).cons_onColumn <|
    (actsOnS_mixer_zero hh c).cons_onColumn hlast
  exact hcolumn

/-- Settles O28: the sixteen mixer commands and the column mix act on S by one function. -/
theorem columnMixEqualsMixerCommands : Obligations.ColumnMixEqualsMixerCommands := by
  unfold Obligations.ColumnMixEqualsMixerCommands
  intro s
  exact ⟨runsOnS_columnMix.exec_eq exec_colmix s rfl, runsOnS_invColumnMix.exec_eq exec_icolmix s rfl⟩

/-! ### The row rotations -/

/-- Row `i` rotated four times by `i` is where it was, as `4 * i` is 0 modulo 4 (R143). -/
theorem shiftRows_four (X : Block) : shiftRows (shiftRows (shiftRows (shiftRows X))) = X :=
  Mat.ext_word fun i j => by
    simp only [shiftRows_word]
    exact congrArg (X.word i) (Fin.ext (by dsimp only; omega))

theorem runsOnS_shrows_four : RunsOnS [.shrows, .shrows, .shrows, .shrows] fun _ X => X := by
  have hone : ActsOnS .shrows fun _ => shiftRows := exec_shrows
  have hfour := hone.cons (hone.cons (hone.cons hone.run))
  simp only [shiftRows_four] at hfour
  exact hfour

/-- Settles O29: the words of a rotation by `shiftRows_word` and `invShiftRows_word`, the four rotations by
`runsOnS_shrows_four`. -/
theorem shiftRowsMovesWords : Obligations.ShiftRowsMovesWords := by
  unfold Obligations.ShiftRowsMovesWords
  intro s
  refine ⟨⟨_, exec_shrows s, rfl, fun i j => ?_⟩, ⟨_, exec_ishrows s, rfl, fun i j => ?_⟩, ?_⟩
  · rw [State.succeed_sReg, shiftRows_word]
    rfl
  · have hcolumn : (j.val + 4 - i.val) % 4 = (j - i).val := by rw [Fin.sub_def]; dsimp only; omega
    rw [State.succeed_sReg, invShiftRows_word]
    exact congrArg (s.sReg.word i) (Fin.ext hcolumn)
  · exact runsOnS_shrows_four s

/-! ### The rounds as their stages -/

theorem actsOnS_ark_roundNo (r : Fin 22) :
    ActsOnS (.ark (roundNo r)) fun ks => addRoundKey ks (roundSubkey r) :=
  actsOnS_ark (roundSubkey r)

theorem runsOnS_fwdRound (r : Fin 22) :
    RunsOnS [.subc (roundNo r), .colmix, .shrows, .ark (roundNo r)] fun ks => fwdRound Config.params ks r :=
  have hcolmix : ActsOnS .colmix fun _ => columnMix := exec_colmix
  have hshrows : ActsOnS .shrows fun _ => shiftRows := exec_shrows
  (actsOnS_subc r).cons (hcolmix.cons (hshrows.cons (actsOnS_ark_roundNo r).run))

theorem runsOnS_invRound (r : Fin 22) :
    RunsOnS [.ark (roundNo r), .ishrows, .icolmix, .subc (roundNo r)] fun ks => invRound Config.params ks r :=
  have hishrows : ActsOnS .ishrows fun _ => invShiftRows := exec_ishrows
  have hicolmix : ActsOnS .icolmix fun _ => invColumnMix := exec_icolmix
  (actsOnS_ark_roundNo r).cons (hishrows.cons (hicolmix.cons (actsOnS_subc r).run))

/-- Settles O30: a round and its four stage commands act on S by one function. -/
theorem roundsEqualStageCommands : Obligations.RoundsEqualStageCommands := by
  unfold Obligations.RoundsEqualStageCommands
  intro s r
  exact ⟨(runsOnS_fwdRound r).exec_eq (inverseOnS_fround r).fst s rfl,
    (runsOnS_invRound r).exec_eq (inverseOnS_fround r).snd s rfl⟩

/-! ### The ciphers as their rounds -/

theorem runsOnS_encrypt :
    RunsOnS ([.ark 0] ++ froundsUp ++ [.ark 23]) fun ks => encrypt Config.params ks :=
  have hrounds : RunsOnS froundsUp fun ks => roundsUp (fwdRound Config.params ks) :=
    .map (fun r => (inverseOnS_fround r).fst) (List.finRange 22)
  ((actsOnS_ark 0).run.append hrounds).append (actsOnS_ark 23).run

theorem runsOnS_decrypt :
    RunsOnS ([.ark 23] ++ iroundsDown ++ [.ark 0]) fun ks => decrypt Config.params ks := by
  have hrounds : RunsOnS iroundsDown fun ks => roundsDown (invRound Config.params ks) := by
    have hdown := RunsOnS.map (fun r => (inverseOnS_fround r).snd) (List.finRange 22).reverse
    simp only [List.foldl_reverse] at hdown
    exact hdown
  exact ((actsOnS_ark 23).run.append hrounds).append (actsOnS_ark 0).run

/-- A run on S between LDBLK and STBLK does what a cipher command with the run's function does (R160). -/
theorem runAll_ldblk_stblk {is : List Instr} {f : Schedule → Block → Block} (h : RunsOnS is f) (s : State) :
    runAll (.ldblk :: (is ++ [.stblk])) s =
      .next { cipherCommand (f s.sk) s with res := 0, pc := s.pc + (is.length + 2) } := by
  have hpc : s.pc + 1 + is.length + 1 = s.pc + (is.length + 2) := by omega
  rw [runAll_cons _ (exec_ldblk s), runAll_append is _ (h _), runAll_single (exec_stblk _), ← hpc]
  rfl

/-- Settles O33: the commands between LDBLK and STBLK act on S by Encrypt, or by Decrypt. -/
theorem encAndDecEqualCommandSequences : Obligations.EncAndDecEqualCommandSequences := by
  unfold Obligations.EncAndDecEqualCommandSequences
  intro s
  exact ⟨⟨_, runAll_ldblk_stblk runsOnS_encrypt s, rfl, exec_enc s⟩,
    ⟨_, runAll_ldblk_stblk runsOnS_decrypt s, rfl, exec_dec s⟩⟩

/-! ### Encrypt and Decrypt undo each other -/

theorem decrypt_encrypt (P : Params) (ks : Schedule) : LeftInverse (decrypt P ks) (encrypt P ks) := fun X => by
  rw [decrypt, encrypt, addRoundKey_addRoundKey, roundsDown_roundsUp _ _ (invRound_fwdRound P ks),
    addRoundKey_addRoundKey]

theorem encrypt_decrypt (P : Params) (ks : Schedule) : LeftInverse (encrypt P ks) (decrypt P ks) := fun X => by
  rw [encrypt, decrypt, addRoundKey_addRoundKey, roundsUp_roundsDown _ _ (fwdRound_invRound P ks),
    addRoundKey_addRoundKey]

/-- Settles O34: each stage of one cipher is undone by the other's, in reverse order. -/
theorem decryptInvertsEncrypt : Obligations.DecryptInvertsEncrypt := by
  unfold Obligations.DecryptInvertsEncrypt
  exact fun P ks X => ⟨decrypt_encrypt P ks X, encrypt_decrypt P ks X⟩

/-! ### The laws of R162 -/

theorem wordByte_readWord (m : Memory) (a : Addr) {k : Nat} (hk : k < 4) :
    wordByte (m.readWord a) k = m.byteAt (offset a k) := by
  obtain ⟨h0, h1, h2, h3⟩ := wordByte_le32 (m.byteAt a) (m.byteAt (a + 1)) (m.byteAt (a + 2)) (m.byteAt (a + 3))
  match k, hk with
  | 0, _ => rw [offset, BitVec.add_zero]; exact h0
  | 1, _ => exact h1
  | 2, _ => exact h2
  | 3, _ => exact h3

/-- The image of a loaded block is the bytes it was loaded from (R67). -/
theorem blockByte_loadBlock (m : Memory) (a : Addr) (k : Fin 64) :
    blockByte (loadBlock m a) k = m.byteAt (offset a k.val) := by
  have hplace : 4 * (4 * (k.val / 16) + k.val % 16 / 4) + k.val % 4 = k.val := by omega
  rw [blockByte, loadBlock_word, wordByte_readWord _ _ (Nat.mod_lt _ (by decide)), offset, addr_add_add, hplace,
    offset]

/-- ENC and then DEC from ENC's output store the block ENC started from, whatever the three ranges share (R69). -/
theorem runAll_enc_dec (s : State) (out : Addr) :
    ∃ t, runAll [.enc, .setsrc s.dst, .setdst out, .dec] s = .next t ∧ t.res = 0 ∧
      ∃ m, t.mem = storeMat m out (loadBlock s.mem s.src) := by
  have hrun := (runAll_cons [.setsrc s.dst, .setdst out, .dec] (exec_enc s)).trans <|
    (runAll_cons _ (exec_setsrc _ s.dst)).trans <| (runAll_cons _ (exec_setdst _ out)).trans <|
    runAll_single (exec_dec _)
  have hround : decrypt Config.params s.sk (loadBlock (cipherCommand (encrypt Config.params s.sk) s).mem s.dst) =
      loadBlock s.mem s.src := by
    rw [cipherCommand, loadBlock_storeMat, decrypt_encrypt]
  exact ⟨_, hrun, rfl, (cipherCommand (encrypt Config.params s.sk) s).mem, congrArg (storeMat _ out) hround⟩

/-- R162 (1): DEC has stored the block of SRC, whose image is the bytes that stood there. -/
theorem roundTripsBlock (s : State) (out : Addr) : RoundTripsBlock s out := by
  obtain ⟨t, hrun, hres, m, hmem⟩ := runAll_enc_dec s out
  refine ⟨t, hrun, hres, fun k hk => ?_⟩
  rw [hmem]
  exact ((stores_storeMat m out _).1 ⟨k, hk⟩).trans (blockByte_loadBlock s.mem s.src ⟨k, hk⟩)

theorem InverseOnS.selfInverse {i : Instr} {f : Schedule → Block → Block} (h : InverseOnS i i f f) :
    SelfInverseOnS i := fun s => ⟨_, h.runAll_eq s, rfl⟩

/-- Settles O35: the round trip by `roundTripsBlock`, the XOR commands by their own inverse. -/
theorem roundTripAndSelfInverse : Obligations.RoundTripAndSelfInverse := by
  unfold Obligations.RoundTripAndSelfInverse
  exact ⟨roundTripsBlock, fun r => (inverseOnS_subc r).selfInverse, fun k => (inverseOnS_ark k).selfInverse⟩

end Sys2Proof.Machine
end

section
/-! The steps of the sponge as functions of KSS: the row step group by group, the internal rounds as bijections, and
the schedule the squeeze steps leave (42_key_schedule.md R182 to R185). -/

namespace Sys2Proof.Machine

open Function Sys2Proof.Claims

/-! ### The row step -/

/-- `f` on the two wrapped groups of every row: the row step with any function in the place of K (R182). -/
def mapRowGroups (f : Quad → Quad) (X : Mat 4 8) : Mat 4 8 :=
  Mat.ofFn fun i j =>
    let place := (j.val + 8 - i.val) % 8
    quadAt (f (rowGroup X i (4 * (place / 4)))) ⟨place % 4, Nat.mod_lt _ (by decide)⟩

theorem mixRowsK_eq_mapRowGroups : mixRowsK = mapRowGroups (mix .k) := rfl

theorem quadAt_rowGroup (X : Mat 4 8) (i : Fin 4) (g : Nat) (p : Fin 4) :
    quadAt (rowGroup X i g) p = X.word i (wrap8 i.val (g + p.val)) := by
  fin_cases p <;> rfl

/-- The two groups of a row do not meet, so each is the function of what it was. -/
theorem rowGroup_mapRowGroups (f : Quad → Quad) (X : Mat 4 8) (i : Fin 4) {g : Nat} (hg : g = 0 ∨ g = 4) :
    rowGroup (mapRowGroups f X) i g = f (rowGroup X i g) := quad_ext fun p => by
  have hplace : ((i.val + (g + p.val)) % 8 + 8 - i.val) % 8 = g + p.val := by omega
  have hgroup : 4 * ((g + p.val) / 4) = g := by omega
  have hpos : (g + p.val) % 4 = p.val := by omega
  simp only [quadAt_rowGroup, mapRowGroups, Mat.word_ofFn, wrap8, hplace, hgroup, hpos]

/-- The two groups of a row cover it. -/
theorem exists_wrap8_eq (i : Fin 4) (j : Fin 8) :
    ∃ (g : Nat) (p : Fin 4), (g = 0 ∨ g = 4) ∧ wrap8 i.val (g + p.val) = j :=
  ⟨4 * ((j.val + 8 - i.val) % 8 / 4), ⟨(j.val + 8 - i.val) % 4, by omega⟩, by omega,
    Fin.ext (by simp only [wrap8]; omega)⟩

/-- Two states with the same groups are equal. -/
theorem ext_rowGroup {X Y : Mat 4 8} (h : ∀ i g, g = 0 ∨ g = 4 → rowGroup X i g = rowGroup Y i g) : X = Y :=
  Mat.ext_word fun i j => by
    obtain ⟨g, p, hg, rfl⟩ := exists_wrap8_eq i j
    rw [← quadAt_rowGroup, ← quadAt_rowGroup, h i g hg]

theorem mapRowGroups_leftInverse {f g : Quad → Quad} (h : LeftInverse g f) :
    LeftInverse (mapRowGroups g) (mapRowGroups f) := fun X =>
  ext_rowGroup fun i n hn => by rw [rowGroup_mapRowGroups g _ i hn, rowGroup_mapRowGroups f X i hn, h]

/-! ### The permutation is a bijection -/

/-- Step (1) of internal round `n` taken back: its four constants subtracted from the diagonal elements. -/
def removeConstants (P : Params) (n : Fin 16) (X : Mat 4 8) : Mat 4 8 :=
  Mat.ofFn fun i j =>
    if j.val = i.val then X.word i j - P.romKsp ⟨4 * n.val + i.val, by omega⟩ else X.word i j

@[simp] theorem removeConstants_word (P : Params) (n : Fin 16) (X : Mat 4 8) (i : Fin 4) (j : Fin 8) :
    (removeConstants P n X).word i j =
      if j.val = i.val then X.word i j - P.romKsp ⟨4 * n.val + i.val, by omega⟩ else X.word i j := by
  simp [removeConstants]

theorem injectConstants_bijective (P : Params) (n : Fin 16) : Bijective (injectConstants P n) := by
  refine bijective_iff_has_inverse.2
    ⟨removeConstants P n, fun X => Mat.ext_word fun i j => ?_, fun X => Mat.ext_word fun i j => ?_⟩
  · rw [removeConstants_word, injectConstants_word]
    split
    · exact BitVec.add_sub_cancel _ _
    · rfl
  · rw [injectConstants_word, removeConstants_word]
    split
    · exact BitVec.sub_add_cancel _ _
    · rfl

theorem mixColumnsK_bijective : Bijective mixColumnsK :=
  bijective_iff_has_inverse.2
    ⟨mapColumns (imix .k), mapColumns_leftInverse (imix_mix .k), mapColumns_leftInverse (mix_imix .k)⟩

theorem mixRowsK_bijective : Bijective mixRowsK :=
  bijective_iff_has_inverse.2
    ⟨mapRowGroups (imix .k), mapRowGroups_leftInverse (imix_mix .k), mapRowGroups_leftInverse (mix_imix .k)⟩

theorem internalRound_bijective (P : Params) (n : Fin 16) : Bijective (internalRound P n) :=
  mixRowsK_bijective.comp (mixColumnsK_bijective.comp (injectConstants_bijective P n))

theorem foldl_bijective {α β : Type} {F : α → β → β} (h : ∀ x, Bijective (F x)) (l : List α) :
    Bijective fun y => l.foldl (fun z x => F x z) y := by
  induction l with
  | nil => exact bijective_id
  | cons x l ih => exact ih.comp (h x)

theorem permute_bijective (P : Params) : Bijective (permute P) :=
  foldl_bijective (internalRound_bijective P) (List.finRange 16)

/-! ### The squeeze steps -/

/-- What squeeze step 0..22 permutes: KSS with the counter added and the domain-separation chunk XORed (R184). -/
def squeezeInput (P : Params) (n : Fin 23) (X : Mat 4 8) : Mat 4 8 :=
  matXor (addCounter P (BitVec.ofNat 32 (n.val + 1)) X) (domainChunk P n)

theorem squeezeInput_word (P : Params) (n : Fin 23) (X : Mat 4 8) (i : Fin 4) (j : Fin 8) :
    (squeezeInput P n X).word i j =
      (X.word i j + if ∃ p, P.ctrPos p = (i, j) then BitVec.ofNat 32 (n.val + 1) else 0)
        ^^^ P.romKsd ⟨32 * n.val + 8 * i.val + j.val, by omega⟩ := by
  rw [squeezeInput, matXor_word, addCounter_word, domainChunk_word]
  split <;> simp

theorem squeezeNext_of_lt (P : Params) {n : Fin 24} (h : n.val < 23) (X : Mat 4 8) :
    squeezeNext P n X = permute P (squeezeInput P ⟨n.val, h⟩ X) := dif_pos h

theorem squeezeNext_last (P : Params) {n : Fin 24} (h : n.val = 23) (X : Mat 4 8) : squeezeNext P n X = X :=
  dif_neg (by omega)

/-- A subkey that some step writes, or that agrees to begin with, does not depend on the schedule before. -/
theorem foldl_squeezeStep_getElem (P : Params) (k : Fin 24) (l : List (Fin 24)) (ks ks' : Schedule) (X : Mat 4 8)
    (h : k ∈ l ∨ ks[k.val] = ks'[k.val]) :
    (l.foldl (fun p n => squeezeStep P n p) (ks, X)).1[k.val] =
      (l.foldl (fun p n => squeezeStep P n p) (ks', X)).1[k.val] := by
  induction l generalizing ks ks' X with
  | nil => exact h.resolve_left List.not_mem_nil
  | cons n l ih =>
    refine ih _ _ _ ?_
    by_cases hkn : k = n
    · subst hkn
      exact .inr (by simp only [Vector.getElem_set_self])
    · have hne : n.val ≠ k.val := fun e => hkn (Fin.ext e.symm)
      refine h.imp (fun hmem => (List.mem_cons.1 hmem).resolve_left hkn) fun hks => ?_
      simpa only [Vector.getElem_set_ne _ _ hne] using hks

/-- The 24 squeeze steps write every subkey, so from any schedule they leave that of the master key (R185). -/
theorem foldl_squeezeStep_eq_keySchedule (P : Params) (key : Mat 1 8) (ks : Schedule) :
    ((List.finRange 24).foldl (fun p n => squeezeStep P n p) (ks, permute P (sponge0 P key))).1 =
      keySchedule P key :=
  Vector.ext fun k hk => foldl_squeezeStep_getElem P ⟨k, hk⟩ _ ks _ _ (.inl (List.mem_finRange _))

end Sys2Proof.Machine
end

section
/-! The commands of the key schedule (42_key_schedule.md R181 to R189). -/

namespace Sys2Proof.Machine

open Sys2Proof.Claims

theorem internalRoundOf_innerNo (j : Fin 16) : internalRoundOf (innerNo j) = some j := by
  revert j; decide

theorem squeezeStepOf_keyNo (n : Fin 24) : squeezeStepOf (keyNo n) = some n := subkeyOf_keyNo n

/-! ### One step command -/

/-- Settles O37: row 0 through the words of the loaded key, rows 1 to 3 through `sponge0_word_const`. -/
theorem ksinitFillsTheState : Obligations.KsinitFillsTheState := by
  unfold Obligations.KsinitFillsTheState
  intro s
  refine ⟨_, exec_ksinit s, rfl, fun j => ?_, fun i j => ?_⟩
  · have haddr : 4 * (8 * (0 : Fin 1).val + j.val) = 4 * j.val := by simp
    rw [State.succeed_kss, sponge0_word_key, loadMat_word, haddr, Memory.readWord_toNat, offset]
  · exact sponge0_word_const Config.params _ i.succ j (Nat.succ_ne_zero i.val)

/-- Settles O38: the three steps are those of `internalRound`, the row step read group by group. -/
theorem ksprndRunsItsThreeSteps : Obligations.KsprndRunsItsThreeSteps := by
  unfold Obligations.KsprndRunsItsThreeSteps
  intro s n
  exact ⟨_, _, _, exec_ksprnd s (internalRoundOf_innerNo n), rfl, injectConstants_word Config.params n s.kss,
    column_mixColumnsK _, fun i _ hg => rowGroup_mapRowGroups (mix .k) _ i hg⟩

/-! ### Runs of commands that act on SK and KSS -/

/-- The state after `n` commands have succeeded that left `p` in SK and KSS and changed no other register; with no
command run, STATUS.RES is still as it was. -/
def State.afterOnKeys (s : State) (p : Schedule × Mat 4 8) (n : Nat) : State :=
  { s with sk := p.1, kss := p.2, res := if n = 0 then s.res else 0, pc := s.pc + n }

/-- The command completes in every state and replaces SK and KSS by a function of the two. -/
def ActsOnKeys (i : Instr) (f : Schedule × Mat 4 8 → Schedule × Mat 4 8) : Prop :=
  ∀ s : State, exec i s = .next (s.afterOnKeys (f (s.sk, s.kss)) 1)

/-- One command for each element of a list folds their functions over the list. -/
theorem runAll_map_of_actsOnKeys {α : Type} {c : α → Instr} {F : α → Schedule × Mat 4 8 → Schedule × Mat 4 8}
    (h : ∀ x, ActsOnKeys (c x) (F x)) (l : List α) (s : State) :
    runAll (l.map c) s = .next (s.afterOnKeys (l.foldl (fun p x => F x p) (s.sk, s.kss)) l.length) := by
  induction l generalizing s with
  | nil => rfl
  | cons x l ih =>
    rw [List.map_cons, runAll_cons _ (h x s), ih]
    have hpc : s.pc + 1 + l.length = s.pc + (l.length + 1) := by omega
    simp only [State.afterOnKeys, List.foldl_cons, List.length_cons, Nat.succ_ne_zero, if_false,
      ite_self, hpc]

theorem actsOnKeys_ksprnd (n : Fin 16) :
    ActsOnKeys (.ksprnd (innerNo n)) fun p => (p.1, internalRound Config.params n p.2) :=
  fun s => exec_ksprnd s (internalRoundOf_innerNo n)

theorem actsOnKeys_kssqz (n : Fin 24) : ActsOnKeys (.kssqz (keyNo n)) (squeezeStep Config.params n) :=
  fun s => exec_kssqz s (squeezeStepOf_keyNo n)

/-- The sixteen KSPRND commands run the permutation (R183). -/
theorem runAll_ksprnds (s : State) :
    runAll ksprnds s = .next { s with kss := permute Config.params s.kss, res := 0, pc := s.pc + 16 } := by
  have hfold : (List.finRange 16).foldl (fun p n => (p.1, internalRound Config.params n p.2)) (s.sk, s.kss) =
      (s.sk, permute Config.params s.kss) := List.foldl_hom (Prod.mk s.sk) fun _ _ => rfl
  rw [ksprnds, runAll_map_of_actsOnKeys actsOnKeys_ksprnd, hfold]
  rfl

/-- Settles O39: the sixteen commands by `runAll_ksprnds`, the bijection by that of each internal round. -/
theorem kspermIsSixteenRoundsAndBijective : Obligations.KspermIsSixteenRoundsAndBijective := by
  unfold Obligations.KspermIsSixteenRoundsAndBijective
  exact ⟨fun s => ⟨_, runAll_ksprnds s, rfl, exec_ksperm s⟩, permute_bijective⟩

/-- Settles O40: subkey `n` is the one place the copy writes, and the step before the last subkey permutes
`squeezeInput`. -/
theorem kssqzSqueezesOneSubkey : Obligations.KssqzSqueezesOneSubkey := by
  unfold Obligations.KssqzSqueezesOneSubkey
  intro s n
  refine ⟨_, exec_kssqz s (squeezeStepOf_keyNo n), rfl, fun i j => ?_, fun k hk => ?_,
    fun hlast => squeezeNext_last Config.params hlast s.kss,
    fun h => ⟨squeezeInput Config.params ⟨n.val, h⟩ s.kss, _, squeezeInput_word Config.params ⟨n.val, h⟩ s.kss,
      runAll_ksprnds _, squeezeNext_of_lt Config.params h s.kss⟩⟩
  · simp only [State.succeed_sk, Vector.getElem_set_self, squeezed_word]
    rfl
  · have hne : n.val ≠ k.val := fun e => hk (Fin.ext e.symm)
    simp only [State.succeed_sk, Vector.getElem_set_ne _ _ hne]

/-! ### The whole schedule -/

/-- Settles O41: the run folds `squeezeStep` from the state KSINIT and KSPERM leave, and its schedule does not depend
on the one before. -/
theorem keyschedEqualsStepCommands : Obligations.KeyschedEqualsStepCommands := by
  unfold Obligations.KeyschedEqualsStepCommands
  intro s
  have hrun := (runAll_cons (.ksperm :: kssqzs) (exec_ksinit s)).trans <|
    (runAll_cons kssqzs (exec_ksperm _)).trans (runAll_map_of_actsOnKeys actsOnKeys_kssqz (List.finRange 24) _)
  refine ⟨_, hrun, ?_⟩
  have hsk := foldl_squeezeStep_eq_keySchedule Config.params (loadMat 1 8 s.mem s.src) s.sk
  rw [exec_keysched, ← hsk]
  rfl

/-- Settles O42: KEYSCHED takes of the state only the key it loads. -/
theorem keyScheduleIsDeterministic : Obligations.KeyScheduleIsDeterministic := by
  unfold Obligations.KeyScheduleIsDeterministic
  intro s s' hbytes
  have hkey : loadMat 1 8 s.mem s.src = loadMat 1 8 s'.mem s'.src := loadMat_congr 1 8 _ _ _ _ hbytes
  exact ⟨_, _, exec_keysched s, exec_keysched s', congrArg (keySchedule Config.params) hkey, rfl⟩

/-! ### The subkey image -/

theorem getElem_matBytes_eq_blockByte (X : Block) (k : Fin 64) (h : k.val < (matBytes X).length) :
    (matBytes X)[k.val] = blockByte X k :=
  getElem_matBytes X ⟨k.val / 16, by omega⟩ ⟨k.val % 16 / 4, by omega⟩ (k.val % 4) (by omega) k.val
    (by simp only; omega) h

/-- Storing a schedule writes its image, byte by byte, and nothing else (R67, R189). -/
theorem stores_storeSchedule (m : Memory) (a : Addr) (ks : Schedule) :
    Stores m a 1536 (scheduleByte ks) (storeSchedule m a ks) := by
  refine ⟨fun k => ?_, sameOutside_storeSchedule m a ks⟩
  have hplace : (offset a k.val - a).toNat = k.val := addr_add_sub a k.val (by omega)
  have hkey : k.val / 64 % 24 = k.val / 64 := Nat.mod_eq_of_lt (by omega)
  rw [byteAt_storeSchedule, if_pos (by omega)]
  simp only [hplace, hkey]
  exact getElem_matBytes_eq_blockByte _ ⟨k.val % 64, by omega⟩ _

/-- STSK, SRC set to the same address, LDSK: the schedule that was stored comes back. -/
theorem runAll_stsk_ldsk (s : State) : ∃ t, runAll [.stsk, .setsrc s.dst, .ldsk] s = .next t ∧ t.sk = s.sk := by
  have hrun := (runAll_cons [.setsrc s.dst, .ldsk] (exec_stsk s)).trans <|
    (runAll_cons _ (exec_setsrc _ s.dst)).trans (runAll_single (exec_ldsk _))
  exact ⟨_, hrun, loadSchedule_storeSchedule s.mem s.dst s.sk⟩

/-- Settles O43: LDSK word by word through the words of a loaded block, STSK by `stores_storeSchedule`. -/
theorem scheduleWipeLoadAndStore : Obligations.ScheduleWipeLoadAndStore := by
  unfold Obligations.ScheduleWipeLoadAndStore
  intro s
  refine ⟨⟨_, exec_kwipe s, rfl, fun k i j => ?_⟩, ⟨_, exec_ldsk s, rfl, fun k i j => ?_⟩,
    ⟨_, exec_stsk s, rfl, stores_storeSchedule s.mem s.dst s.sk⟩, runAll_stsk_ldsk s⟩
  · rw [State.succeed_sk, Vector.getElem_replicate, Mat.word_zero]
  · have haddr : 64 * k.val + 4 * (4 * i.val + j.val) = 64 * k.val + 16 * i.val + 4 * j.val := by omega
    rw [State.succeed_sk, loadSchedule_getElem, loadBlock_word, addr_add_add, haddr, Memory.readWord_toNat, offset]

end Sys2Proof.Machine
end

section
/-! The code a command reports and the order of its causes, and the life of the context: what CTXINIT builds, and what
CTXCLR leaves until the next CTXINIT that succeeds (43_vector_batch.md R211, R212, R238, 60_exceptions.md R293 to
R300). -/

namespace Sys2Proof.Machine

open Sys2Proof.Claims

/-! ### The causes of a failure by mnemonic and by the checks of R238 -/

/-- The eighteen commands 0x42 to 0x53 are those with checks. -/
theorem mem_needContext_iff (i : Instr) : i.mnemonic ∈ needContext ↔ (vectorUses i).isSome = true := by
  cases i <;> simp [Instr.mnemonic, needContext, vectorUses]

/-- The operand registers a command uses, by mnemonic, are those its check looks at. -/
theorem lacksOperand_of_vectorUses {i : Instr} {u : Uses} (h : vectorUses i = some u) (s : State) :
    lacksOperand i s = nullOperand u s := by
  cases i with
  | vldraw | vload | vstraw | vstore | benc | bdec =>
    cases h; simp [lacksOperand, nullOperand, Instr.mnemonic, beq_eq_decide]
  | vxpose | vixpose | vsubc | vcolmix | vicolmix | vshrows | vishrows | vark | vfround | viround | venc8 | vdec8 =>
    cases h; simp [lacksOperand, nullOperand, Instr.mnemonic]
  | _ => cases h

/-- A command outside 0x42 to 0x53 uses none of the operand registers that are checked. -/
theorem lacksOperand_of_no_uses {i : Instr} (h : vectorUses i = none) (s : State) : lacksOperand i s = false := by
  cases i with
  | vldraw | vload | vstraw | vstore | benc | bdec => cases h
  | _ => simp [lacksOperand, Instr.mnemonic]

theorem resultCode_of_illFormed {i : Instr} (h : i.wellFormed = false) (s : State) : resultCode i s = 4 := if_pos h

/-- The null-operand causes gathered: after E_ILLEGAL comes E_PRECOND, then the context and the capability. -/
theorem resultCode_of_wellFormed {i : Instr} (h : i.wellFormed = true) (s : State) :
    resultCode i s =
      if lacksOperand i s then 1
      else if i.mnemonic ∈ needContext ∧ s.tag ≠ Config.ctxTag then 3
      else if i.mnemonic = "CTXINIT" ∧ (if s.capV then s.capQ else s.capUsable) = false then 2
      else 0 := by
  rw [resultCode, if_neg (by simp [h])]
  simp only [lacksOperand, Bool.or_eq_true, Bool.and_eq_true, decide_eq_true_eq, beq_iff_eq, ite_or]

/-- The code of a command of 0x42 to 0x53 is that of its check (R238). -/
theorem resultCode_of_vectorUses {i : Instr} (hw : i.wellFormed = true) {u : Uses} (hu : vectorUses i = some u)
    (s : State) : resultCode i s = ((vectorCheck Config.params.ctxTag u s).map failureCode).getD 0 := by
  have hmem : i.mnemonic ∈ needContext := (mem_needContext_iff i).2 (by rw [hu]; rfl)
  have hinit : i.mnemonic ≠ "CTXINIT" := fun h => by simp [h, needContext] at hmem
  have htag : Config.params.ctxTag = Config.ctxTag := rfl
  rw [resultCode_of_wellFormed hw, lacksOperand_of_vectorUses hu, vectorCheck, htag]
  simp only [hmem, hinit, true_and, false_and, if_false]
  split_ifs <;> rfl

/-- Of the other commands only CTXINIT can fail on a legal operand, with E_NOCAP (R297). -/
theorem resultCode_of_no_uses {i : Instr} (hw : i.wellFormed = true) (hu : vectorUses i = none) (s : State) :
    resultCode i s = if i = .ctxinit ∧ (latchCapability s).capQ = false then 2 else 0 := by
  have hmem : i.mnemonic ∉ needContext := fun h => by simp [mem_needContext_iff, hu] at h
  have hinit : i.mnemonic = "CTXINIT" ↔ i = .ctxinit := ⟨eq_ctxinit_of_mnemonic, fun h => by rw [h]; rfl⟩
  rw [resultCode_of_wellFormed hw, lacksOperand_of_no_uses hu, latchCapability_capQ]
  simp only [hmem, hinit, false_and, if_false, Bool.false_eq_true]

/-- However a command ends, its next state holds the code of R300's order. -/
theorem res_of_ends {i : Instr} {s t : State} (h : Ends s i (.next t)) : t.res = resultCode i s := by
  cases h with
  | illegal hw => rw [resultCode_of_illFormed hw]; rfl
  | check u f hw hu hf => rw [resultCode_of_vectorUses hw hu, hf]; rfl
  | nocap hi hq => subst hi; rw [resultCode_of_no_uses rfl rfl, if_pos ⟨rfl, hq⟩]; rfl
  | done e hw hc hp hq he =>
    cases hu : vectorUses i with
    | some u => rw [resultCode_of_vectorUses hw hu, hc u hu]; rfl
    | none =>
      rw [resultCode_of_no_uses hw hu, if_neg fun h => by simp [hq h.1] at h]; rfl

theorem exec_res {i : Instr} {s t : State} (h : exec i s = .next t) : t.res = resultCode i s :=
  res_of_ends (h ▸ exec_ends i s)

/-- A refused batch has passed its checks, so it has no cause of failure (R70, R238). -/
theorem resultCode_of_refused {i : Instr} {s : State} {r : Refusal} (h : exec i s = .refused r) :
    resultCode i s = 0 := by
  obtain ⟨-, rfl | rfl, hc, -⟩ := exec_refused_cases h
  · rw [resultCode_of_vectorUses rfl rfl, hc]; rfl
  · rw [resultCode_of_vectorUses rfl rfl, hc]; rfl

/-- Settles O10: the code by `exec_res`; a command that reports none of the codes is not the refused batch. -/
theorem failureCauseAndPriority : Obligations.FailureCauseAndPriority := by
  unfold Obligations.FailureCauseAndPriority
  intro i s
  refine ⟨fun t h => exec_res h, fun hcode => ?_⟩
  rcases exec_next_or_overlap i s with hnext | ⟨-, hrefused⟩
  · exact hnext
  · exact absurd (resultCode_of_refused hrefused) hcode

/-! ### CTXINIT -/

/-- Settles O44: the latched answer is `latchCapability_eq`'s, and the context built is that of SK. -/
theorem ctxinitBuildsTheContextOrFails : Obligations.CtxinitBuildsTheContextOrFails := by
  unfold Obligations.CtxinitBuildsTheContextOrFails
  intro s
  constructor
  · intro hcap
    have hexec := exec_ctxinit s ((latchCapability_capQ s).trans hcap)
    rw [latchCapability_eq, hcap] at hexec
    have hctx := contextOf_buildContext { s with capQ := true, capV := true }
    exact ⟨_, hexec, rfl, hctx.bk, hctx.brc, hctx.ck⟩
  · intro hcap
    have hexec := exec_ctxinit_nocap s ((latchCapability_capQ s).trans hcap)
    rw [latchCapability_eq, hcap] at hexec
    exact hexec

/-! ### CTXCLR and the commands after it -/

/-- The wide registers, the context and its tag are zero: what CTXCLR leaves (R212). -/
structure NoResidue (s : State) : Prop where
  v : ∀ (n : Fin 16) (l : Fin 8), s.v.word n l = 0
  context : ContextClear s
  tag : s.tag = 0

/-- No CTXINIT of the list can succeed from `s`: there is none, or the capability answer is "unusable" (R211). -/
def NoCtxinitSucceeds (is : List Instr) (s : State) : Prop :=
  .ctxinit ∉ is ∨ (latchCapability s).capQ = false

theorem noResidue_clearContext (s : State) : NoResidue (clearContext s).succeed where
  v _ _ := by simp [clearContext]
  context := have h := contextClear_clearContext s; ⟨h.bk, h.brc, h.ck⟩
  tag := rfl

/-- Zero is not `CTX_TAG`, so no check of R238 passes (R25, R298). -/
theorem NoResidue.vectorCheck_ne_none {s : State} (h : NoResidue s) (u : Uses) :
    vectorCheck Config.params.ctxTag u s ≠ none := fun hc => by
  obtain ⟨-, htag⟩ := (vectorCheck_eq_none _ _ _).1 hc
  exact Config.params.ctxTag_ne_zero (htag.symm.trans h.tag)

/-- So the refusal of a batch, which comes after the checks, does not occur. -/
theorem NoResidue.exists_next {s : State} (h : NoResidue s) (i : Instr) : ∃ t, exec i s = .next t := by
  rcases exec_next_or_overlap i s with hnext | ⟨-, hrefused⟩
  · exact hnext
  · obtain ⟨-, -, hc, -⟩ := exec_refused_cases hrefused
    exact absurd hc (h.vectorCheck_ne_none _)

theorem NoResidue.of_same {s t : State} (h : NoResidue s) (hv : t.v = s.v) (hc : SameContext s t) : NoResidue t where
  v := by rw [hv]; exact h.v
  context :=
    ⟨by rw [hc.bk]; exact h.context.bk, by rw [hc.brc]; exact h.context.brc, by rw [hc.ck]; exact h.context.ck⟩
  tag := hc.tag.trans h.tag

/-- The capability answer, once it is "unusable", stays so (R29). -/
theorem exec_keeps_unusable {i : Instr} {s t : State} (h : exec i s = .next t)
    (hq : (latchCapability s).capQ = false) : (latchCapability t).capQ = false := by
  rw [latchCapability_capQ] at hq ⊢
  by_cases hi : i = .ctxinit
  · subst hi
    obtain ⟨htq, htv⟩ := exec_ctxinit_caps h
    rw [htv, if_pos rfl, htq, hq]
  · obtain ⟨htq, htv⟩ := exec_keeps_caps h hi
    rw [htq, htv, (exec_next_host h).2, hq]

/-- A command of 0x42 to 0x53 fails without a valid context and changes nothing else (R298). -/
theorem NoResidue.vector_fails {i : Instr} {s t : State} (h : NoResidue s) (hi : i.mnemonic ∈ needContext)
    (ht : exec i s = .next t) : ∃ f, t = s.fail f := by
  obtain ⟨u, hu⟩ := Option.isSome_iff_exists.1 ((mem_needContext_iff i).1 hi)
  have hends := exec_ends i s
  rw [ht] at hends
  cases hends with
  | illegal hw => exact ⟨_, rfl⟩
  | check u' f hw hu' hf => exact ⟨f, rfl⟩
  | nocap hi' hq => subst hi'; cases hu
  | done e hw hc hp hq he => exact absurd (hc u hu) (h.vectorCheck_ne_none u)

theorem not_mem_writesV {i : Instr} (hi : i.mnemonic ∉ needContext) (hclr : i ≠ .ctxclr) : i.mnemonic ∉ writesV := by
  cases i <;> simp [Instr.mnemonic, needContext, writesV] at hi hclr ⊢

/-- A command other than CTXINIT leaves no residue where there was none: CTXCLR clears again, a command of 0x42 to
0x53 fails, and the others write neither V nor the context (R20, R212). -/
theorem NoResidue.exec_of_ne_ctxinit {i : Instr} {s t : State} (h : NoResidue s) (ht : exec i s = .next t)
    (hinit : i ≠ .ctxinit) : NoResidue t := by
  by_cases hclr : i = .ctxclr
  · subst hclr
    obtain rfl := exec_next_unique ht (exec_ctxclr s)
    exact noResidue_clearContext s
  refine h.of_same ?_ (exec_sameContext ht hinit hclr)
  by_cases hi : i.mnemonic ∈ needContext
  · obtain ⟨f, rfl⟩ := h.vector_fails hi ht
    rfl
  · exact not_not.1 (mt (exec_writesOnlyItsRegisters ht).v (not_mem_writesV hi hclr))

/-- A CTXINIT that fails for want of the capability leaves the context as it was (R211, R297). -/
theorem NoResidue.exec_ctxinit_nocap {s t : State} (h : NoResidue s) (ht : exec .ctxinit s = .next t)
    (hq : (latchCapability s).capQ = false) : NoResidue t := by
  obtain rfl := exec_next_unique ht (Machine.exec_ctxinit_nocap s hq)
  rw [latchCapability_eq]
  exact ⟨h.v, ⟨h.context.bk, h.context.brc, h.context.ck⟩, h.tag⟩

theorem NoResidue.exec {i : Instr} {is : List Instr} {s t : State} (h : NoResidue s)
    (hno : NoCtxinitSucceeds (i :: is) s) (ht : exec i s = .next t) : NoResidue t ∧ NoCtxinitSucceeds is t := by
  rcases hno with hno | hq
  · rw [List.mem_cons, not_or] at hno
    exact ⟨h.exec_of_ne_ctxinit ht (Ne.symm hno.1), .inl hno.2⟩
  · refine ⟨?_, .inr (exec_keeps_unusable ht hq)⟩
    by_cases hinit : i = .ctxinit
    · subst hinit; exact h.exec_ctxinit_nocap ht hq
    · exact h.exec_of_ne_ctxinit ht hinit

/-- As long as no CTXINIT succeeds, every run completes and leaves no residue. -/
theorem NoResidue.runAll {is : List Instr} {s : State} (h : NoResidue s) (hno : NoCtxinitSucceeds is s) :
    ∃ u, runAll is s = .next u ∧ NoResidue u := by
  induction is generalizing s with
  | nil => exact ⟨s, rfl, h⟩
  | cons i is ih =>
    obtain ⟨t, ht⟩ := h.exists_next i
    obtain ⟨h', hno'⟩ := h.exec hno ht
    rw [runAll_cons is ht]
    exact ih h' hno'

/-- The code of a command of 0x42 to 0x53 under the zero tag (R238, R300). -/
theorem NoResidue.resultCode {i : Instr} {s : State} (h : NoResidue s) (hi : i.mnemonic ∈ needContext) :
    resultCode i s = if i.wellFormed = false then 4 else if lacksOperand i s then 1 else 3 := by
  cases hw : i.wellFormed with
  | false => rw [resultCode_of_illFormed hw, if_pos rfl]
  | true =>
    have htag : s.tag ≠ Config.ctxTag := h.tag ▸ Config.ctxTag_ne_zero.symm
    rw [resultCode_of_wellFormed hw, if_pos (show _ ∧ _ from ⟨hi, htag⟩)]
    rfl

theorem NoResidue.vector_answer {i : Instr} {s : State} (h : NoResidue s) (hi : i.mnemonic ∈ needContext) :
    ∃ w, Machine.exec i s = .next w ∧ w = { s with res := w.res, errSeen := true, pc := s.pc + 1 } ∧
      w.res = if i.wellFormed = false then 4 else if lacksOperand i s then 1 else 3 := by
  obtain ⟨w, hexec⟩ := h.exists_next i
  obtain ⟨f, rfl⟩ := h.vector_fails hi hexec
  exact ⟨_, hexec, rfl, (exec_res hexec).trans (h.resultCode hi)⟩

/-- Settles O45: CTXCLR leaves no residue, every run keeps it so (`NoResidue.runAll`), and without a valid context the
commands of 0x42 to 0x53 fail (`NoResidue.vector_answer`). -/
theorem ctxclrLeavesNoResidue : Obligations.CtxclrLeavesNoResidue := by
  unfold Obligations.CtxclrLeavesNoResidue
  intro s
  have hclear := noResidue_clearContext s
  refine ⟨_, exec_ctxclr s, rfl, hclear.v, hclear.context, rfl, fun is hno => ?_⟩
  have hno' : NoCtxinitSucceeds is (clearContext s).succeed := by
    rw [NoCtxinitSucceeds, latchCapability_capQ]
    exact hno
  obtain ⟨u, hrun, hu⟩ := hclear.runAll hno'
  exact ⟨u, hrun, hu.v, hu.context, hu.tag, fun i hi => hu.vector_answer hi⟩

end Sys2Proof.Machine
end

section
/-! The transpose unit: the network, the two transposes as each other's inverse, the blocks in the lanes, and the
commands that move the wide registers (43_vector_batch.md R213 to R221). -/

namespace Sys2Proof.Machine

open Function Sys2Proof.Claims

/-! ### The network and the transposes -/

/-- The three levels of R215 together transpose the 8x8 matrix of lanes. -/
theorem xp8_getElem (A : Vector Wide 8) (m b : Fin 8) : ((xp8 A)[m.val])[b.val] = (A[b.val])[m.val] := by
  fin_cases m <;> fin_cases b <;> rfl

theorem xp8_xp8 : Involutive xp8 := fun A =>
  Vector.ext fun m hm => Vector.ext fun b hb =>
    (xp8_getElem (xp8 A) ⟨m, hm⟩ ⟨b, hb⟩).trans (xp8_getElem A ⟨b, hb⟩ ⟨m, hm⟩)

/-- Settles O47: word by word through `xp8_getElem`. -/
theorem networkTransposesTheLanes : Obligations.NetworkTransposesTheLanes := by
  unfold Obligations.NetworkTransposesTheLanes
  exact fun A => ⟨xp8_getElem A, xp8_xp8 A⟩

/-- Settles O48: the closed forms are `transpose_word` and `untranspose_word`. -/
theorem transposeCommandsHaveTheClosedForms : Obligations.TransposeCommandsHaveTheClosedForms := by
  unfold Obligations.TransposeCommandsHaveTheClosedForms
  intro s hvalid
  have hcheck := vectorCheck_of_contextValid hvalid
  exact ⟨⟨_, exec_vxpose s hcheck, rfl, transpose_word s.v⟩, ⟨_, exec_vixpose s hcheck, rfl, untranspose_word s.v⟩⟩

/-- Every register of the raw layout is half `h` of block `b` (R216). -/
theorem exists_rawIndex (n : Fin 16) : ∃ (b : Fin 8) (h : Fin 2), (⟨2 * b.val + h.val, by omega⟩ : Fin 16) = n :=
  ⟨⟨n.val / 2, by omega⟩, ⟨n.val % 2, by omega⟩, Fin.ext (by simp only; omega)⟩

/-- Every register of the transposed layout is word `m` of half `h` (R216). -/
theorem exists_laneIndex (n : Fin 16) : ∃ (h : Fin 2) (m : Fin 8), (⟨8 * h.val + m.val, by omega⟩ : Fin 16) = n :=
  ⟨⟨n.val / 8, by omega⟩, ⟨n.val % 8, by omega⟩, Fin.ext (by simp only; omega)⟩

theorem untranspose_transpose : LeftInverse untranspose transpose := fun V =>
  Mat.ext_word fun n m => by
    obtain ⟨b, h, rfl⟩ := exists_rawIndex n
    rw [untranspose_word, transpose_word]

theorem transpose_untranspose : LeftInverse transpose untranspose := fun V =>
  Mat.ext_word fun n b => by
    obtain ⟨h, m, rfl⟩ := exists_laneIndex n
    rw [transpose_word, untranspose_word]

/-- Lane `b` after the transpose holds the 16 consecutive words of raw block `b` (R218). -/
theorem laneM_transpose_word (V : WideFile) (b : Fin 8) (i j : Fin 4) :
    (laneM (transpose V) b).word i j =
      V.word ⟨2 * b.val + i.val / 2, by omega⟩ ⟨4 * (i.val % 2) + j.val, by omega⟩ := by
  have hword : wordNo i j = ⟨8 * (i.val / 2) + (4 * (i.val % 2) + j.val), by omega⟩ :=
    Fin.ext (by simp only [wordNo]; omega)
  rw [laneM_word, hword]
  exact transpose_word V ⟨i.val / 2, by omega⟩ ⟨4 * (i.val % 2) + j.val, by omega⟩ b

/-! ### The wide registers in memory -/

theorem laneM_transpose_loadMat (m : Memory) (a : Addr) (b : Fin 8) :
    laneM (transpose (loadMat 16 8 m a)) b = loadBlock m (offset a (64 * b.val)) :=
  Mat.ext_word fun i j => by
    have hplace : 4 * (8 * (2 * b.val + i.val / 2) + (4 * (i.val % 2) + j.val)) =
        64 * b.val + 4 * (4 * i.val + j.val) := by omega
    rw [laneM_transpose_word, loadMat_word, loadBlock_word, offset, addr_add_add, hplace]

/-- The raw image is that of the lanes' blocks, one after the other (R218, R219). -/
theorem wideByte_eq_blockByte (V : WideFile) (k : Fin 512) :
    wideByte V k = blockByte (laneM (transpose V) ⟨k.val / 64, by omega⟩) ⟨k.val % 64, by omega⟩ := by
  have hrow : 2 * (k.val / 64) + k.val % 64 / 16 / 2 = k.val / 32 := by omega
  have hlane : 4 * (k.val % 64 / 16 % 2) + k.val % 64 % 16 / 4 = k.val % 32 / 4 := by omega
  have hbyte : k.val % 64 % 4 = k.val % 4 := by omega
  simp only [wideByte, blockByte, laneM_transpose_word, hrow, hlane, hbyte]

/-- Storing the wide registers writes their image, byte by byte, and nothing else (R219). -/
theorem stores_storeWide (m : Memory) (a : Addr) (V : WideFile) : Stores m a 512 (wideByte V) (storeMat m a V) := by
  refine ⟨fun k => ?_, sameOutside_storeWide m a V⟩
  have hplace : 4 * (8 * (k.val / 32) + k.val % 32 / 4) + k.val % 4 = k.val := by omega
  have hbyte := byteAt_storeMat_word m a V (by decide) ⟨k.val / 32, by omega⟩ ⟨k.val % 32 / 4, by omega⟩
    (k.val % 4) (by omega)
  rwa [hplace] at hbyte

/-- Storing the lanes' blocks in the raw layout writes block `b` at 64 * b (R221). -/
theorem stores_storeWide_untranspose (m : Memory) (a : Addr) (V : WideFile) :
    Stores m a 512 (fun k => blockByte (laneM V ⟨k.val / 64, by omega⟩) ⟨k.val % 64, by omega⟩)
      (storeMat m a (untranspose V)) := by
  have hbytes : wideByte (untranspose V) =
      fun k => blockByte (laneM V ⟨k.val / 64, by omega⟩) ⟨k.val % 64, by omega⟩ :=
    funext fun k => by rw [wideByte_eq_blockByte, transpose_untranspose]
  exact hbytes ▸ stores_storeWide m a (untranspose V)

/-- The image of the loaded registers is the bytes they were loaded from. -/
theorem wideByte_loadMat (m : Memory) (a : Addr) (k : Fin 512) :
    wideByte (loadMat 16 8 m a) k = m.byteAt (offset a k.val) := by
  have hplace : 64 * (k.val / 64) + k.val % 64 = k.val := by omega
  rw [wideByte_eq_blockByte, laneM_transpose_loadMat, blockByte_loadBlock, offset, offset, addr_add_add, hplace, offset]

/-! ### The commands that move the wide registers -/

section
variable {s : State} (hvalid : ContextValid s)
include hvalid

theorem vectorCheck_src_of_contextValid (h : s.src ≠ 0) :
    vectorCheck Config.params.ctxTag { src := true } s = none :=
  vectorCheck_pass hvalid (fun _ => h) (by simp) (by simp)

theorem vectorCheck_dst_of_contextValid (h : s.dst ≠ 0) :
    vectorCheck Config.params.ctxTag { dst := true } s = none :=
  vectorCheck_pass hvalid (by simp) (fun _ => h) (by simp)

theorem runAll_vldraw_vxpose (h : s.src ≠ 0) :
    runAll [.vldraw, .vxpose] s =
      .next { s with v := transpose (loadMat 16 8 s.mem s.src), res := 0, pc := s.pc + 2 } :=
  (runAll_cons _ (exec_vldraw s (vectorCheck_src_of_contextValid hvalid h))).trans <|
    runAll_single (exec_vxpose _ (vectorCheck_of_contextValid hvalid))

theorem runAll_vixpose_vstraw (h : s.dst ≠ 0) :
    runAll [.vixpose, .vstraw] s =
      .next { s with
        v := untranspose s.v, mem := storeMat s.mem s.dst (untranspose s.v), res := 0, pc := s.pc + 2 } :=
  (runAll_cons _ (exec_vixpose s (vectorCheck_of_contextValid hvalid))).trans <|
    runAll_single (exec_vstraw _ (vectorCheck_dst_of_contextValid hvalid h))

theorem runAll_vldraw_vstraw (hsrc : s.src ≠ 0) (hdst : s.dst ≠ 0) :
    runAll [.vldraw, .vstraw] s =
      .next { s with
        v := loadMat 16 8 s.mem s.src, mem := storeMat s.mem s.dst (loadMat 16 8 s.mem s.src), res := 0,
        pc := s.pc + 2 } :=
  (runAll_cons _ (exec_vldraw s (vectorCheck_src_of_contextValid hvalid hsrc))).trans <|
    runAll_single (exec_vstraw _ (vectorCheck_dst_of_contextValid hvalid hdst))

end

/-- Settles O49: VLDRAW word by word through `loadMat_word`, VSTRAW by `stores_storeWide`, and both together through
`wideByte_loadMat`. -/
theorem rawLoadAndStore : Obligations.RawLoadAndStore := by
  unfold Obligations.RawLoadAndStore
  intro s hvalid
  refine ⟨fun hsrc => ?_, fun hdst => ?_, fun hsrc hdst => ?_⟩
  · refine ⟨_, exec_vldraw s (vectorCheck_src_of_contextValid hvalid hsrc), rfl, fun n l => ?_⟩
    have hplace : 4 * (8 * n.val + l.val) = 32 * n.val + 4 * l.val := by omega
    rw [State.succeed_v, loadMat_word, hplace, Memory.readWord_toNat, offset]
  · exact ⟨_, exec_vstraw s (vectorCheck_dst_of_contextValid hvalid hdst), rfl, stores_storeWide s.mem s.dst s.v⟩
  · refine ⟨_, runAll_vldraw_vstraw hvalid hsrc hdst, fun k hk => ?_⟩
    exact ((stores_storeWide s.mem s.dst _).1 ⟨k, hk⟩).trans (wideByte_loadMat s.mem s.src ⟨k, hk⟩)

/-- Settles O50: the lanes after VLOAD are the blocks by `laneM_transpose_loadMat`, the bytes VSTORE leaves by
`stores_storeWide_untranspose`. -/
theorem vectorLoadAndStoreBlocks : Obligations.VectorLoadAndStoreBlocks := by
  unfold Obligations.VectorLoadAndStoreBlocks
  intro s hvalid
  constructor
  · intro hsrc
    have hexec := exec_vload s (vectorCheck_src_of_contextValid hvalid hsrc)
    refine ⟨_, hexec, rfl, fun b i j => ?_, runAll_vldraw_vxpose hvalid hsrc⟩
    have hplace : 64 * b.val + 4 * (4 * i.val + j.val) = 64 * b.val + 16 * i.val + 4 * j.val := by omega
    rw [State.succeed_v, ← laneM_word, laneM_transpose_loadMat, loadBlock_word, offset, addr_add_add, hplace,
      Memory.readWord_toNat, offset]
  · intro hdst
    have hexec := exec_vstore s (vectorCheck_dst_of_contextValid hvalid hdst)
    exact ⟨_, hexec, rfl, stores_storeWide_untranspose s.mem s.dst s.v, runAll_vixpose_vstraw hvalid hdst⟩

end Sys2Proof.Machine
end

section
/-! The round commands of the vector engine: what each leaves in V under a valid context, the rounds and ciphers as
runs of their stage commands, the inverses, and the independence of the lanes (43_vector_batch.md R210, R216, R217,
R222 to R231, R237). -/

namespace Sys2Proof.Machine

open Function Sys2Proof.Claims

/-! ### Commands and runs that act on V -/

/-- A function of V that reads the broadcast copies BK and BRC of the context. -/
abbrev WideFun := Vector WideFile 24 → Vector WideFile 22 → WideFile → WideFile

/-- With a valid context the command completes and replaces V by a function of V, BK and BRC. -/
def ActsOnV (i : Instr) (f : WideFun) : Prop :=
  ∀ s : State, ContextValid s → exec i s = .next ({ s with v := f s.bk s.brc s.v } : State).succeed

theorem actsOnV_vxpose : ActsOnV .vxpose fun _ _ => transpose :=
  fun s h => exec_vxpose s (vectorCheck_of_contextValid h)

theorem actsOnV_vixpose : ActsOnV .vixpose fun _ _ => untranspose :=
  fun s h => exec_vixpose s (vectorCheck_of_contextValid h)

theorem actsOnV_vcolmix : ActsOnV .vcolmix fun _ _ => wideColumnMix :=
  fun s h => exec_vcolmix s (vectorCheck_of_contextValid h)

theorem actsOnV_vicolmix : ActsOnV .vicolmix fun _ _ => wideInvColumnMix :=
  fun s h => exec_vicolmix s (vectorCheck_of_contextValid h)

theorem actsOnV_vshrows : ActsOnV .vshrows fun _ _ => wideShiftRows :=
  fun s h => exec_vshrows s (vectorCheck_of_contextValid h)

theorem actsOnV_vishrows : ActsOnV .vishrows fun _ _ => wideInvShiftRows :=
  fun s h => exec_vishrows s (vectorCheck_of_contextValid h)

theorem actsOnV_venc8 : ActsOnV .venc8 wideEncrypt :=
  fun s h => exec_venc8 s (vectorCheck_of_contextValid h)

theorem actsOnV_vdec8 : ActsOnV .vdec8 wideDecrypt :=
  fun s h => exec_vdec8 s (vectorCheck_of_contextValid h)

theorem actsOnV_vsubc (r : Fin 22) : ActsOnV (.vsubc (roundNo r)) fun _ brc => wideSubConstants brc r :=
  fun s h => exec_vsubc s (roundOf_roundNo r) (vectorCheck_of_contextValid h)

theorem actsOnV_vark (k : Fin 24) : ActsOnV (.vark (keyNo k)) fun bk _ => wideAddRoundKey bk k :=
  fun s h => exec_vark s (subkeyOf_keyNo k) (vectorCheck_of_contextValid h)

/-- The number of round `r`'s subkey is that of the round (R228). -/
theorem actsOnV_vark_roundNo (r : Fin 22) :
    ActsOnV (.vark (roundNo r)) fun bk _ => wideAddRoundKey bk (roundSubkey r) :=
  actsOnV_vark (roundSubkey r)

theorem actsOnV_vfround (r : Fin 22) : ActsOnV (.vfround (roundNo r)) fun bk brc => wideFwdRound bk brc r :=
  fun s h => exec_vfround s (roundOf_roundNo r) (vectorCheck_of_contextValid h)

theorem actsOnV_viround (r : Fin 22) : ActsOnV (.viround (roundNo r)) fun bk brc => wideInvRound bk brc r :=
  fun s h => exec_viround s (roundOf_roundNo r) (vectorCheck_of_contextValid h)

/-- The state after `n` commands have succeeded that left `V` in the wide registers and changed no other; with no
command run, STATUS.RES is still as it was. -/
def State.afterOnV (s : State) (V : WideFile) (n : Nat) : State :=
  { s with v := V, res := if n = 0 then s.res else 0, pc := s.pc + n }

theorem State.succeed_afterOnV (s : State) (V W : WideFile) (n : Nat) :
    (State.succeed { s with v := V }).afterOnV W n = s.afterOnV W (n + 1) := by
  simp only [State.afterOnV, State.succeed, ite_self, Nat.succ_ne_zero, if_false, Nat.add_right_comm s.pc 1 n,
    Nat.add_assoc]

/-- With a valid context the list of commands completes and replaces V by a function of V, BK and BRC. -/
def RunsOnV (is : List Instr) (f : WideFun) : Prop :=
  ∀ s : State, ContextValid s → runAll is s = .next (s.afterOnV (f s.bk s.brc s.v) is.length)

theorem RunsOnV.nil : RunsOnV [] fun _ _ V => V := fun _ _ => rfl

/-- The command leaves the context as it was, so the rest of the run finds it valid and reads the same copies. -/
theorem ActsOnV.cons {i : Instr} {is : List Instr} {f g : WideFun} (hf : ActsOnV i f) (hg : RunsOnV is g) :
    RunsOnV (i :: is) fun bk brc V => g bk brc (f bk brc V) := fun s hvalid => by
  have hrest := hg (State.succeed { s with v := f s.bk s.brc s.v }) hvalid
  rw [State.succeed_afterOnV] at hrest
  exact (runAll_cons is (hf s hvalid)).trans hrest

theorem ActsOnV.run {i : Instr} {f : WideFun} (h : ActsOnV i f) : RunsOnV [i] f := h.cons .nil

/-- One command for each element of a list, and a run after them. -/
theorem RunsOnV.map_append {α : Type} {c : α → Instr} {F : α → WideFun} (h : ∀ r, ActsOnV (c r) (F r))
    (l : List α) {is : List Instr} {g : WideFun} (hg : RunsOnV is g) :
    RunsOnV (l.map c ++ is) fun bk brc V => g bk brc (l.foldl (fun W r => F r bk brc W) V) := by
  induction l with
  | nil => exact hg
  | cons r l ih => exact (h r).cons ih

/-- A command and a run of `n + 1` commands that act on V by one function end in states that differ in pc only. -/
theorem RunsOnV.exec_eq {is : List Instr} {i : Instr} {f : WideFun} (h : RunsOnV is f) (hi : ActsOnV i f)
    {s : State} (hvalid : ContextValid s) {n : Nat} (hn : is.length = n + 1) :
    ∃ t, runAll is s = .next t ∧ t = { s with v := t.v, res := 0, pc := s.pc + (n + 1) } ∧
      exec i s = .next { t with pc := s.pc + 1 } :=
  ⟨s.afterOnV (f s.bk s.brc s.v) (n + 1), hn ▸ h s hvalid, rfl, hi s hvalid⟩

/-! ### The stages -/

/-- Settles O51: both commands leave the XOR of V with a broadcast copy, which `matXor_word` reads word by word. -/
theorem vectorXorsReadTheContext : Obligations.VectorXorsReadTheContext := by
  unfold Obligations.VectorXorsReadTheContext
  intro s hvalid
  exact ⟨fun r => ⟨_, actsOnV_vsubc r s hvalid, rfl, matXor_word s.v s.brc[r.val]⟩,
    fun k => ⟨_, actsOnV_vark k s hvalid, rfl, matXor_word s.v s.bk[k.val]⟩⟩

theorem wideShiftRows_word (V : WideFile) (i j : Fin 4) (l : Fin 8) :
    (wideShiftRows V).word (wordNo i j) l = V.word (wordNo i (j + i)) l := by
  rw [← laneM_word, laneM_wideShiftRows, shiftRows_word, laneM_word]
  rfl

theorem wideInvShiftRows_word (V : WideFile) (i j : Fin 4) (l : Fin 8) :
    (wideInvShiftRows V).word (wordNo i j) l = V.word (wordNo i (j - i)) l := by
  have hcolumn : (j.val + 4 - i.val) % 4 = (j - i).val := by rw [Fin.sub_def]; dsimp only; omega
  rw [← laneM_word, laneM_wideInvShiftRows, invShiftRows_word, laneM_word]
  exact congrArg (V.word · l) (congrArg (wordNo i) (Fin.ext hcolumn))

/-- Settles O52: the mixes lane by lane, the shifts word by word. -/
theorem vectorMixAndShiftActLaneWise : Obligations.VectorMixAndShiftActLaneWise := by
  unfold Obligations.VectorMixAndShiftActLaneWise
  intro s hvalid
  refine ⟨⟨_, actsOnV_vcolmix s hvalid, rfl, fun l => ?_⟩, ⟨_, actsOnV_vicolmix s hvalid, rfl, fun l => ?_⟩,
    ⟨_, actsOnV_vshrows s hvalid, rfl, wideShiftRows_word s.v⟩,
    ⟨_, actsOnV_vishrows s hvalid, rfl, wideInvShiftRows_word s.v⟩⟩
  · exact ⟨_, exec_colmix _, laneM_wideColumnMix s.v l⟩
  · exact ⟨_, exec_icolmix _, laneM_wideInvColumnMix s.v l⟩

/-! ### The rounds and the ciphers as runs -/

theorem wideFwdRound_eq_stages (bk : Vector WideFile 24) (brc : Vector WideFile 22) (r : Fin 22) (V : WideFile) :
    wideFwdRound bk brc r V =
      wideAddRoundKey bk (roundSubkey r) (wideShiftRows (wideColumnMix (wideSubConstants brc r V))) :=
  wide_ext fun l => by
    rw [laneM_wideFwdRound, laneM_wideAddRoundKey, laneM_wideShiftRows, laneM_wideColumnMix, laneM_wideSubConstants]

theorem wideInvRound_eq_stages (bk : Vector WideFile 24) (brc : Vector WideFile 22) (r : Fin 22) (V : WideFile) :
    wideInvRound bk brc r V =
      wideSubConstants brc r (wideInvColumnMix (wideInvShiftRows (wideAddRoundKey bk (roundSubkey r) V))) :=
  wide_ext fun l => by
    rw [laneM_wideInvRound, laneM_wideSubConstants, laneM_wideInvColumnMix, laneM_wideInvShiftRows,
      laneM_wideAddRoundKey]

theorem runsOnV_fwdRound (r : Fin 22) :
    RunsOnV [.vsubc (roundNo r), .vcolmix, .vshrows, .vark (roundNo r)] fun bk brc => wideFwdRound bk brc r := by
  have hrun := (actsOnV_vsubc r).cons <| actsOnV_vcolmix.cons <| actsOnV_vshrows.cons (actsOnV_vark_roundNo r).run
  simp only [← wideFwdRound_eq_stages] at hrun
  exact hrun

theorem runsOnV_invRound (r : Fin 22) :
    RunsOnV [.vark (roundNo r), .vishrows, .vicolmix, .vsubc (roundNo r)] fun bk brc => wideInvRound bk brc r := by
  have hrun := (actsOnV_vark_roundNo r).cons <| actsOnV_vishrows.cons <| actsOnV_vicolmix.cons (actsOnV_vsubc r).run
  simp only [← wideInvRound_eq_stages] at hrun
  exact hrun

theorem runsOnV_encrypt : RunsOnV ([.vark 0] ++ vfroundsUp ++ [.vark 23]) wideEncrypt := by
  have hrounds := RunsOnV.map_append actsOnV_vfround (List.finRange 22) (actsOnV_vark 23).run
  exact (actsOnV_vark 0).cons hrounds

theorem runsOnV_decrypt : RunsOnV ([.vark 23] ++ viroundsDown ++ [.vark 0]) wideDecrypt := by
  have hrounds := RunsOnV.map_append actsOnV_viround (List.finRange 22).reverse (actsOnV_vark 0).run
  simp only [List.foldl_reverse] at hrounds
  exact (actsOnV_vark 23).cons hrounds

/-- Settles O53: each command and its sequence act on V by one function. -/
theorem vectorRoundsEqualStageCommands : Obligations.VectorRoundsEqualStageCommands := by
  unfold Obligations.VectorRoundsEqualStageCommands
  intro s hvalid
  exact ⟨fun r => (runsOnV_fwdRound r).exec_eq (actsOnV_vfround r) hvalid rfl,
    fun r => (runsOnV_invRound r).exec_eq (actsOnV_viround r) hvalid rfl,
    runsOnV_encrypt.exec_eq actsOnV_venc8 hvalid rfl, runsOnV_decrypt.exec_eq actsOnV_vdec8 hvalid rfl⟩

/-! ### The wide stages and their inverses -/

theorem wideInvColumnMix_wideColumnMix : LeftInverse wideInvColumnMix wideColumnMix := fun V =>
  wide_ext fun l => by rw [laneM_wideInvColumnMix, laneM_wideColumnMix, invColumnMix_columnMix]

theorem wideColumnMix_wideInvColumnMix : LeftInverse wideColumnMix wideInvColumnMix := fun V =>
  wide_ext fun l => by rw [laneM_wideColumnMix, laneM_wideInvColumnMix, columnMix_invColumnMix]

theorem wideInvShiftRows_wideShiftRows : LeftInverse wideInvShiftRows wideShiftRows := fun V =>
  wide_ext fun l => by rw [laneM_wideInvShiftRows, laneM_wideShiftRows, invShiftRows_shiftRows]

theorem wideShiftRows_wideInvShiftRows : LeftInverse wideShiftRows wideInvShiftRows := fun V =>
  wide_ext fun l => by rw [laneM_wideShiftRows, laneM_wideInvShiftRows, shiftRows_invShiftRows]

section
variable (bk : Vector WideFile 24) (brc : Vector WideFile 22)

theorem wideSubConstants_involutive (r : Fin 22) : Involutive (wideSubConstants brc r) := fun V => matXor_matXor V _

theorem wideAddRoundKey_involutive (k : Fin 24) : Involutive (wideAddRoundKey bk k) := fun V => matXor_matXor V _

/-- The wide inverse round takes the four stages of the wide round back in reverse order (R229). -/
theorem wideInvRound_wideFwdRound (r : Fin 22) : LeftInverse (wideInvRound bk brc r) (wideFwdRound bk brc r) :=
  fun V => by
    rw [wideInvRound_eq_stages, wideFwdRound_eq_stages, wideAddRoundKey_involutive, wideInvShiftRows_wideShiftRows,
      wideInvColumnMix_wideColumnMix, wideSubConstants_involutive]

theorem wideFwdRound_wideInvRound (r : Fin 22) : LeftInverse (wideFwdRound bk brc r) (wideInvRound bk brc r) :=
  fun V => by
    rw [wideFwdRound_eq_stages, wideInvRound_eq_stages, wideSubConstants_involutive, wideColumnMix_wideInvColumnMix,
      wideShiftRows_wideInvShiftRows, wideAddRoundKey_involutive]

theorem wideDecrypt_wideEncrypt : LeftInverse (wideDecrypt bk brc) (wideEncrypt bk brc) := fun V => by
  rw [wideDecrypt, wideEncrypt, wideAddRoundKey_involutive, roundsDown_roundsUp _ _ (wideInvRound_wideFwdRound bk brc),
    wideAddRoundKey_involutive]

theorem wideEncrypt_wideDecrypt : LeftInverse (wideEncrypt bk brc) (wideDecrypt bk brc) := fun V => by
  rw [wideEncrypt, wideDecrypt, wideAddRoundKey_involutive, roundsUp_roundsDown _ _ (wideFwdRound_wideInvRound bk brc),
    wideAddRoundKey_involutive]

end

/-! ### The pairs of commands that undo each other -/

/-- The second command of the pair undoes on V what the first did, under any one context. -/
def UndoOnV (p : Instr × Instr) : Prop :=
  ∃ f g, ActsOnV p.1 f ∧ ActsOnV p.2 g ∧ ∀ bk brc, LeftInverse (g bk brc) (f bk brc)

/-- The second command finds the context of the first, so it restores V. -/
theorem UndoOnV.runAll_eq {p : Instr × Instr} (h : UndoOnV p) {s : State} (hvalid : ContextValid s) :
    runAll [p.1, p.2] s = .next { s with res := 0, pc := s.pc + 2 } := by
  obtain ⟨f, g, hf, hg, hinv⟩ := h
  have hV : g s.bk s.brc (f s.bk s.brc s.v) = s.v := hinv s.bk s.brc s.v
  exact (hf.cons hg.run s hvalid).trans (congrArg (fun V => Host.Outcome.next (s.afterOnV V 2)) hV)

theorem undoOnV_of_mem_vroundPairs (r : Fin 22) : ∀ p ∈ vroundPairs (roundNo r), UndoOnV p := by
  simp only [vroundPairs, List.forall_mem_cons]
  exact ⟨⟨_, _, actsOnV_vfround r, actsOnV_viround r, (wideInvRound_wideFwdRound · · r)⟩,
    ⟨_, _, actsOnV_viround r, actsOnV_vfround r, (wideFwdRound_wideInvRound · · r)⟩,
    ⟨_, _, actsOnV_vsubc r, actsOnV_vsubc r, fun _ brc => wideSubConstants_involutive brc r⟩, List.forall_mem_nil _⟩

theorem undoOnV_of_mem_vectorInverses : ∀ p ∈ vectorInverses, UndoOnV p := by
  simp only [vectorInverses, List.forall_mem_append, List.forall_mem_cons, List.forall_mem_flatMap,
    List.forall_mem_map]
  refine ⟨⟨?_, fun r _ => undoOnV_of_mem_vroundPairs r⟩,
    fun k _ => ⟨_, _, actsOnV_vark k, actsOnV_vark k, fun bk _ => wideAddRoundKey_involutive bk k⟩⟩
  exact ⟨⟨_, _, actsOnV_vxpose, actsOnV_vixpose, fun _ _ => untranspose_transpose⟩,
    ⟨_, _, actsOnV_vixpose, actsOnV_vxpose, fun _ _ => transpose_untranspose⟩,
    ⟨_, _, actsOnV_vcolmix, actsOnV_vicolmix, fun _ _ => wideInvColumnMix_wideColumnMix⟩,
    ⟨_, _, actsOnV_vicolmix, actsOnV_vcolmix, fun _ _ => wideColumnMix_wideInvColumnMix⟩,
    ⟨_, _, actsOnV_vshrows, actsOnV_vishrows, fun _ _ => wideInvShiftRows_wideShiftRows⟩,
    ⟨_, _, actsOnV_vishrows, actsOnV_vshrows, fun _ _ => wideShiftRows_wideInvShiftRows⟩,
    ⟨_, _, actsOnV_venc8, actsOnV_vdec8, wideDecrypt_wideEncrypt⟩,
    ⟨_, _, actsOnV_vdec8, actsOnV_venc8, wideEncrypt_wideDecrypt⟩, List.forall_mem_nil _⟩

/-- Settles O55: each pair of the list acts on V by a function and its left inverse, so running it restores V. -/
theorem vectorInversesRestoreV : Obligations.VectorInversesRestoreV := by
  unfold Obligations.VectorInversesRestoreV
  exact fun p hp s hvalid => (undoOnV_of_mem_vectorInverses p hp).runAll_eq hvalid

/-! ### The lanes do not interact -/

/-- Two contexts hold the same subkeys and round constants in lane `l`. -/
structure SameLane (l : Fin 8) (bk bk' : Vector WideFile 24) (brc brc' : Vector WideFile 22) : Prop where
  bk : ∀ k : Fin 24, laneM bk[k.val] l = laneM bk'[k.val] l
  brc : ∀ r : Fin 22, laneM brc[r.val] l = laneM brc'[r.val] l

/-- Lane `l` of the result is a function of lane `l` of V, BK and BRC (R210). -/
def LaneLocal (f : WideFun) : Prop :=
  ∀ {l bk bk' brc brc'}, SameLane l bk bk' brc brc' → ∀ {V V'}, laneM V l = laneM V' l →
    laneM (f bk brc V) l = laneM (f bk' brc' V') l

theorem laneLocal_wideColumnMix : LaneLocal fun _ _ => wideColumnMix := fun _ _ _ hV => by
  rw [laneM_wideColumnMix, laneM_wideColumnMix, hV]

theorem laneLocal_wideInvColumnMix : LaneLocal fun _ _ => wideInvColumnMix := fun _ _ _ hV => by
  rw [laneM_wideInvColumnMix, laneM_wideInvColumnMix, hV]

theorem laneLocal_wideShiftRows : LaneLocal fun _ _ => wideShiftRows := fun _ _ _ hV => by
  rw [laneM_wideShiftRows, laneM_wideShiftRows, hV]

theorem laneLocal_wideInvShiftRows : LaneLocal fun _ _ => wideInvShiftRows := fun _ _ _ hV => by
  rw [laneM_wideInvShiftRows, laneM_wideInvShiftRows, hV]

theorem laneLocal_wideSubConstants (r : Fin 22) : LaneLocal fun _ brc => wideSubConstants brc r := fun h _ _ hV => by
  rw [laneM_wideSubConstants, laneM_wideSubConstants, hV, h.brc]

theorem laneLocal_wideAddRoundKey (k : Fin 24) : LaneLocal fun bk _ => wideAddRoundKey bk k := fun h _ _ hV => by
  rw [laneM_wideAddRoundKey, laneM_wideAddRoundKey, hV, h.bk]

theorem laneLocal_wideFwdRound (r : Fin 22) : LaneLocal fun bk brc => wideFwdRound bk brc r := fun h _ _ hV => by
  rw [laneM_wideFwdRound, laneM_wideFwdRound, hV, h.bk, h.brc]

theorem laneLocal_wideInvRound (r : Fin 22) : LaneLocal fun bk brc => wideInvRound bk brc r := fun h _ _ hV => by
  rw [laneM_wideInvRound, laneM_wideInvRound, hV, h.bk, h.brc]

/-- The round loops keep what the rounds keep: two V that agree in a lane still do. -/
theorem laneLocal_wideEncrypt : LaneLocal wideEncrypt := fun {l} _ _ _ _ h _ _ hV =>
  laneLocal_wideAddRoundKey 23 h <|
    List.foldl_rel (r := fun V V' => laneM V l = laneM V' l) (laneLocal_wideAddRoundKey 0 h hV)
      fun r _ _ _ hW => laneLocal_wideFwdRound r h hW

theorem laneLocal_wideDecrypt : LaneLocal wideDecrypt := fun {l} _ _ _ _ h _ _ hV =>
  laneLocal_wideAddRoundKey 0 h <|
    List.foldr_rel (r := fun V V' => laneM V l = laneM V' l) (laneLocal_wideAddRoundKey 23 h hV)
      fun r _ _ _ hW => laneLocal_wideInvRound r h hW

theorem laneLocal_of_mem_roundCommands : ∀ i ∈ roundCommands, ∃ f, ActsOnV i f ∧ LaneLocal f := by
  simp only [roundCommands, List.forall_mem_append, List.forall_mem_cons, List.forall_mem_map]
  refine ⟨⟨⟨⟨?_, fun r _ => ⟨_, actsOnV_vsubc r, laneLocal_wideSubConstants r⟩⟩,
    fun r _ => ⟨_, actsOnV_vfround r, laneLocal_wideFwdRound r⟩⟩,
    fun r _ => ⟨_, actsOnV_viround r, laneLocal_wideInvRound r⟩⟩,
    fun k _ => ⟨_, actsOnV_vark k, laneLocal_wideAddRoundKey k⟩⟩
  exact ⟨⟨_, actsOnV_vcolmix, laneLocal_wideColumnMix⟩, ⟨_, actsOnV_vicolmix, laneLocal_wideInvColumnMix⟩,
    ⟨_, actsOnV_vshrows, laneLocal_wideShiftRows⟩, ⟨_, actsOnV_vishrows, laneLocal_wideInvShiftRows⟩,
    ⟨_, actsOnV_venc8, laneLocal_wideEncrypt⟩, ⟨_, actsOnV_vdec8, laneLocal_wideDecrypt⟩, List.forall_mem_nil _⟩

theorem laneM_eq_iff (V W : WideFile) (l : Fin 8) : laneM V l = laneM W l ↔ ∀ n, V.word n l = W.word n l := by
  refine ⟨fun h n => ?_, fun h => Mat.ext_word fun i j => ?_⟩
  · rw [← blockWord_laneM, h, blockWord_laneM]
  · rw [laneM_word, laneM_word, h]

/-- Settles O56: every round command acts on V by a function that keeps the lanes apart. -/
theorem lanesAreIndependent : Obligations.LanesAreIndependent := by
  unfold Obligations.LanesAreIndependent
  intro i hi s s' l hvalid hvalid' hv hbk hbrc
  obtain ⟨f, hacts, hlocal⟩ := laneLocal_of_mem_roundCommands i hi
  have hlane : SameLane l s.bk s'.bk s.brc s'.brc :=
    ⟨fun k => (laneM_eq_iff _ _ l).2 (hbk k), fun r => (laneM_eq_iff _ _ l).2 (hbrc r)⟩
  exact ⟨_, _, hacts s hvalid, hacts s' hvalid',
    (laneM_eq_iff _ _ l).1 (hlocal hlane ((laneM_eq_iff _ _ l).2 hv))⟩

end Sys2Proof.Machine
end

section
/-! The batch commands: what they load is not yet written, so their residue is the cipher of the input; group by group
they leave the memory of the scalar cipher block by block; and a second batch with the inverse cipher takes it back at
every count (20_memory.md R61, R70, 43_vector_batch.md R232 to R235, R238). -/

namespace Sys2Proof.Claims

open Sys2Proof.Machine

/-! ### The ranges of a batch -/

theorem offset_offset (a : Addr) (m n : Nat) : offset (offset a m) n = offset a (m + n) := addr_add_add a m n

@[simp] theorem offset_zero (a : Addr) : offset a 0 = a := BitVec.add_zero a

/-- Every address is its distance above any other (R61). -/
theorem offset_sub_toNat (a x : Addr) : offset a (x - a).toNat = x := by
  rw [offset, BitVec.ofNat_toNat, BitVec.setWidth_eq, BitVec.add_comm, BitVec.sub_add_cancel]

section
variable {src dst : Addr} {n : Nat} (h : RangesAllowed src dst n)
include h

theorem RangesAllowed.part {b k : Nat} (hn : b + k ≤ n) : RangesAllowed (offset src b) (offset dst b) k := by
  rcases h with rfl | h
  · exact .inl rfl
  · refine .inr fun i j hi hj => ?_
    rw [offset_offset, offset_offset]
    exact h _ _ (by omega) (by omega)

theorem RangesAllowed.mono {k : Nat} (hk : k ≤ n) : RangesAllowed src dst k := by
  simpa using h.part (b := 0) (k := k) (by omega)

/-- Ranges that are all of memory share a byte, so they start at one address (R70, log entry 8). -/
theorem RangesAllowed.eq_of_wraps (hn : 2 ^ 32 ≤ n) : src = dst := by
  rcases h with rfl | h
  · rfl
  · have hmeet : offset src (dst - src).toNat = offset dst 0 := by rw [offset_sub_toNat, offset_zero]
    exact absurd hmeet (h _ _ (lt_of_lt_of_le (dst - src).isLt hn) (by omega))

theorem RangesAllowed.not_partialOverlap : partialOverlap src dst n = false := by
  refine Bool.eq_false_iff.2 fun hp => ?_
  obtain ⟨hne, j, k, hj, hk, hmeet⟩ := (partialOverlap_eq_true src dst n).1 hp
  rcases h with rfl | h
  · exact hne rfl
  · exact h j k hj hk hmeet

/-- Where the ranges do not wrap onto themselves, the input from byte `b` up is none of the first `b` bytes of
output. -/
theorem RangesAllowed.le_sub_dst (hn : n ≤ 2 ^ 32) {b k : Nat} (hb : b + k < n) :
    b ≤ (offset src (b + k) - dst).toNat := by
  rcases h with rfl | h
  · have hplace : (offset src (b + k) - src).toNat = b + k := addr_add_sub src (b + k) (by omega)
    omega
  · by_contra hlt
    exact h (b + k) _ hb (by omega) (offset_sub_toNat dst _).symm

/-- So an image loaded there is still that of the memory before the batch. -/
theorem RangesAllowed.loadMat_eq (hn : n ≤ 2 ^ 32) {r c b : Nat} (hb : b + 4 * (r * c) ≤ n) {m m' : Memory}
    (hm : SameOutside dst b m m') : loadMat r c m' (offset src b) = loadMat r c m (offset src b) :=
  loadMat_congr r c m' m _ _ fun k hk => hm _ (by
    rw [offset, addr_add_add]
    exact h.le_sub_dst hn (by omega))

end

end Sys2Proof.Claims

namespace Sys2Proof.Machine

open Function Sys2Proof.Claims

/-! ### Completion and residue -/

/-- The batch command of a direction (R232, R234). -/
def batchInstr : Direction → Instr
  | .encrypt => .benc
  | .decrypt => .bdec

/-- What R238 and R70 ask of a batch. -/
structure BatchReady (s : State) : Prop where
  valid : ContextValid s
  src : s.src ≠ 0
  dst : s.dst ≠ 0
  cnt : s.cnt ≠ 0
  ranges : RangesAllowed s.src s.dst (64 * s.cnt.toNat)

theorem BatchReady.exec {s : State} (h : BatchReady s) (d : Direction) :
    exec (batchInstr d) s = .next (batch Config.params d s).succeed := by
  have hcheck := (batchCheck_eq_none s).2 ⟨h.valid, h.src, h.dst, h.cnt⟩
  have hnext := next_batchCommand d s hcheck h.ranges.not_partialOverlap
  cases d with
  | encrypt => exact hnext
  | decrypt => exact hnext

theorem batchGroups_succ_v (d : Direction) (n : Nat) (s : State) :
    (batchGroups d (n + 1) s).v =
      untranspose (wideCipher d s.bk s.brc
        (transpose (loadMat 16 8 (batchGroups d n s).mem (offset s.src (512 * n))))) := by
  rw [batchGroups, batchGroup, batchGroups_frame]
  rfl

theorem batchTail_succ_sReg (P : Params) (d : Direction) (g n : Nat) (s : State) :
    (batchTail P d g (n + 1) s).sReg =
      blockCipher P d s.ck (loadBlock (batchTail P d g n s).mem (offset s.src (512 * g + 64 * n))) := by
  rw [batchTail, batchTailBlock, batchTail_frame]
  rfl

section
variable (P : Params) (d : Direction) {s : State} (hr : RangesAllowed s.src s.dst (64 * s.cnt.toNat))
  (hn : 64 * s.cnt.toNat ≤ 2 ^ 32)
include hr hn

/-- The last group loads bytes no earlier group has written. -/
theorem batch_v_of_group (h : 8 ≤ s.cnt.toNat) :
    (batch P d s).v = untranspose (wideCipher d s.bk s.brc
      (transpose (loadMat 16 8 s.mem (offset s.src (512 * (s.cnt.toNat / 8 - 1)))))) := by
  obtain ⟨g, hg⟩ : ∃ g, s.cnt.toNat / 8 = g + 1 := ⟨s.cnt.toNat / 8 - 1, by omega⟩
  have hload := hr.loadMat_eq hn (r := 16) (c := 8) (by omega) (sameOutside_batchGroups d g s)
  rw [batch, batchTail_frame, hg, Nat.add_sub_cancel, ← hload]
  exact batchGroups_succ_v d g s

/-- The last tail block is loaded from bytes no group and no earlier tail block has written. -/
theorem batch_sReg_of_tail (h : s.cnt.toNat % 8 ≠ 0) :
    (batch P d s).sReg = blockCipher P d s.ck (loadBlock s.mem (offset s.src (64 * (s.cnt.toNat - 1)))) := by
  obtain ⟨t, ht⟩ : ∃ t, s.cnt.toNat % 8 = t + 1 := ⟨s.cnt.toNat % 8 - 1, by omega⟩
  have hlast : 64 * (s.cnt.toNat - 1) = 512 * (s.cnt.toNat / 8) + 64 * t := by omega
  have hgroups := sameOutside_batchGroups d (s.cnt.toNat / 8) s
  rw [← batchGroups_dst d (s.cnt.toNat / 8) s] at hgroups
  have htail := sameOutside_batchTail P d (n := t) hgroups
  rw [batchGroups_dst] at htail
  have hload : loadBlock _ _ = loadBlock _ _ := hr.loadMat_eq hn (by omega) htail
  rw [batch, ht, batchTail_succ_sReg, hlast, ← hload, batchGroups_frame]

end

/-- The residue of a batch in either direction (R233, R234). -/
theorem BatchReady.residue {s : State} (h : BatchReady s) (d : Direction) :
    ∃ t, Machine.exec (batchInstr d) s = .next t ∧
      t = { s with sReg := t.sReg, v := t.v, mem := t.mem, res := 0, pc := s.pc + 1 } ∧
      (s.cnt.toNat % 8 = 0 → t.sReg = s.sReg) ∧
      (s.cnt.toNat < 8 → t.v = s.v) ∧
      (64 * s.cnt.toNat ≤ 2 ^ 32 →
        SameOutside s.dst (64 * s.cnt.toNat) s.mem t.mem ∧
        (s.cnt.toNat % 8 ≠ 0 → t.sReg = blockCipher Config.params d s.ck
          (loadBlock s.mem (offset s.src (64 * (s.cnt.toNat - 1))))) ∧
        (8 ≤ s.cnt.toNat → t.v = untranspose (wideCipher d s.bk s.brc
          (transpose (loadMat 16 8 s.mem (offset s.src (512 * (s.cnt.toNat / 8 - 1)))))))) :=
  ⟨_, h.exec d, congrArg State.succeed (batch_frame Config.params d s), batch_sReg_no_tail Config.params d s,
    batch_v_no_group Config.params d s, fun hn => ⟨sameOutside_batch Config.params d s,
      batch_sReg_of_tail Config.params d h.ranges hn, batch_v_of_group Config.params d h.ranges hn⟩⟩

/-- Settles O57: `BatchReady.residue` in both directions. -/
theorem batchCompletesAndLeavesItsResidue : Obligations.BatchCompletesAndLeavesItsResidue := by
  unfold Obligations.BatchCompletesAndLeavesItsResidue
  intro s hvalid hsrc hdst hcnt hr
  have h : BatchReady s := ⟨hvalid, hsrc, hdst, hcnt, hr⟩
  simp only [List.forall_mem_cons]
  exact ⟨h.residue .encrypt, h.residue .decrypt, List.forall_mem_nil _⟩

/-! ### Memories with the same bytes, and stores one after the other -/

/-- The two memories hold the same byte at every address. -/
def SameBytes (m m' : Memory) : Prop := ∀ x : Addr, m'.byteAt x = m.byteAt x

theorem SameBytes.refl (m : Memory) : SameBytes m m := fun _ => rfl

theorem SameBytes.storeMat {r c : Nat} {m m' : Memory} (h : SameBytes m m') (a : Addr) (X : Mat r c) :
    SameBytes (storeMat m a X) (storeMat m' a X) := fun x => byteAt_writeBytes_congr a (matBytes X) (h x)

theorem SameBytes.loadBlock_eq {m m' : Memory} (h : SameBytes m m') (a : Addr) : loadBlock m' a = loadBlock m a :=
  loadMat_congr 4 4 m' m a a fun _ _ => h _

/-- The same bytes stored at the same place leave the same bytes everywhere. -/
theorem SameBytes.of_stores {m₁ m₂ m₁' m₂' : Memory} {a : Addr} {n : Nat} {f : Fin n → Byte} (h : SameBytes m₁ m₂)
    (h₁ : Stores m₁ a n f m₁') (h₂ : Stores m₂ a n f m₂') : SameBytes m₁' m₂' := fun x => by
  by_cases hx : (x - a).toNat < n
  · have hbyte := (h₂.1 ⟨_, hx⟩).trans (h₁.1 ⟨_, hx⟩).symm
    simpa only [offset_sub_toNat] using hbyte
  · rw [h₁.2 x (by omega), h₂.2 x (by omega), h x]

/-- Two stores, the second right above the first, are one. -/
theorem stores_append {m m' m'' : Memory} {a : Addr} {p q : Nat} {F : Nat → Byte} (hn : p + q ≤ 2 ^ 32)
    (h : Stores m a p (fun k => F k.val) m') (h' : Stores m' (offset a p) q (fun k => F (p + k.val)) m'') :
    Stores m a (p + q) (fun k => F k.val) m'' := by
  refine ⟨fun k => ?_, fun x hx => ?_⟩
  · by_cases hk : k.val < p
    · have hbelow : q ≤ (offset a k.val - offset a p).toNat := by
        have ha := a.isLt
        simp only [offset, BitVec.toNat_sub, BitVec.toNat_add, BitVec.toNat_ofNat]
        omega
      rw [h'.2 _ hbelow]
      exact h.1 ⟨k.val, hk⟩
    · have hsplit : p + (k.val - p) = k.val := by omega
      have hbyte := h'.1 ⟨k.val - p, by omega⟩
      simpa only [offset_offset, hsplit] using hbyte
  · have habove : (x - offset a p).toNat = (x - a).toNat - p := addr_sub_add x a (by omega)
    rw [h'.2 x (by omega), h.2 x (by omega)]

/-- A block whose image stands at `a` is the one loaded from there. -/
theorem loadBlock_eq_of_bytes {m : Memory} {a : Addr} {X : Block}
    (h : ∀ k : Fin 64, m.byteAt (offset a k.val) = blockByte X k) : loadBlock m a = X := by
  have hcongr : loadBlock m a = loadBlock (storeMat m a X) a := loadMat_congr 4 4 _ _ a a fun k hk =>
    (h ⟨k, hk⟩).trans ((stores_storeMat m a X).1 ⟨k, hk⟩).symm
  rw [hcongr, loadBlock_storeMat]

/-- Byte `k` from `a` up is byte `k mod 64` of block `k div 64`. -/
theorem byteAt_eq_blockByte (m : Memory) (a : Addr) (k : Nat) :
    m.byteAt (offset a k) = blockByte (loadBlock m (offset a (64 * (k / 64)))) ⟨k % 64, Nat.mod_lt _ (by decide)⟩ := by
  have hplace : 64 * (k / 64) + k % 64 = k := by omega
  rw [blockByte_loadBlock, offset_offset, hplace]

/-! ### A cipher block by block -/

/-- Block `k` from `src` through `f` to its place at `dst`: what ENC or DEC of it leaves in memory. -/
def blockStep (f : Block → Block) (src dst : Addr) (k : Nat) (m : Memory) : Memory :=
  storeMat m (offset dst (64 * k)) (f (loadBlock m (offset src (64 * k))))

/-- The first `n` blocks, one after the other. -/
def blockSteps (f : Block → Block) (src dst : Addr) : Nat → Memory → Memory
  | 0, m => m
  | n + 1, m => blockStep f src dst n (blockSteps f src dst n m)

/-- Byte `k` of the `f` of the blocks from `src` up. -/
def cipheredByte (f : Block → Block) (m : Memory) (src : Addr) (k : Nat) : Byte :=
  blockByte (f (loadBlock m (offset src (64 * (k / 64))))) ⟨k % 64, Nat.mod_lt _ (by decide)⟩

theorem cipheredByte_block (f : Block → Block) (m : Memory) (src : Addr) (n : Nat) (k : Fin 64) :
    cipheredByte f m src (64 * n + k.val) = blockByte (f (loadBlock m (offset src (64 * n)))) k := by
  have hdiv : (64 * n + k.val) / 64 = n := by omega
  have hmod : (64 * n + k.val) % 64 = k.val := by omega
  simp only [cipheredByte, hdiv, hmod]

section
variable {f : Block → Block} {src dst : Addr}

theorem SameBytes.blockStep {m m' : Memory} (h : SameBytes m m') (k : Nat) :
    SameBytes (blockStep f src dst k m) (Machine.blockStep f src dst k m') := by
  rw [Machine.blockStep, Machine.blockStep, h.loadBlock_eq]
  exact h.storeMat _ _

theorem SameBytes.cipheredByte_eq {m m' : Memory} (h : SameBytes m m') :
    cipheredByte f m' src = cipheredByte f m src :=
  funext fun k => by rw [cipheredByte, h.loadBlock_eq, cipheredByte]

theorem blockSteps_add (a n : Nat) (m : Memory) :
    blockSteps f src dst (a + n) m =
      blockSteps f (offset src (64 * a)) (offset dst (64 * a)) n (blockSteps f src dst a m) := by
  induction n with
  | zero => rfl
  | succ n ih =>
    rw [← Nat.add_assoc, blockSteps, blockSteps, ih, blockStep, blockStep, offset_offset, offset_offset, ← Nat.mul_add]

/-- Where the ranges do not wrap onto themselves, every block is read before it is written, so the output is the `f`
of the input as it stood. -/
theorem stores_blockSteps (m : Memory) {n : Nat} (hr : RangesAllowed src dst (64 * n)) (hn : 64 * n ≤ 2 ^ 32) :
    Stores m dst (64 * n) (fun k => cipheredByte f m src k.val) (blockSteps f src dst n m) := by
  induction n with
  | zero => exact ⟨fun k => k.elim0, fun _ _ => rfl⟩
  | succ n ih =>
    have hbefore := ih (hr.mono (by omega)) (by omega)
    have hload : loadBlock _ _ = loadBlock _ _ :=
      hr.loadMat_eq hn (b := 64 * n) (by omega) (SameOutside.of_stores hbefore)
    refine stores_append (p := 64 * n) (q := 64) (by omega) hbefore ?_
    simp only [cipheredByte_block]
    rw [blockSteps, blockStep, hload]
    exact stores_storeMat _ _ _

end

/-! ### Batch and scalar -/

/-- The scalar command of a direction (R160, R161). -/
def scalarInstr : Direction → Instr
  | .encrypt => .enc
  | .decrypt => .dec

theorem exec_scalarInstr (d : Direction) (s : State) :
    exec (scalarInstr d) s = .next (cipherCommand (blockCipher Config.params d s.sk) s).succeed := by
  cases d with
  | encrypt => exact exec_enc s
  | decrypt => exact exec_dec s

/-- A command at addresses of its own. -/
theorem runAll_setsrc_setdst {i : Instr} {s t : State} {src dst : Addr}
    (h : exec i { s with src := src, dst := dst, res := 0, pc := s.pc + 2 } = .next t) :
    runAll [.setsrc src, .setdst dst, i] s = .next t :=
  (runAll_cons _ (exec_setsrc s src)).trans <| (runAll_cons _ (exec_setdst _ dst)).trans (runAll_single h)

/-- The scalar commands block by block are the steps on memory. -/
theorem runAll_blockByBlock (d : Direction) (src dst : Addr) (n : Nat) (s : State) :
    ∃ u, runAll (blockByBlock (scalarInstr d) src dst n) s = .next u ∧ u.sk = s.sk ∧
      u.mem = blockSteps (blockCipher Config.params d s.sk) src dst n s.mem := by
  induction n with
  | zero => exact ⟨s, rfl, rfl, rfl⟩
  | succ n ih =>
    obtain ⟨u, hrun, hsk, hmem⟩ := ih
    rw [blockByBlock, List.range_succ, List.flatMap_append, List.flatMap_singleton, ← blockByBlock,
      runAll_append _ _ hrun]
    refine ⟨_, runAll_setsrc_setdst (exec_scalarInstr d _), hsk, ?_⟩
    rw [blockSteps, ← hmem, ← hsk]
    rfl

theorem laneM_wideCipher_of_contextOf {s : State} {ks : Schedule} (h : ContextOf ks s) (d : Direction) (V : WideFile)
    (l : Fin 8) : laneM (wideCipher d s.bk s.brc V) l = blockCipher Config.params d ks (laneM V l) := by
  cases d with
  | encrypt => exact laneM_encrypt_of_contextOf h V l
  | decrypt => exact laneM_decrypt_of_contextOf h V l

/-- A full group stores the cipher of its eight blocks, all of them loaded before (R218, R221, R233). -/
theorem stores_batchGroup {s : State} {ks : Schedule} (h : ContextOf ks s) (d : Direction) (g : Nat) :
    Stores s.mem (offset s.dst (512 * g)) 512
      (fun k => cipheredByte (blockCipher Config.params d ks) s.mem (offset s.src (512 * g)) k.val)
      (batchGroup d g s).mem := by
  have hbytes := stores_storeWide_untranspose s.mem (offset s.dst (512 * g))
    (wideCipher d s.bk s.brc (transpose (loadMat 16 8 s.mem (offset s.src (512 * g)))))
  simp only [laneM_wideCipher_of_contextOf h, laneM_transpose_loadMat] at hbytes
  exact hbytes

theorem ContextOf.of_sameContext {s t : State} {ks : Schedule} (h : ContextOf ks s) (hc : SameContext s t) :
    ContextOf ks t :=
  ⟨by rw [hc.bk]; exact h.bk, by rw [hc.brc]; exact h.brc, hc.ck.trans h.ck⟩

theorem sameContext_batchGroups (d : Direction) (n : Nat) (s : State) : SameContext s (batchGroups d n s) := by
  rw [batchGroups_frame]; exact ⟨rfl, rfl, rfl, rfl, rfl, rfl⟩

theorem batchGroups_src (d : Direction) (n : Nat) (s : State) : (batchGroups d n s).src = s.src := by
  rw [batchGroups_frame]

theorem batchTail_src (P : Params) (d : Direction) (g n : Nat) (s : State) : (batchTail P d g n s).src = s.src := by
  rw [batchTail_frame]

theorem batchTail_ck (P : Params) (d : Direction) (g n : Nat) (s : State) : (batchTail P d g n s).ck = s.ck := by
  rw [batchTail_frame]

/-- A group and eight scalar blocks, from memories with the same bytes, leave the same bytes: neither reads a byte of
the group's input after writing it. -/
theorem sameBytes_batchGroups {s : State} {ks : Schedule} (h : ContextOf ks s) (d : Direction) {n : Nat}
    (hr : RangesAllowed s.src s.dst (512 * n)) :
    SameBytes (blockSteps (blockCipher Config.params d ks) s.src s.dst (8 * n) s.mem) (batchGroups d n s).mem := by
  induction n with
  | zero => exact .refl _
  | succ n ih =>
    have hsame := ih (hr.mono (by omega))
    have hsize : 64 * (8 * n) = 512 * n := by omega
    have hgroup := stores_batchGroup (h.of_sameContext (sameContext_batchGroups d n s)) d n
    have hblocks := stores_blockSteps (f := blockCipher Config.params d ks)
      (blockSteps (blockCipher Config.params d ks) s.src s.dst (8 * n) s.mem) (n := 8)
      (hr.part (b := 512 * n) (k := 512) (by omega)) (by decide)
    rw [batchGroups_src, batchGroups_dst, hsame.cipheredByte_eq] at hgroup
    rw [Nat.mul_succ, blockSteps_add, hsize]
    exact hsame.of_stores hblocks hgroup

/-- The tail goes block by block as the scalar commands do (R233). -/
theorem sameBytes_batchTail (P : Params) (d : Direction) {g n : Nat} {s : State} {m : Memory}
    (h : SameBytes (blockSteps (blockCipher P d s.ck) s.src s.dst (8 * g) m) s.mem) :
    SameBytes (blockSteps (blockCipher P d s.ck) s.src s.dst (8 * g + n) m) (batchTail P d g n s).mem := by
  induction n with
  | zero => exact h
  | succ n ih =>
    have hplace : 512 * g + 64 * n = 64 * (8 * g + n) := by omega
    have hblock : (batchTail P d g (n + 1) s).mem =
        blockStep (blockCipher P d s.ck) s.src s.dst (8 * g + n) (batchTail P d g n s).mem := by
      rw [batchTail, batchTailBlock, batchTail_src, batchTail_dst, batchTail_ck, hplace]
      rfl
    rw [hblock]
    exact ih.blockStep _

/-- A batch of any count leaves the bytes the scalar cipher leaves block by block (R233, R235). -/
theorem BatchReady.sameBytes {s : State} {ks : Schedule} (hready : BatchReady s) (h : ContextOf ks s) (d : Direction) :
    SameBytes (blockSteps (blockCipher Config.params d ks) s.src s.dst s.cnt.toNat s.mem)
      (batch Config.params d s).mem := by
  have hcount : 8 * (s.cnt.toNat / 8) + s.cnt.toNat % 8 = s.cnt.toNat := by omega
  have hgroups := sameBytes_batchGroups h d (n := s.cnt.toNat / 8) (hready.ranges.mono (by omega))
  have hck : (batchGroups d (s.cnt.toNat / 8) s).ck = ks := (sameContext_batchGroups d _ s).ck.trans h.ck
  rw [← batchGroups_src d (s.cnt.toNat / 8) s, ← batchGroups_dst d (s.cnt.toNat / 8) s, ← hck] at hgroups
  have htail := sameBytes_batchTail Config.params d (n := s.cnt.toNat % 8) hgroups
  rwa [hcount, batchGroups_src, batchGroups_dst, hck] at htail

/-- One direction of R235: all the blocks in order, and each block alone. -/
theorem BatchReady.equals_scalar {s : State} {ks : Schedule} (h : BatchReady s) (hctx : ContextOf ks s)
    (d : Direction) :
    ∃ t, Machine.exec (batchInstr d) s = .next t ∧ t.res = 0 ∧
      (∃ u, runAll (blockByBlock (scalarInstr d) s.src s.dst s.cnt.toNat) { s with sk := ks } = .next u ∧
        ∀ a : Addr, t.mem.byteAt a = u.mem.byteAt a) ∧
      (64 * s.cnt.toNat ≤ 2 ^ 32 → ∀ n, n < s.cnt.toNat → ∃ u,
        Machine.exec (scalarInstr d)
          { s with sk := ks, src := offset s.src (64 * n), dst := offset s.dst (64 * n) } = .next u ∧
        ∀ k, k < 64 → t.mem.byteAt (offset s.dst (64 * n + k)) = u.mem.byteAt (offset s.dst (64 * n + k))) := by
  have hsame := h.sameBytes hctx d
  refine ⟨_, h.exec d, rfl, ?_, fun hn n hlt => ⟨_, exec_scalarInstr d _, fun k hk => ?_⟩⟩
  · obtain ⟨u, hrun, -, hmem⟩ := runAll_blockByBlock d s.src s.dst s.cnt.toNat { s with sk := ks }
    exact ⟨u, hrun, fun a => hmem ▸ hsame a⟩
  · have hbatch := (stores_blockSteps (f := blockCipher Config.params d ks) s.mem h.ranges hn).1 ⟨64 * n + k, by omega⟩
    have hblock := (stores_storeMat s.mem (offset s.dst (64 * n)) (blockCipher Config.params d ks
      (loadBlock s.mem (offset s.src (64 * n))))).1 ⟨k, hk⟩
    rw [offset_offset, ← cipheredByte_block] at hblock
    exact (hsame _).trans (hbatch.trans hblock.symm)

/-- Settles O58: `BatchReady.equals_scalar` in both directions. -/
theorem batchEqualsScalarPerBlock : Obligations.BatchEqualsScalarPerBlock := by
  unfold Obligations.BatchEqualsScalarPerBlock
  intro s ks hvalid hctx hsrc hdst hcnt hr
  have h : BatchReady s := ⟨hvalid, hsrc, hdst, hcnt, hr⟩
  simp only [List.forall_mem_cons]
  exact ⟨h.equals_scalar hctx .encrypt, h.equals_scalar hctx .decrypt, List.forall_mem_nil _⟩

/-! ### The round trip -/

/-- Without a wrap, block `j` of the output is `f` of block `j` of the input. -/
theorem loadBlock_blockSteps {f : Block → Block} {src dst : Addr} (m : Memory) {n j : Nat}
    (hr : RangesAllowed src dst (64 * n)) (hn : 64 * n ≤ 2 ^ 32) (hj : j < n) :
    loadBlock (blockSteps f src dst n m) (offset dst (64 * j)) = f (loadBlock m (offset src (64 * j))) :=
  loadBlock_eq_of_bytes fun k => by
    have hbyte := (stores_blockSteps (f := f) m hr hn).1 ⟨64 * j + k.val, by omega⟩
    rw [offset_offset]
    exact hbyte.trans (cipheredByte_block f m src j k)

/-- In place, one step changes block `j` when its number names the same block modulo 2^32, and no other. -/
theorem loadBlock_blockStep_inPlace (f : Block → Block) (a : Addr) (k j : Nat) (m : Memory) :
    loadBlock (blockStep f a a k m) (offset a (64 * j)) =
      if offset a (64 * k) = offset a (64 * j) then f (loadBlock m (offset a (64 * j)))
      else loadBlock m (offset a (64 * j)) := by
  rw [blockStep]
  split
  case isTrue h => rw [h, loadBlock_storeMat]
  case isFalse h =>
    refine loadMat_congr 4 4 _ _ _ _ fun i hi => sameOutside_storeBlock m _ _ _ ?_
    have hne : (offset a (64 * k)).toNat ≠ (offset a (64 * j)).toNat := fun e => h (BitVec.eq_of_toNat_eq e)
    have ha := a.isLt
    simp only [offset, BitVec.toNat_sub, BitVec.toNat_add, BitVec.toNat_ofNat] at hne ⊢
    omega

/-- How many of the first `n` blocks from `a` up are block `j`: more than one when the range wraps onto itself (R61,
log entry 16). -/
def visits (a : Addr) (j n : Nat) : Nat := Nat.count (fun k => offset a (64 * k) = offset a (64 * j)) n

theorem visits_succ (a : Addr) (j n : Nat) :
    visits a j (n + 1) = visits a j n + if offset a (64 * n) = offset a (64 * j) then 1 else 0 := Nat.count_succ _ n

/-- In place, block `j` goes through `f` once for each visit. -/
theorem loadBlock_blockSteps_inPlace (f : Block → Block) (a : Addr) (j n : Nat) (m : Memory) :
    loadBlock (blockSteps f a a n m) (offset a (64 * j)) = f^[visits a j n] (loadBlock m (offset a (64 * j))) := by
  induction n with
  | zero => rfl
  | succ n ih =>
    rw [blockSteps, loadBlock_blockStep_inPlace, ih, visits_succ]
    split
    case isTrue h => rw [iterate_succ_apply']
    case isFalse h => rfl

/-- Blocks taken through `f` and from there through an inverse of `f` are as they were, at every count: without a wrap
each goes once through either, and with one the three ranges are the same and each goes through both equally
often. -/
theorem loadBlock_blockSteps_roundTrip {f g : Block → Block} (hinv : LeftInverse g f) {src dst out : Addr}
    {n j : Nat} {m m₁ : Memory} (hr : RangesAllowed src dst (64 * n)) (hr' : RangesAllowed dst out (64 * n))
    (h : SameBytes (blockSteps f src dst n m) m₁) (hj : j < n) :
    loadBlock (blockSteps g dst out n m₁) (offset out (64 * j)) = loadBlock m (offset src (64 * j)) := by
  by_cases hn : 64 * n ≤ 2 ^ 32
  · rw [loadBlock_blockSteps m₁ hr' hn hj, h.loadBlock_eq, loadBlock_blockSteps m hr hn hj, hinv]
  · obtain rfl := hr.eq_of_wraps (by omega)
    obtain rfl := hr'.eq_of_wraps (by omega)
    rw [loadBlock_blockSteps_inPlace, h.loadBlock_eq, loadBlock_blockSteps_inPlace, hinv.iterate]

/-- BENC, then BDEC from its output to `out`: the bytes each leaves. -/
theorem BatchReady.runAll_benc_bdec {s : State} {ks : Schedule} {out : Addr} (h : BatchReady s)
    (hctx : ContextOf ks s) (hout : out ≠ 0) (hr : RangesAllowed s.dst out (64 * s.cnt.toNat)) :
    ∃ m₁ t, runAll [.benc, .setsrc s.dst, .setdst out, .bdec] s = .next t ∧ t.res = 0 ∧
      SameBytes (blockSteps (encrypt Config.params ks) s.src s.dst s.cnt.toNat s.mem) m₁ ∧
      SameBytes (blockSteps (decrypt Config.params ks) s.dst out s.cnt.toNat m₁) t.mem := by
  obtain ⟨X, V, m₁, hbatch⟩ : ∃ X V m, batch Config.params .encrypt s = { s with sReg := X, v := V, mem := m } :=
    ⟨_, _, _, batch_frame _ _ _⟩
  have hexec := h.exec .encrypt
  have henc := h.sameBytes hctx .encrypt
  rw [hbatch] at hexec henc
  have hready : BatchReady
      { s with sReg := X, v := V, mem := m₁, src := s.dst, dst := out, res := 0, pc := s.pc + 3 } :=
    ⟨h.valid, h.dst, hout, h.cnt, hr⟩
  have hrun := (runAll_cons [.setsrc s.dst, .setdst out, .bdec] hexec).trans <|
    runAll_setsrc_setdst (hready.exec .decrypt)
  exact ⟨m₁, _, hrun, rfl, henc, hready.sameBytes ⟨hctx.bk, hctx.brc, hctx.ck⟩ .decrypt⟩

/-- Settles O60: byte `k` is one of block `k div 64`, which the round trip restores. -/
theorem batchRoundTrip : Obligations.BatchRoundTrip := by
  unfold Obligations.BatchRoundTrip
  intro s ks out hvalid hctx hsrc hdst hcnt hout hr hr'
  have h : BatchReady s := ⟨hvalid, hsrc, hdst, hcnt, hr⟩
  obtain ⟨m₁, t, hrun, hres, henc, hdec⟩ := h.runAll_benc_bdec hctx hout hr'
  refine ⟨t, hrun, hres, fun k hk => ?_⟩
  have hblock := loadBlock_blockSteps_roundTrip (decrypt_encrypt Config.params ks) (j := k / 64) hr hr' henc (by omega)
  rw [hdec, byteAt_eq_blockByte, byteAt_eq_blockByte s.mem, hblock]

end Sys2Proof.Machine
end

section
/-! NOP and the operand registers with the words that run them, and the ROM words ROMRD stores
(30_encoding.md R92, R94, 44_operands_and_housekeeping.md R270 to R274). -/

namespace Sys2Proof.Machine

open Sys2Proof.Claims

/-! ### Words of the housekeeping commands -/

/-- A legal command's word at the head of the list runs that command on the rest of the list (R95). -/
theorem step_encode_cons {i : Instr} (hw : i.wellFormed = true) (s : State) (ws : List Cmd) :
    step { s with pending := encode i :: ws } = exec i { s with pending := ws } :=
  step_of_decode_ok (fetch_of_pending_cons rfl) (decode_encode hw)

theorem encode_nop : encode .nop = 0x0100000000000000 := rfl

theorem encode_setsrc (imm : Word) : encode (.setsrc imm) = (0x02000000 : BitVec 32) ++ imm := rfl

theorem encode_setdst (imm : Word) : encode (.setdst imm) = (0x03000000 : BitVec 32) ++ imm := rfl

theorem encode_setcnt (imm : Word) : encode (.setcnt imm) = (0x04000000 : BitVec 32) ++ imm := rfl

/-- Settles O21: the commands by their `exec` equations, the words because each is the `encode` of its command, which
is legal with every immediate. -/
theorem housekeepingCommandsWriteTheirRegister : Obligations.HousekeepingCommandsWriteTheirRegister := by
  unfold Obligations.HousekeepingCommandsWriteTheirRegister
  intro s imm
  refine ⟨exec_nop s, exec_setsrc s imm, exec_setdst s imm, exec_setcnt s imm, fun ws => ?_⟩
  rw [← encode_nop, ← encode_setsrc, ← encode_setdst, ← encode_setcnt]
  exact ⟨(step_encode_cons rfl s ws).trans (exec_nop _), (step_encode_cons rfl s ws).trans (exec_setsrc _ imm),
    (step_encode_cons rfl s ws).trans (exec_setdst _ imm), (step_encode_cons rfl s ws).trans (exec_setcnt _ imm)⟩

/-! ### The ROM word an index names -/

/-- A table looked up at an index held in a word gives the entry of that index. -/
theorem lookup_ofNat {N : Nat} (f : Fin N → Word) (n : Fin N) (hN : N ≤ 2 ^ 32) :
    (if h : (BitVec.ofNat 32 n.val).toNat < N then some (f ⟨(BitVec.ofNat 32 n.val).toNat, h⟩) else none) =
      some (f n) := by
  have hn : (BitVec.ofNat 32 n.val).toNat = n.val :=
    (BitVec.toNat_ofNat _ _).trans (Nat.mod_eq_of_lt (n.isLt.trans_le hN))
  simp only [hn, Fin.is_lt, Fin.eta, dite_true]

section
variable (P : Params)

theorem romWord_romRc (n : Fin 352) : romWord P 0 (BitVec.ofNat 32 n.val) = some (P.romRc n) :=
  lookup_ofNat P.romRc n (by decide)

theorem romWord_romKsi (n : Fin 24) : romWord P 1 (BitVec.ofNat 32 n.val) = some (P.romKsi n) :=
  lookup_ofNat P.romKsi n (by decide)

theorem romWord_romKsp (n : Fin 64) : romWord P 2 (BitVec.ofNat 32 n.val) = some (P.romKsp n) :=
  lookup_ofNat P.romKsp n (by decide)

theorem romWord_romKsd (n : Fin 736) : romWord P 3 (BitVec.ofNat 32 n.val) = some (P.romKsd n) :=
  lookup_ofNat P.romKsd n (by decide)

end

/-! ### ROMRD -/

/-- Byte `k` of a word's image is the word's byte `k` (R12). -/
theorem getElem_bytes4 (w : Word) {k : Nat} (hk : k < (bytes4 w).length) : (bytes4 w)[k] = wordByte w k := by
  match k, hk with
  | 0, _ => rfl
  | 1, _ => rfl
  | 2, _ => rfl
  | 3, _ => rfl

/-- A word write stores the word's four bytes, the lowest first, and nothing else (R13). -/
theorem stores_writeWord (m : Memory) (a : Addr) (w : Word) :
    Stores m a 4 (fun k => wordByte w k.val) (m.writeWord a w) := by
  obtain ⟨hbytes, hout⟩ := stores_writeBytes m a (bytes4 w) (by simp [bytes4])
  exact ⟨fun k => (hbytes k).trans (getElem_bytes4 w k.isLt), hout⟩

/-- ROMRD of a legal table and index stores the word they name at DST; only memory, STATUS and pc change (R274). -/
theorem exec_romrd_stores (s : State) {x : BitVec 8} {imm w : Word} (h : romWord Config.params x imm = some w) :
    ∃ t, exec (.romrd x imm) s = .next t ∧ t = { s with mem := t.mem, res := 0, pc := s.pc + 1 } ∧
      Stores s.mem s.dst 4 (fun k => wordByte w k.val) t.mem :=
  ⟨_, exec_romrd s h, rfl, stores_writeWord s.mem s.dst w⟩

/-- Settles O22: `exec_romrd_stores` with the word that each of the four tables holds at the index. -/
theorem romrdStoresTheRomWord : Obligations.RomrdStoresTheRomWord := by
  unfold Obligations.RomrdStoresTheRomWord
  intro s
  exact ⟨fun n => exec_romrd_stores s (romWord_romRc _ n), fun n => exec_romrd_stores s (romWord_romKsi _ n),
    fun n => exec_romrd_stores s (romWord_romKsp _ n), fun n => exec_romrd_stores s (romWord_romKsd _ n)⟩

end Sys2Proof.Machine
end

section
/-! What a failing command leaves, and that its failure looks at no memory (60_exceptions.md R292). -/

namespace Sys2Proof.Machine

/-- The failing commands gathered by what they leave: a failed check changes STATUS and pc of the state itself, want of
the capability those of the state with the answer latched (R292, R297). -/
inductive FailsInto (i : Instr) (s : State) : State → Prop
  /-- an operand out of range, or a check of R238 -/
  | check (f : Failure) : FailsInto i s (s.fail f)
  /-- CTXINIT without the capability -/
  | nocap (hi : i = .ctxinit) : FailsInto i s ((latchCapability s).fail .nocap)

/-- What decides a failure stands in the command and the registers, so with any other memory the command fails alike:
the state it leaves is the same but for the memory, which is the other one, unread and unchanged. -/
theorem exec_fails {i : Instr} {s t : State} (h : exec i s = .next t) (hres : t.res ≠ 0) :
    FailsInto i s t ∧ ∀ m : Memory, exec i (s.withMem m) = .next (t.withMem m) := by
  have hends := exec_ends i s
  rw [h] at hends
  cases hends with
  | illegal hw => exact ⟨.check .illegal, fun m => ends_fail_of_illFormed hw (exec_ends i (s.withMem m))⟩
  | check u f hw hu hf =>
    exact ⟨.check f, fun m => ends_fail_of_check hw hu ((vectorCheck_withMem _ u).trans hf) (exec_ends i (s.withMem m))⟩
  | nocap hi hq =>
    subst hi
    refine ⟨.nocap rfl, fun m => ?_⟩
    have hlatch := latchCapability_withMem s m
    have hexec := exec_ctxinit_nocap (s.withMem m) (by rw [hlatch]; exact hq)
    rwa [hlatch] at hexec
  | done e hw hc hp hq he => exact absurd e.succeed_res hres

theorem FailsInto.res_toNat_le {i : Instr} {s t : State} (h : FailsInto i s t) : t.res.toNat ≤ 4 := by
  cases h with
  | check f => exact (failureCode_bounds f).2
  | nocap hi => exact (failureCode_bounds .nocap).2

/-- The two frames of a failure (R292); the second is `latchCapability_eq`'s. -/
theorem FailsInto.frame {i : Instr} {s t : State} (h : FailsInto i s t) :
    t = { s with res := t.res, errSeen := true, pc := s.pc + 1 } ∨
      (i = .ctxinit ∧ t.res = 2 ∧
        t = { s with capQ := t.capQ, capV := true, res := 2, errSeen := true, pc := s.pc + 1 }) := by
  cases h with
  | check f => exact .inl rfl
  | nocap hi => rw [latchCapability_eq]; exact .inr ⟨hi, rfl, rfl⟩

/-- Settles O9: `exec_fails`, with the bound on the code and the frame that `FailsInto` gives. -/
theorem failureChangesOnlyStatusAndPc : Obligations.FailureChangesOnlyStatusAndPc := by
  unfold Obligations.FailureChangesOnlyStatusAndPc
  intro i s t h hres
  obtain ⟨hfails, hmem⟩ := exec_fails h hres
  exact ⟨hfails.res_toNat_le, hfails.frame, hmem⟩

end Sys2Proof.Machine
end

section
/-! The reset state meets the invariant (70_reset_and_hazards.md R330). -/

namespace Sys2Proof.Machine

/-- Memory that lists nothing is in its canonical form. -/
theorem Memory.wf_nil : Memory.wf [] := ⟨.nil, fun _ hc => absurd hc List.not_mem_nil⟩

/-- Settles O18: the zeros of R330 (`resetIsAllZero`), of which TAG = 0, not `CTX_TAG` (R298), says that no context
is valid after reset. -/
theorem invHoldsAtReset : Obligations.InvHoldsAtReset := by
  unfold Obligations.InvHoldsAtReset
  obtain ⟨-, -, -, -, hclear, htag, -, -, -, hres, -, -, hcapQ, -⟩ := resetIsAllZero
  have hinvalid : State.reset.tag ≠ Config.params.ctxTag := fun h =>
    Config.params.ctxTag_ne_zero (h.symm.trans htag)
  exact {
    mem_wf := Memory.wf_nil
    res_le := by rw [hres]; exact Nat.zero_le 4
    res_errSeen := fun h => absurd hres h
    capQ_capV := fun h => absurd (hcapQ.symm.trans h) Bool.false_ne_true
    tag_cases := .inl htag
    valid_capQ := fun h => absurd h hinvalid
    valid_context := fun h => absurd h hinvalid
    clear_context := fun _ => hclear }

end Sys2Proof.Machine
end

section
/-! The model's two choices at the edge of the spec: a command with an operand out of range (30_encoding.md R93, R96),
and a step with no command issued (10_state.md R27, 70_reset_and_hazards.md R332). -/

namespace Sys2Proof.Machine

/-- Settles O6: of the ways a command can end (`exec_ends`), an operand out of range leaves only the failure E_ILLEGAL,
whose code is 4. -/
theorem outOfRangeOperandsFailIllegal : Obligations.OutOfRangeOperandsFailIllegal := by
  unfold Obligations.OutOfRangeOperandsFailIllegal
  intro i s hw
  calc exec i s = .next (s.fail .illegal) := ends_fail_of_illFormed hw (exec_ends i s)
    _ = .next { s with res := 4, errSeen := true, pc := s.pc + 1 } := rfl

/-- A list that is exhausted has no next word. -/
theorem fetch_of_pending_nil {s : State} (h : s.pending = []) : fetch s = none := by
  simp only [fetch, h]

/-- A step that fetches no word waits (R332). -/
theorem step_of_fetch_none {s : State} (hf : fetch s = none) : step s = .next s := by
  simp only [step, hf]

/-- Settles O7: with no command issued there is no word to fetch, and without one the step waits. -/
theorem idleStepWaits : Obligations.IdleStepWaits := by
  unfold Obligations.IdleStepWaits
  intro s hp
  exact step_of_fetch_none (fetch_of_pending_nil hp)

end Sys2Proof.Machine
end
